-- ==== Sys2Proof/Word.lean ====
section
/-! DEFINITION. The word types: command words (30_encoding.md R140), data bytes and bus addresses
(20_memory.md R100, R103). -/

namespace Sys2Proof

/-- One command word, bit 31 the most significant (R140). -/
abbrev Word := BitVec 32

/-- One register byte (R103: every register access is exactly 8 bits wide). -/
abbrev Byte := BitVec 8

/-- One CPU bus address (R100: 16 bits, byte-addressed). -/
abbrev Addr := BitVec 16

end Sys2Proof
end

