-- ==== Sys2Proof/Machine/Map.lean ====
section
/-! DEFINITION. The bus register map (10_state.md R31, 20_memory.md R106). -/

namespace Sys2Proof.Machine

/-- `APU_ADDRS = {$4000..$4013, $4015, $4017}` (R31): the addresses the block decodes. -/
def isApuAddr (a : Addr) : Bool :=
  decide (0x4000#16 ≤ a) && decide (a ≤ 0x4013#16) || a == 0x4015#16 || a == 0x4017#16

end Sys2Proof.Machine
end

