-- ==== Sys2Proof/Config.lean ====
section
/-! DEFINITION. What an implementation fixes: the configuration record `Cfg` (00_scope.md R9), the conditions
(60_exceptions.md R600 to R605), and the one choice the spec leaves free. -/

namespace Sys2Proof

/-- `REGION` (R9, R22). -/
inductive Region where
  | ntsc
  | pal
deriving DecidableEq, Repr

/-- The named conditions of 60_exceptions.md. The first three refuse a construction (R600). The other three arise at
run time, are handled in the step that raises them and never stop the machine (R601). -/
inductive Condition where
  | configOddPhaseCount
  | configNonRectangular
  | configBadParam
  | lateEvent
  | underrun
  | reservedCommand
deriving DecidableEq, Repr

/-- The configuration record (R9). A parameter the construction checks for a sign (R600) is an `Int` (log entry 16).
`kernel` is the table `K`: `none` is the table R481 defines, `some rows` is a supplied table (R482, R700). -/
structure Cfg where
  region : Region
  clockHz : Int
  framePeriod : Nat
  frameSteps : List Nat
  halfSteps : List Nat
  lengthTable : List Nat
  dutyTable : List (List Nat)
  triTable : List Nat
  noiseNtsc : List Nat
  noisePal : List Nat
  sampleRate : Int
  radius : Int
  phaseCount : Int
  sinkSeconds : Rat
  highWmFrac : Rat
  lowWmFrac : Rat
  underrunGrace : Int
  sweepReloadClearsSilenced : Bool
  kernel : Option (List (List Rat))
deriving DecidableEq, Repr

/-- FREE VALUE (log entry 6). When the schedule is exhausted and both steps of the sink's agent are enabled, the
spec fixes no order between them (R607 item 5): `true` takes UNDERRUN first, `false` takes RETRY first. -/
opaque Config.sinkAgentChoice : Nat → Bool

end Sys2Proof
end

