-- ==== Sys2Proof/Machine/Tables.lean ====
section
/-! DEFINITION. The fixed tables and the default configuration (00_scope.md R9). -/

namespace Sys2Proof.Machine

/-- `LENGTH_TABLE` (41_primitives.md R252). -/
def lengthTable : List Nat :=
  [10, 254, 20, 2, 40, 4, 80, 6, 160, 8, 60, 10, 14, 12, 26, 14] ++
  [12, 16, 24, 18, 48, 20, 96, 22, 192, 24, 72, 26, 16, 28, 32, 30]

/-- `DUTY_TABLE` (42_pulse.md R281), a row a duty index, a column a phase. -/
def dutyTable : List (List Nat) :=
  [[0, 1, 0, 0, 0, 0, 0, 0],
   [0, 1, 1, 0, 0, 0, 0, 0],
   [0, 1, 1, 1, 1, 0, 0, 0],
   [1, 0, 0, 1, 1, 1, 1, 1]]

/-- `TRI_TABLE` (43_triangle.md R331). -/
def triTable : List Nat :=
  [15, 14, 13, 12, 11, 10, 9, 8, 7, 6, 5, 4, 3, 2, 1, 0] ++
  [0, 1, 2, 3, 4, 5, 6, 7, 8, 9, 10, 11, 12, 13, 14, 15]

/-- The default noise periods, NTSC (44_noise.md R371). -/
def noiseNtsc : List Nat :=
  [4, 8, 16, 32, 64, 96, 128, 160, 202, 254, 380, 508, 762, 1016, 2034, 4068]

/-- The default noise periods, PAL (44_noise.md R371). -/
def noisePal : List Nat :=
  [4, 8, 14, 30, 60, 88, 118, 148, 188, 236, 354, 472, 708, 944, 1890, 3778]

/-- `CLOCK_HZ` of a region (R9, R22). -/
def clockHzOf : Region → Int
  | .ntsc => 1789773
  | .pal => 1662607

/-- The default configuration of a region. Defaults are those of R9. The OPEN parameters `SAMPLE_RATE`, `RADIUS` and
`PHASE_COUNT` take the values R480 suggests, the watermark fractions 1/2 and 1/4: DESIGN CHOICE, log entry 5. -/
def defaultCfg (region : Region) : Cfg where
  region := region
  clockHz := clockHzOf region
  framePeriod := 29830
  frameSteps := [7457, 14913, 22371, 29829]
  halfSteps := [14913, 29829]
  lengthTable := lengthTable
  dutyTable := dutyTable
  triTable := triTable
  noiseNtsc := noiseNtsc
  noisePal := noisePal
  sampleRate := 44100
  radius := 16
  phaseCount := 32
  sinkSeconds := 2
  highWmFrac := 1 / 2
  lowWmFrac := 1 / 4
  underrunGrace := 0
  sweepReloadClearsSilenced := false
  kernel := none

end Sys2Proof.Machine
end

