-- ==== Sys2Proof/Machine/Geometry.lean ====
section
/-! DEFINITION. What follows from a configuration: the sink's geometry (48_sink.md R534), table look-ups, and the
construction checks (60_exceptions.md R600). -/

namespace Sys2Proof.Machine

/-- `C = floor(SINK_SECONDS · SR)` frames (R534). -/
def capacity (c : Cfg) : Int := (c.sinkSeconds * (c.sampleRate : Rat)).floor
/-- `HWM = floor(HIGH_WM_FRAC · C)` (R534). -/
def highWm (c : Cfg) : Int := (c.highWmFrac * (capacity c : Rat)).floor
/-- `LWM = floor(LOW_WM_FRAC · C)` (R534). -/
def lowWm (c : Cfg) : Int := (c.lowWmFrac * (capacity c : Rat)).floor

/-- The noise period table the region selects (R22, R371). -/
def noiseTable (c : Cfg) : List Nat :=
  match c.region with
  | .ntsc => c.noiseNtsc
  | .pal => c.noisePal

/-- `NOISE_PERIOD_TABLE[REGION][rate]`, the reload of a 12-bit divider (R371, R33). -/
def noisePeriodOf (c : Cfg) (rate : BitVec 4) : BitVec 12 :=
  BitVec.ofNat 12 ((noiseTable c).getD rate.toNat 0)
/-- `LENGTH_TABLE[idx]` (R252). -/
def lengthOf (c : Cfg) (idx : BitVec 5) : BitVec 8 :=
  BitVec.ofNat 8 (c.lengthTable.getD idx.toNat 0)
/-- `DUTY_TABLE[duty][phase]` (R281). -/
def dutyOf (c : Cfg) (duty : BitVec 2) (phase : BitVec 3) : Nat :=
  (c.dutyTable.getD duty.toNat []).getD phase.toNat 0
/-- `TRI_TABLE[phase]` (R331). -/
def triOf (c : Cfg) (phase : BitVec 5) : Nat := c.triTable.getD phase.toNat 0

/-- A strictly increasing list. -/
def strictlyIncreasing : List Nat → Bool
  | [] => true
  | [_] => true
  | x :: y :: t => decide (x < y) && strictlyIncreasing (y :: t)

/-- `FRAME_STEPS` is four strictly increasing values in `[1, FRAME_PERIOD]` and `HALF_STEPS ⊆ FRAME_STEPS` (R600). -/
def frameStepsOk (c : Cfg) : Bool :=
  c.frameSteps.length == 4 && strictlyIncreasing c.frameSteps
    && c.frameSteps.all (fun n => decide (1 ≤ n) && decide (n ≤ c.framePeriod))
    && c.halfSteps.all (fun n => c.frameSteps.contains n)

/-- `C ≥ 1` and `0 ≤ LWM < HWM ≤ C` (R534, R600). -/
def sinkGeometryOk (c : Cfg) : Bool :=
  decide (1 ≤ capacity c) && decide (0 ≤ lowWm c) && decide (lowWm c < highWm c)
    && decide (highWm c ≤ capacity c)

/-- No condition of R600's row 2, `ConfigBadParam`, holds. -/
def paramsOk (c : Cfg) : Bool :=
  decide (1 ≤ c.radius) && decide (2 ≤ c.phaseCount) && decide (0 < c.sampleRate) && decide (0 < c.clockHz)
    && frameStepsOk c && sinkGeometryOk c && decide (0 ≤ c.underrunGrace)
    && (c.noiseNtsc ++ c.noisePal).all (fun n => decide (n ≤ 4095))

/-- The supplied kernel, if any, has `Pc/2 + 1` rows of `2r` entries (47_resampler.md R482; log entry 18). -/
def kernelShapeOk (c : Cfg) : Bool :=
  match c.kernel with
  | none => true
  | some rows =>
    decide ((rows.length : Int) = c.phaseCount / 2 + 1)
      && rows.all (fun row => decide ((row.length : Int) = 2 * c.radius))

/-- No condition of R600's row 3, `ConfigNonRectangular`, holds. -/
def shapesOk (c : Cfg) : Bool :=
  kernelShapeOk c
    && c.lengthTable.length == 32 && c.lengthTable.all (fun n => decide (n ≤ 254))
    && c.dutyTable.length == 4
    && c.dutyTable.all (fun row => row.length == 8 && row.all (fun n => decide (n ≤ 1)))
    && c.triTable.length == 32 && c.triTable.all (fun n => decide (n ≤ 15))
    && c.noiseNtsc.length == 16 && c.noisePal.length == 16

/-- The construction checks, in the order of R600: the first condition that holds, or `none`. -/
def checkCfg (c : Cfg) : Option Condition :=
  if c.phaseCount % 2 ≠ 0 then some .configOddPhaseCount
  else if !paramsOk c then some .configBadParam
  else if !shapesOk c then some .configNonRectangular
  else none

/-- The code of a condition (R600, R603, R604, R605). -/
def conditionCode : Condition → Byte
  | .configOddPhaseCount => 0x01#8
  | .configNonRectangular => 0x02#8
  | .configBadParam => 0x03#8
  | .lateEvent => 0x10#8
  | .underrun => 0x11#8
  | .reservedCommand => 0x20#8

end Sys2Proof.Machine
end

