-- ==== Sys2Proof/Machine/Sample.lean ====
section
/-! DEFINITION. Exact sample values. Every value the resampler makes is a rational combination of 1 and of the kernel's
entries, which are transcendental (47_resampler.md R481). A sample the driver gives is any real (30_encoding.md R143). A
`Sample` is a formal combination of 1, the kernel's terms and given reals, so no value is rounded (00_scope.md R11; log entry
4).

R481 defines `K[p][j] = (v_{j+1} - v_j) / (v_{2r} - v_0)`. With `G(p, i) = (v_i - v_0) / (v_{2r} - v_0)`, which is the
kernel's step response, `G(p, 0) = 0`, `G(p, 2r) = 1` and `K[p][j] = G(p, j+1) - G(p, j)`. The terms of a sample are keyed
by 0 for the number 1, by the even key `2 · (p · 2r + i)` for `G(p, i)`, `0 < i < 2r`, and by the odd key `2n + 1` for the
given real number `n`, of which nothing is assumed. -/

namespace Sys2Proof.Machine

/-- A formal rational combination: keys strictly rising, no coefficient 0. -/
structure Sample where
  terms : List (Nat × Rat)
deriving DecidableEq, Repr

/-- The sample 0. -/
def Sample.zero : Sample := ⟨[]⟩

/-- A rational sample. -/
def Sample.ofRat (q : Rat) : Sample := ⟨if q = 0 then [] else [(0, q)]⟩

/-- The `n`-th real the driver gives (R143): a term that stands for any real number. -/
def Sample.given (n : Nat) : Sample := ⟨[(2 * n + 1, 1)]⟩

/-- `v` added to the coefficient of key `k`. -/
def addTerm (k : Nat) (v : Rat) : List (Nat × Rat) → List (Nat × Rat)
  | [] => if v = 0 then [] else [(k, v)]
  | (a, w) :: t =>
    if k < a then (if v = 0 then (a, w) :: t else (k, v) :: (a, w) :: t)
    else if k = a then (if w + v = 0 then t else (a, w + v) :: t)
    else (a, w) :: addTerm k v t

/-- The sum of two samples. -/
def Sample.add (x y : Sample) : Sample :=
  ⟨y.terms.foldl (fun acc kv => addTerm kv.1 kv.2 acc) x.terms⟩

/-- The sum of a list of samples. -/
def Sample.sum (l : List Sample) : Sample := l.foldl Sample.add Sample.zero

/-- The value of a sample, given the value `g k` of each key in a field; `g 0` is to be 1. -/
def Sample.value {F : Type} [DivisionRing F] (g : Nat → F) (x : Sample) : F :=
  (x.terms.map (fun kv => (kv.2 : F) * g kv.1)).sum

/-- `w · G(p, i)` for the table of R481. Exactly 0 at `i = 0` and at `(p, i) = (Pc/2, 1)`, where `v_0` and `v_1` both lie
at or below `-r`; exactly `w` at `i = 2r`. -/
def stepResponse (c : Cfg) (p i : Nat) (w : Rat) : Sample :=
  if i = 0 ∨ (2 * (p : Int) = c.phaseCount ∧ i = 1) then Sample.zero
  else if (i : Int) = 2 * c.radius then Sample.ofRat w
  else ⟨if w = 0 then [] else [(2 * (p * (2 * c.radius.toNat) + i), w)]⟩

/-- `w · K[p][j]` (R481; a supplied table's entry where there is one, R700). -/
def kernelShare (c : Cfg) (p j : Nat) (w : Rat) : Sample :=
  match c.kernel with
  | some rows => Sample.ofRat (w * (rows.getD p []).getD j 0)
  | none => Sample.add (stepResponse c p (j + 1) w) (stepResponse c p j (-w))

end Sys2Proof.Machine
end

