-- ==== Sys2Proof/Machine/Store.lean ====
section
/-! DEFINITION. Sparse stores in one canonical form: keys strictly rising, no entry equal to what an unlisted key
reads as. The register file (10_state.md R31) and the sink's frame buffer (R42) are kept in this form. -/

namespace Sys2Proof.Machine

/-- What key `a` holds; `dflt` is what an unlisted key reads as. -/
def storeRead {α : Type} (dflt : α) : List (Nat × α) → Nat → α
  | [], _ => dflt
  | (k, v) :: t, a => if k = a then v else storeRead dflt t a

/-- The store without key `a`. -/
def storeErase {α : Type} (m : List (Nat × α)) (a : Nat) : List (Nat × α) :=
  m.filter (fun kv => kv.1 ≠ a)

/-- Key `a` put at its sorted place. -/
def storeInsert {α : Type} : List (Nat × α) → Nat → α → List (Nat × α)
  | [], a, v => [(a, v)]
  | (k, w) :: t, a, v => if a < k then (a, v) :: (k, w) :: t else (k, w) :: storeInsert t a v

/-- `v` written at key `a`; writing what an unlisted key reads as removes the entry. -/
def storeWrite {α : Type} [DecidableEq α] (dflt : α) (m : List (Nat × α)) (a : Nat) (v : α) : List (Nat × α) :=
  if v = dflt then storeErase m a else storeInsert (storeErase m a) a v

/-- Every key of the list lies above `lo`, and the keys rise strictly. -/
def storeRising {α : Type} : Nat → List (Nat × α) → Bool
  | _, [] => true
  | lo, (k, _) :: t => decide (lo ≤ k) && storeRising (k + 1) t

/-- The canonical form. -/
def storeWf {α : Type} [DecidableEq α] (dflt : α) (m : List (Nat × α)) : Bool :=
  storeRising 0 m && m.all (fun kv => decide (kv.2 ≠ dflt))

/-- The register file as data: bytes at bus addresses. An unlisted address reads `$00`, its reset value (R31; log entry 9). -/
abbrev Memory := List Host.Cell

/-- The byte at a bus address. -/
def Memory.read (m : Memory) (a : Addr) : Byte := storeRead 0#8 m a.toNat
/-- The register file with `d` at a bus address. -/
def Memory.write (m : Memory) (a : Addr) (d : Byte) : Memory := storeWrite 0#8 m a.toNat d
/-- The canonical form of the register file. -/
def Memory.wf (m : Memory) : Bool := storeWf 0#8 m

end Sys2Proof.Machine
end

