-- ==== Sys2Proof/Syntax.lean ====
section
/-! DEFINITION. The commands (spec/opcode_table.json, 30_encoding.md R141, R147): one constructor a row.
A `WR` row of one register keeps only its data byte, since the row fixes the address. -/

namespace Sys2Proof

/-- One command of the block. `d` is `DATA`, `a` is `ADDR` (R142). -/
inductive Instr where
  | wrP1Ctrl (d : Byte)
  | wrP1Sweep (d : Byte)
  | wrP1Lo (d : Byte)
  | wrP1Hi (d : Byte)
  | wrP2Ctrl (d : Byte)
  | wrP2Sweep (d : Byte)
  | wrP2Lo (d : Byte)
  | wrP2Hi (d : Byte)
  | wrTriLinear (d : Byte)
  | wrTriUnused (d : Byte)
  | wrTriLo (d : Byte)
  | wrTriHi (d : Byte)
  | wrNoiCtrl (d : Byte)
  | wrNoiUnused (d : Byte)
  | wrNoiPeriod (d : Byte)
  | wrNoiLen (d : Byte)
  | wrDmc0 (d : Byte)
  | wrDmc1 (d : Byte)
  | wrDmc2 (d : Byte)
  | wrDmc3 (d : Byte)
  | wrStatus (d : Byte)
  | wrFrame (d : Byte)
  /-- The catch-all row of `WR`: any address outside `APU_ADDRS` (R147, R208). -/
  | wrNonapu (a : Addr) (d : Byte)
  /-- `RD`, of an address inside `APU_ADDRS` (R145, R209). -/
  | rd (a : Addr)
  | tick
  | drain
  /-- Its list operand travels beside the word (R143). -/
  | push
  | render
  /-- Its list operand travels beside the word (R143). -/
  | sinkw
  | devadv (k : BitVec 24)
  | stop
deriving DecidableEq, Repr

end Sys2Proof
end

