-- ==== Sys2Proof/Machine/State.lean ====
section
/-! DEFINITION. The state as plain data (10_state.md), and the state after reset (R45, 70_reset_and_hazards.md R700). -/

namespace Sys2Proof.Machine

/-- The envelope of a pulse channel or of the noise channel (R34). `loop` is also the length-counter halt flag. -/
structure Envelope where
  start : Bool
  loop : Bool
  isConst : Bool
  vol : BitVec 4
  div : BitVec 4
  decay : BitVec 4
deriving DecidableEq, Repr

/-- The sweep unit of a pulse channel (R34). -/
structure Sweep where
  en : Bool
  per : BitVec 3
  neg : Bool
  shift : BitVec 3
  reload : Bool
  div : BitVec 3
deriving DecidableEq, Repr

/-- A length counter with its deferred load (R34). -/
structure Length where
  counter : BitVec 8
  enabled : Bool
  pending : Bool
  index : BitVec 5
deriving DecidableEq, Repr

/-- A pulse record (R34). `first` is fixed at construction. -/
structure Pulse where
  first : Bool
  duty : BitVec 2
  phase : BitVec 3
  env : Envelope
  sw : Sweep
  len : Length
  period : BitVec 11
  tdiv : BitVec 11
  silenced : Bool
deriving DecidableEq, Repr

/-- The triangle's linear counter (R35). -/
structure Linear where
  value : BitVec 7
  counter : BitVec 7
  reload : Bool
deriving DecidableEq, Repr

/-- The triangle record (R35). `control` is also the length-counter halt flag. -/
structure Triangle where
  control : Bool
  lin : Linear
  len : Length
  period : BitVec 11
  tdiv : BitVec 11
  phase : BitVec 5
deriving DecidableEq, Repr

/-- The noise record (R36). `short` is the LFSR's mode. -/
structure Noise where
  env : Envelope
  len : Length
  short : Bool
  rate : BitVec 4
  period : BitVec 12
  tdiv : BitVec 12
  lfsr : BitVec 15
deriving DecidableEq, Repr

/-- A step event: a time in seconds and an amplitude, both exact rationals (R40). -/
structure Event where
  time : Rat
  amp : Rat
deriving DecidableEq, Repr

/-- The resampler (R41). `pend` has one contribution list a pushed event, of pairs (sample index, weight). -/
structure Resampler where
  h : Nat
  acc : Sample
  baseline : Rat
  pend : List (List (Nat × Sample))
deriving DecidableEq, Repr

/-- One interleaved stereo frame (R42). -/
structure Frame where
  left : Sample
  right : Sample
deriving DecidableEq, Repr

/-- A write request of the sink (R42). -/
structure Request where
  id : Nat
  len : Nat
  rem : List Sample
  done : Nat
deriving DecidableEq, Repr

/-- How a write request ended, with the frames committed (R42). -/
inductive WriteOutcome where
  | completed (n : Nat)
  | aborted (n : Nat)
deriving DecidableEq, Repr

/-- A completion record (R42). -/
structure Completion where
  id : Nat
  outcome : WriteOutcome
deriving DecidableEq, Repr

/-- The sink (R42). `buf` lists the slots that do not hold `(0, 0)`. -/
structure Sink where
  buf : List (Nat × Frame)
  w : Nat
  p : Nat
  queue : List Request
  wdArmed : Bool
  wdDeadline : Nat
  nextId : Nat
  completed : List Completion
deriving DecidableEq, Repr

/-- The bookkeeping fields (R43). -/
structure Diag where
  late : Nat
  underrun : Nat
  refused : Bool
deriving DecidableEq, Repr

/-- The list operand that travels beside a command word (30_encoding.md R143): the driver's latch, as the assembler
syntax takes it, or a list given with the word. A given sample may be any real (`Sample.given`); a given event is rational
(DESIGN CHOICE, log entry 17). -/
inductive Operand where
  | latched
  | events (l : List Event)
  | samples (l : List Sample)
deriving DecidableEq, Repr

/-- One turn of the merged schedule (60_exceptions.md R612): a command word of the driver or the device, or a step
offered to the sink's internal agent. -/
inductive Turn where
  | command (w : Word) (op : Operand)
  | retry
  | underrun
deriving DecidableEq, Repr

/-- What a command returned (00_scope.md R16). -/
inductive Observation where
  | readByte (a : Addr) (d : Byte)
  | drained (l : List Event)
  | rendered (l : List Sample)
  | sinkId (n : Nat)
  | played (l : List Frame)
deriving DecidableEq, Repr

/-- The model's own fields, outside the block's state `S`: the schedule still to run, the list operand beside the command
that runs, the driver's two latches (R143), the observation so far (R16), and how many free choices were used (log entries
1, 3, 6, 7). -/
structure HostSide where
  turns : List Turn
  operand : Operand
  lastDrain : List Event
  lastRender : List Sample
  trace : List Observation
  choices : Nat
deriving DecidableEq, Repr

/-- The whole machine: the configuration it was constructed with (R9, R111), the block's state `S` (R30 to R43) and
the host's side. -/
structure State where
  cfg : Cfg
  cyc : Nat
  reg : Memory
  p1 : Pulse
  p2 : Pulse
  tri : Triangle
  noise : Noise
  fs : Nat
  events : List Event
  lastAmp : Rat
  rs : Resampler
  sink : Sink
  diag : Diag
  host : HostSide
deriving DecidableEq, Repr

/-- No step of this block faults: "No runtime condition of this block faults or sticks" (60_exceptions.md R601,
93_implementation_defined.md section 1), so the type has no constructor. -/
inductive Fault
deriving DecidableEq, Repr

/-- Why a step has no meaning. -/
inductive Refusal where
  /-- Raised by an arm of exec whose instruction is not modelled yet; safe. No arm raises it now. -/
  | notModelled (mnemonic : String)
deriving DecidableEq, Repr

/-- The reset value of an envelope (R34). -/
def Envelope.zero : Envelope := ⟨false, false, false, 0#4, 0#4, 0#4⟩
/-- The reset value of a length counter (R34). -/
def Length.zero : Length := ⟨0#8, false, false, 0#5⟩
/-- The reset value of a sweep unit (R34). -/
def Sweep.zero : Sweep := ⟨false, 0#3, false, 0#3, false, 0#3⟩
/-- The reset value of a pulse record (R34). -/
def Pulse.zero (first : Bool) : Pulse :=
  ⟨first, 0#2, 0#3, Envelope.zero, Sweep.zero, Length.zero, 0#11, 0#11, false⟩
/-- The reset value of the triangle record (R35). -/
def Triangle.zero : Triangle := ⟨false, ⟨0#7, 0#7, false⟩, Length.zero, 0#11, 0#11, 0#5⟩
/-- The reset value of the noise record (R36): the LFSR starts at 1. -/
def Noise.zero : Noise := ⟨Envelope.zero, Length.zero, false, 0#4, 0#12, 0#12, 1#15⟩

/-- The reset state of a configuration (R45). -/
def State.ofCfg (c : Cfg) : State where
  cfg := c
  cyc := 0
  reg := []
  p1 := Pulse.zero true
  p2 := Pulse.zero false
  tri := Triangle.zero
  noise := Noise.zero
  fs := 0
  events := []
  lastAmp := 0
  rs := ⟨0, Sample.zero, 0, []⟩
  sink := ⟨[], 0, 0, [], false, 0, 0, []⟩
  diag := ⟨0, 0, false⟩
  host := ⟨[], .latched, [], [], [], 0⟩

/-- The machine right after reset: `Construct` (R700) of the default configuration. -/
def State.reset : State := State.ofCfg (defaultCfg .ntsc)

end Sys2Proof.Machine
end

