-- ==== Sys2Proof/Machine/Operands.lean ====
section
/-! DEFINITION. Operand assembly from register bytes (30_encoding.md R144, 10_state.md R50 to R57, 20_memory.md R102).
Every operand is unsigned; none is sign-extended or scaled. -/

namespace Sys2Proof.Machine

/-- `d[i]`. -/
def bitOf (d : Byte) (i : Nat) : Bool := d.getLsbD i

/-- Duty index `d[7:6]` (R50). -/
def dutyField (d : Byte) : BitVec 2 := d.extractLsb' 6 2
/-- Envelope volume `d[3:0]` (R50, R55). -/
def volField (d : Byte) : BitVec 4 := d.extractLsb' 0 4
/-- Sweep divider period `d[6:4]` (R51). -/
def sweepPerField (d : Byte) : BitVec 3 := d.extractLsb' 4 3
/-- Sweep shift `d[2:0]` (R51). -/
def sweepShiftField (d : Byte) : BitVec 3 := d.extractLsb' 0 3
/-- Linear reload value `d[6:0]` (R54). -/
def linearField (d : Byte) : BitVec 7 := d.extractLsb' 0 7
/-- Length-select index `d[7:3]` (R53, R54, R55). -/
def lengthField (d : Byte) : BitVec 5 := d.extractLsb' 3 5
/-- Noise rate `d[3:0]` (R55). -/
def rateField (d : Byte) : BitVec 4 := d.extractLsb' 0 4

/-- The timer period that the two register bytes of a pulse or of the triangle spell, `{reg[base+3][2:0], reg[base+2]}`
(R144). -/
def periodOfBytes (m : Memory) (base : Addr) : BitVec 11 := (m.read (base + 3#16)).extractLsb' 0 3 ++ m.read (base + 2#16)

/-- `{period[10:8], d}`, as a write of the low period byte is given (R52 and R54, which refer to 42_pulse.md R286 and 43_triangle.md
R333 for it; R102). Log entry 19 records where R144 reads otherwise. -/
def withPeriodLow (period : BitVec 11) (d : Byte) : BitVec 11 := period.extractLsb' 8 3 ++ d
/-- `{d[2:0], period[7:0]}`, as a write of the high period bits is given (R53 and R54, which refer to 42_pulse.md R287 and
43_triangle.md R334 for it; R102). Log entry 19 records where R144 reads otherwise. -/
def withPeriodHigh (period : BitVec 11) (d : Byte) : BitVec 11 := d.extractLsb' 0 3 ++ period.extractLsb' 0 8

end Sys2Proof.Machine
end

