-- ==== Sys2Proof/Machine/Flags.lean ====
section
/-! DEFINITION. The block's one-bit flags (10_state.md R39). It has no condition codes. -/

namespace Sys2Proof.Machine

/-- The length-counter halt flag of a pulse channel: `env.loop` (R34, R249). -/
def pulseHalt (c : Pulse) : Bool := c.env.loop
/-- The length-counter halt flag of the triangle: `control` (R35, R249). -/
def triHalt (t : Triangle) : Bool := t.control
/-- The length-counter halt flag of the noise channel: `env.loop` (R36, R249). -/
def noiseHalt (n : Noise) : Bool := n.env.loop

/-- `env.start` set (R39: a write to byte 3 of the channel). -/
def envRestart (e : Envelope) : Envelope := { e with start := true }

/-- `loop`, `const` and `vol` of an envelope, from a channel's byte 0 (R50, R55). -/
def envControl (e : Envelope) (d : Byte) : Envelope :=
  { e with loop := bitOf d 5, isConst := bitOf d 4, vol := volField d }

/-- The enable flag of a length counter as one bit of `$4015` gives it (40_bus.md R206): a clear bit also zeroes the
counter and cancels a pending load. -/
def lenEnable (l : Length) (on : Bool) : Length :=
  if on then { l with enabled := true }
  else { l with enabled := false, counter := 0#8, pending := false }

end Sys2Proof.Machine
end

