-- ==== Sys2Proof/Machine/Primitives.lean ====
section
/-! DEFINITION. The shared timer primitives (41_primitives.md): divider, envelope, length counter. -/

namespace Sys2Proof.Machine

/-- `DividerClock(d, period)` (R240): the new counter, and whether the divider fired. -/
def dividerClock {n : Nat} (counter period : BitVec n) : BitVec n × Bool :=
  if counter = 0#n then (period, true) else (counter - 1#n, false)

/-- `EnvVolume(e)` (R242). -/
def envVolume (e : Envelope) : BitVec 4 := if e.isConst then e.vol else e.decay

/-- `EnvClock(e)` (R243). -/
def envClock (e : Envelope) : Envelope :=
  if e.start then { e with start := false, decay := 15#4, div := e.vol }
  else
    let dv := dividerClock e.div e.vol
    if dv.2 then
      if e.decay ≠ 0#4 then { e with div := dv.1, decay := e.decay - 1#4 }
      else if e.loop then { e with div := dv.1, decay := 15#4 }
      else { e with div := dv.1 }
    else { e with div := dv.1 }

/-- `LenRequest(l, idx, halt)` (R249). -/
def lenRequest (l : Length) (idx : BitVec 5) (halt : Bool) : Length :=
  if halt then l else { l with pending := true, index := idx }

/-- `LenClock(l, halt)` (R250). -/
def lenClock (l : Length) (halt : Bool) : Length :=
  if l.counter ≠ 0#8 ∧ halt = false then { l with counter := l.counter - 1#8 } else l

/-- `LenLoad(l)` (R251). -/
def lenLoad (c : Cfg) (l : Length) : Length :=
  if l.pending then
    if l.enabled then { l with counter := lengthOf c l.index, pending := false }
    else { l with pending := false }
  else l

end Sys2Proof.Machine
end

