-- ==== Sys2Proof/Machine/Channels.lean ====
section
/-! DEFINITION. The channels as functions on their own records: register writes, timer clocks, sweep and linear
clocks, amplitudes (42_pulse.md, 43_triangle.md, 44_noise.md). -/

namespace Sys2Proof.Machine

/-- `PulseWrite(c, 0, d)` (R284). -/
def pulseWriteCtrl (c : Pulse) (d : Byte) : Pulse :=
  { c with duty := dutyField d, env := envControl c.env d }

/-- `PulseWrite(c, 1, d)` (R285). -/
def pulseWriteSweep (cfg : Cfg) (c : Pulse) (d : Byte) : Pulse :=
  { c with
    sw := { c.sw with
      en := bitOf d 7, per := sweepPerField d, neg := bitOf d 3, shift := sweepShiftField d, reload := true }
    silenced := if cfg.sweepReloadClearsSilenced then false else c.silenced }

/-- `PulseWrite(c, 2, d)` (R286). -/
def pulseWriteLo (c : Pulse) (d : Byte) : Pulse :=
  { c with period := withPeriodLow c.period d, silenced := false }

/-- `PulseWrite(c, 3, d)` (R287). -/
def pulseWriteHi (c : Pulse) (d : Byte) : Pulse :=
  { c with
    period := withPeriodHigh c.period d
    len := lenRequest c.len (lengthField d) (pulseHalt c)
    phase := 0#3
    env := envRestart c.env
    silenced := false }

/-- `PulseTimerClock(c)` (R288). -/
def pulseTimerClock (c : Pulse) : Pulse :=
  let dv := dividerClock c.tdiv c.period
  { c with tdiv := dv.1, phase := if dv.2 then c.phase + 1#3 else c.phase }

/-- `SweepTarget(c)` (R290), an unbounded integer. -/
def sweepTarget (c : Pulse) : Int :=
  let period : Int := c.period.toNat
  let delta : Int := (c.period.toNat >>> c.sw.shift.toNat : Nat)
  if c.sw.neg then (if c.first then period - delta - 1 else period - delta) else period + delta

/-- `SweepOutOfRange(c)` (R291). -/
def sweepOutOfRange (c : Pulse) : Bool :=
  decide (0x7FF < sweepTarget c) || decide (sweepTarget c < 8)

/-- `SweepClock(c)` (R292). The target is taken from the period before the clock. -/
def sweepClock (c : Pulse) : Pulse :=
  let oor := sweepOutOfRange c
  let fire : Bool := c.sw.div == 0#3
  { c with
    silenced := c.silenced || oor
    period :=
      if fire && c.sw.en && c.sw.shift != 0#3 && !oor then BitVec.ofInt 11 (sweepTarget c) else c.period
    sw :=
      if fire || c.sw.reload then { c.sw with div := c.sw.per, reload := false }
      else { c.sw with div := c.sw.div - 1#3 } }

/-- `PulseAmp(c)` (R293). -/
def pulseAmp (cfg : Cfg) (c : Pulse) : Nat :=
  if c.len.counter = 0#8 ∨ c.period.toNat < 8 ∨ dutyOf cfg c.duty c.phase = 0 ∨ c.silenced = true then 0
  else (envVolume c.env).toNat

/-- `TriWrite0(d)` (R332). -/
def triWriteLinear (t : Triangle) (d : Byte) : Triangle :=
  { t with control := bitOf d 7, lin := { t.lin with value := linearField d, reload := true } }

/-- `TriWrite2(d)` (R333). -/
def triWriteLo (t : Triangle) (d : Byte) : Triangle := { t with period := withPeriodLow t.period d }

/-- `TriWrite3(d)` (R334). -/
def triWriteHi (t : Triangle) (d : Byte) : Triangle :=
  { t with period := withPeriodHigh t.period d, len := lenRequest t.len (lengthField d) (triHalt t) }

/-- `TriTimerClock()` (R335). -/
def triTimerClock (t : Triangle) : Triangle :=
  let dv := dividerClock t.tdiv t.period
  { t with tdiv := dv.1, phase := if dv.2 then t.phase + 1#5 else t.phase }

/-- `LinClock()` (R337). -/
def linClock (t : Triangle) : Triangle :=
  if t.lin.reload then { t with lin := { t.lin with counter := t.lin.value, reload := t.control } }
  else if t.lin.counter ≠ 0#7 then { t with lin := { t.lin with counter := t.lin.counter - 1#7 } }
  else t

/-- `TriAmp()` (R336). -/
def triAmp (cfg : Cfg) (t : Triangle) : Nat :=
  if t.len.counter = 0#8 ∨ t.lin.counter = 0#7 then 0 else triOf cfg t.phase

/-- `NoiseWrite0(d)` (R372). -/
def noiseWriteCtrl (n : Noise) (d : Byte) : Noise := { n with env := envControl n.env d }

/-- `NoiseWrite2(d)` (R373). -/
def noiseWritePeriod (cfg : Cfg) (n : Noise) (d : Byte) : Noise :=
  { n with short := bitOf d 7, rate := rateField d, period := noisePeriodOf cfg (rateField d) }

/-- `NoiseWrite3(d)` (R375). -/
def noiseWriteLen (n : Noise) (d : Byte) : Noise :=
  { n with len := lenRequest n.len (lengthField d) (noiseHalt n), env := envRestart n.env }

/-- `LfsrStep()` on the register alone (R374). -/
def lfsrStep (short : Bool) (r : BitVec 15) : BitVec 15 :=
  let fb := Bool.xor (r.getLsbD 0) (if short then r.getLsbD 6 else r.getLsbD 1)
  (r >>> 1) ||| (BitVec.ofBool fb).zeroExtend 15 <<< 14

/-- `NoiseTimerClock()` (R376). -/
def noiseTimerClock (n : Noise) : Noise :=
  let dv := dividerClock n.tdiv n.period
  { n with tdiv := dv.1, lfsr := if dv.2 then lfsrStep n.short n.lfsr else n.lfsr }

/-- `NoiseAmp()` (R377). -/
def noiseAmp (n : Noise) : Nat :=
  if n.len.counter = 0#8 ∨ n.lfsr.getLsbD 0 = true then 0 else (envVolume n.env).toNat

end Sys2Proof.Machine
end

