-- ==== Sys2Proof/Machine/Mixer.lean ====
section
/-! DEFINITION. The mixer, in exact rational arithmetic (46_mixer_events.md R440). -/

namespace Sys2Proof.Machine

/-- The pulse half of `MIX`: `95.88 / (8128 / ps + 100)`, 0 at `ps = 0` (R440). -/
def mixPulse (ps : Nat) : Rat := if ps = 0 then 0 else (2397 / 25) / (8128 / (ps : Rat) + 100)

/-- `t / 8227 + n / 12241` (R440). -/
def mixTnd (t n : Nat) : Rat := (t : Rat) / 8227 + (n : Rat) / 12241

/-- `MIX(p1, p2, t, n)` (R440). -/
def mix (p1 p2 t n : Nat) : Rat :=
  mixPulse (p1 + p2) + (if mixTnd t n = 0 then 0 else (15979 / 100) / (1 / mixTnd t n + 100))

/-- `MIX` of the four channel amplitudes (R38, R441). -/
def mixNow (s : State) : Rat := mix (pulseAmp s.cfg s.p1) (pulseAmp s.cfg s.p2) (triAmp s.cfg s.tri) (noiseAmp s.noise)

end Sys2Proof.Machine
end

