-- ==== Sys2Proof/Machine/Ops.lean ====
section
/-! DEFINITION. The named operations over the state: the field updates, the current time, `Update()`, the register
write, the conditions, and what the driver keeps. -/

namespace Sys2Proof.Machine

/-- What every meaning answers. -/
abbrev Result := Host.Outcome State Fault Refusal

def State.withCyc (s : State) (x : Nat) : State := { s with cyc := x }
def State.withReg (s : State) (x : Memory) : State := { s with reg := x }
def State.withP1 (s : State) (x : Pulse) : State := { s with p1 := x }
def State.withP2 (s : State) (x : Pulse) : State := { s with p2 := x }
def State.withTri (s : State) (x : Triangle) : State := { s with tri := x }
def State.withNoise (s : State) (x : Noise) : State := { s with noise := x }
def State.withFs (s : State) (x : Nat) : State := { s with fs := x }
def State.withEvents (s : State) (x : List Event) : State := { s with events := x }
def State.withLastAmp (s : State) (x : Rat) : State := { s with lastAmp := x }
def State.withRs (s : State) (x : Resampler) : State := { s with rs := x }
def State.withSink (s : State) (x : Sink) : State := { s with sink := x }
def State.withDiag (s : State) (x : Diag) : State := { s with diag := x }
def State.withHost (s : State) (x : HostSide) : State := { s with host := x }

/-- `current_time()`: `S.cyc / CLOCK_HZ` seconds, exact (45_frame_sequencer.md R405). -/
def now (s : State) : Rat := (s.cyc : Rat) / (s.cfg.clockHz : Rat)

/-- `Update()` (46_mixer_events.md R441): a changed mixer output is appended as a step event at the current time, and
the last amplitude becomes the mixer's output. -/
def update (s : State) : State :=
  (s.withEvents (if mixNow s = s.lastAmp then s.events else s.events ++ [⟨now s, mixNow s⟩])).withLastAmp (mixNow s)

/-- One register write (40_bus.md R200): the byte is stored, the register's own effect applied, then `Update()` runs
once. -/
def apuWrite (a : Addr) (d : Byte) (effect : State → State) (s : State) : State :=
  update (effect (s.withReg (s.reg.write a d)))

/-- `raise <Condition>` (60_exceptions.md R606): the record a condition leaves. Nothing transfers control (R609), so the
pc-saving part of an exception entry does not exist here, and nor does a return (R610). The info of a condition is not kept (R606; log entry 15). -/
def raiseCondition (c : Condition) (s : State) : State :=
  match c with
  | .lateEvent => s.withDiag { s.diag with late := s.diag.late + 1 }
  | .underrun => s.withDiag { s.diag with underrun := s.diag.underrun + 1 }
  | .reservedCommand => s.withDiag { s.diag with refused := true }
  | .configOddPhaseCount => s
  | .configBadParam => s
  | .configNonRectangular => s

/-- What a command returned, added to the observation (00_scope.md R16). -/
def observe (o : Observation) (s : State) : State :=
  s.withHost { s.host with trace := s.host.trace ++ [o] }

/-- The list operand beside a command word, for the command that runs (30_encoding.md R143). -/
def setOperand (op : Operand) (s : State) : State := s.withHost { s.host with operand := op }

/-- The list a `PUSH` works on (30_encoding.md R143): the list given beside its word, else the driver's latch, which holds
the result of the most recent `DRAIN`. -/
def pushOperand (h : HostSide) : List Event :=
  match h.operand with
  | .latched => h.lastDrain
  | .events l => l
  | .samples _ => h.lastDrain

/-- The list a `SINKW` works on (30_encoding.md R143): the list given beside its word, else the driver's latch, which holds
the result of the most recent `RENDER`. -/
def sinkOperand (h : HostSide) : List Sample :=
  match h.operand with
  | .latched => h.lastRender
  | .events _ => h.lastRender
  | .samples l => l

/-- The driver's latch of the most recent `DRAIN` result (30_encoding.md R143). -/
def latchEvents (l : List Event) (s : State) : State := s.withHost { s.host with lastDrain := l }
/-- The driver's latch of the most recent `RENDER` result (30_encoding.md R143). -/
def latchSamples (l : List Sample) (s : State) : State := s.withHost { s.host with lastRender := l }

end Sys2Proof.Machine
end

