-- ==== Sys2Proof/Machine/Bus.lean ====
section
/-! DEFINITION. The status register, the stored-only and non-APU writes, the read (40_bus.md R206 to R209), and the
whole write dispatch as one function (R200). -/

namespace Sys2Proof.Machine

/-- `StatusWrite(d)` (R206): bit 0 pulse 1, bit 1 pulse 2, bit 2 triangle, bit 3 noise. -/
def statusWrite (d : Byte) (s : State) : State :=
  (((s.withP1 { s.p1 with len := lenEnable s.p1.len (bitOf d 0) }).withP2
    { s.p2 with len := lenEnable s.p2.len (bitOf d 1) }).withTri
    { s.tri with len := lenEnable s.tri.len (bitOf d 2) }).withNoise
    { s.noise with len := lenEnable s.noise.len (bitOf d 3) }

/-- WR_DMC_0 (R207): stored only. -/
def execWrDmc0 (d : Byte) (s : State) : Result := .next (apuWrite 0x4010#16 d id s)
/-- WR_DMC_1 (R207): stored only. -/
def execWrDmc1 (d : Byte) (s : State) : Result := .next (apuWrite 0x4011#16 d id s)
/-- WR_DMC_2 (R207): stored only. -/
def execWrDmc2 (d : Byte) (s : State) : Result := .next (apuWrite 0x4012#16 d id s)
/-- WR_DMC_3 (R207): stored only. -/
def execWrDmc3 (d : Byte) (s : State) : Result := .next (apuWrite 0x4013#16 d id s)
/-- WR_STATUS (R206). -/
def execWrStatus (d : Byte) (s : State) : Result := .next (apuWrite 0x4015#16 d (statusWrite d) s)
/-- WR_FRAME (R207, 45_frame_sequencer.md R406): stored only. -/
def execWrFrame (d : Byte) (s : State) : Result := .next (apuWrite 0x4017#16 d id s)
/-- WR_NONAPU (R208): no effect, whatever the address and the data (log entry 10). -/
def execWrNonapu (_a : Addr) (_d : Byte) (s : State) : Result := .next s

/-- RD (R209): the stored byte is returned. An address outside `APU_ADDRS`, which no word decodes to, is the condition
`ReservedCommand` (R145; DESIGN CHOICE, log entry 10). -/
def execRd (a : Addr) (s : State) : Result :=
  if isApuAddr a then .next (observe (.readByte a (s.reg.read a)) s)
  else .next (raiseCondition .reservedCommand s)

/-- The case of R200's dispatch: what a write to a register does beside storing its byte. -/
def registerEffect (a : Addr) (d : Byte) (s : State) : State :=
  if a = 0x4000#16 then s.withP1 (pulseWriteCtrl s.p1 d)
  else if a = 0x4001#16 then s.withP1 (pulseWriteSweep s.cfg s.p1 d)
  else if a = 0x4002#16 then s.withP1 (pulseWriteLo s.p1 d)
  else if a = 0x4003#16 then s.withP1 (pulseWriteHi s.p1 d)
  else if a = 0x4004#16 then s.withP2 (pulseWriteCtrl s.p2 d)
  else if a = 0x4005#16 then s.withP2 (pulseWriteSweep s.cfg s.p2 d)
  else if a = 0x4006#16 then s.withP2 (pulseWriteLo s.p2 d)
  else if a = 0x4007#16 then s.withP2 (pulseWriteHi s.p2 d)
  else if a = 0x4008#16 then s.withTri (triWriteLinear s.tri d)
  else if a = 0x400A#16 then s.withTri (triWriteLo s.tri d)
  else if a = 0x400B#16 then s.withTri (triWriteHi s.tri d)
  else if a = 0x400C#16 then s.withNoise (noiseWriteCtrl s.noise d)
  else if a = 0x400E#16 then s.withNoise (noiseWritePeriod s.cfg s.noise d)
  else if a = 0x400F#16 then s.withNoise (noiseWriteLen s.noise d)
  else if a = 0x4015#16 then statusWrite d s
  else s

/-- `WR(a, d)` as R200 writes it, the reference the meanings of the `WR_*` rows are compared with. -/
def busWrite (a : Addr) (d : Byte) (s : State) : State :=
  if isApuAddr a then apuWrite a d (registerEffect a d) s else s

end Sys2Proof.Machine
end

