-- ==== Sys2Proof/Machine/Drain.lean ====
section
/-! DEFINITION. The drain of the step event stream (46_mixer_events.md R443). -/

namespace Sys2Proof.Machine

/-- What `DRAIN` returns: the buffered events and the synthetic final event (R443). -/
def drainResult (s : State) : List Event := s.events ++ [⟨now s, s.lastAmp⟩]

/-- DRAIN (R443). The result is the driver's latch for `PUSH` (30_encoding.md R143). -/
def execDrain (s : State) : Result :=
  .next (observe (.drained (drainResult s)) (latchEvents (drainResult s) (s.withEvents [])))

end Sys2Proof.Machine
end

