-- ==== Sys2Proof/Machine/Noise.lean ====
section
/-! DEFINITION. The writes of the noise channel (44_noise.md R372, R373, R375; 40_bus.md R207 for `$400D`). -/

namespace Sys2Proof.Machine

/-- WR_NOI_CTRL (R372). -/
def execWrNoiCtrl (d : Byte) (s : State) : Result :=
  .next (apuWrite 0x400C#16 d (fun s => s.withNoise (noiseWriteCtrl s.noise d)) s)
/-- WR_NOI_UNUSED (R207): stored only. -/
def execWrNoiUnused (d : Byte) (s : State) : Result := .next (apuWrite 0x400D#16 d id s)
/-- WR_NOI_PERIOD (R373). -/
def execWrNoiPeriod (d : Byte) (s : State) : Result :=
  .next (apuWrite 0x400E#16 d (fun s => s.withNoise (noiseWritePeriod s.cfg s.noise d)) s)
/-- WR_NOI_LEN (R375). -/
def execWrNoiLen (d : Byte) (s : State) : Result :=
  .next (apuWrite 0x400F#16 d (fun s => s.withNoise (noiseWriteLen s.noise d)) s)

end Sys2Proof.Machine
end

