-- ==== Sys2Proof/Machine/Pulse.lean ====
section
/-! DEFINITION. The writes of the two pulse channels (42_pulse.md R284 to R287), pulse 1 at `$4000`, pulse 2 at `$4004`. -/

namespace Sys2Proof.Machine

/-- WR_P1_CTRL (R284). -/
def execWrP1Ctrl (d : Byte) (s : State) : Result :=
  .next (apuWrite 0x4000#16 d (fun s => s.withP1 (pulseWriteCtrl s.p1 d)) s)
/-- WR_P1_SWEEP (R285). -/
def execWrP1Sweep (d : Byte) (s : State) : Result :=
  .next (apuWrite 0x4001#16 d (fun s => s.withP1 (pulseWriteSweep s.cfg s.p1 d)) s)
/-- WR_P1_LO (R286). -/
def execWrP1Lo (d : Byte) (s : State) : Result :=
  .next (apuWrite 0x4002#16 d (fun s => s.withP1 (pulseWriteLo s.p1 d)) s)
/-- WR_P1_HI (R287). -/
def execWrP1Hi (d : Byte) (s : State) : Result :=
  .next (apuWrite 0x4003#16 d (fun s => s.withP1 (pulseWriteHi s.p1 d)) s)
/-- WR_P2_CTRL (R284). -/
def execWrP2Ctrl (d : Byte) (s : State) : Result :=
  .next (apuWrite 0x4004#16 d (fun s => s.withP2 (pulseWriteCtrl s.p2 d)) s)
/-- WR_P2_SWEEP (R285). -/
def execWrP2Sweep (d : Byte) (s : State) : Result :=
  .next (apuWrite 0x4005#16 d (fun s => s.withP2 (pulseWriteSweep s.cfg s.p2 d)) s)
/-- WR_P2_LO (R286). -/
def execWrP2Lo (d : Byte) (s : State) : Result :=
  .next (apuWrite 0x4006#16 d (fun s => s.withP2 (pulseWriteLo s.p2 d)) s)
/-- WR_P2_HI (R287). -/
def execWrP2Hi (d : Byte) (s : State) : Result :=
  .next (apuWrite 0x4007#16 d (fun s => s.withP2 (pulseWriteHi s.p2 d)) s)

end Sys2Proof.Machine
end

