-- ==== Sys2Proof/Machine/Resample.lean ====
section
/-! DEFINITION. The band-limited resampler: placing, PUSH, RENDER (47_resampler.md R483 to R490). -/

namespace Sys2Proof.Machine

/-- Where `Locate` puts an event (R483). -/
structure Place where
  /-- The exact sample position. -/
  t : Rat
  /-- The integer sample centre. -/
  c : Int
  /-- The quantized phase. -/
  q : Nat
  mirror : Bool
deriving DecidableEq, Repr

/-- `Locate(τ)` (R483). -/
def locate (cfg : Cfg) (time : Rat) : Place :=
  let t := time * (cfg.sampleRate : Rat)
  let c := (t + 1 / 2).floor
  let f := t - (c : Rat)
  let q := ((if f < 0 then -f else f) * (cfg.phaseCount : Rat) + 1 / 2).floor.toNat
  ⟨t, c, q, decide (f < 0) && decide (0 < q)⟩

/-- `Scatter(c, q, mirror, Δ)` (R484), before folding: sample indices may be negative. -/
def scatter (cfg : Cfg) (c : Int) (q : Nat) (mirror : Bool) (delta : Rat) : List (Int × Sample) :=
  (List.range (2 * cfg.radius).toNat).map fun (j : Nat) =>
    (if mirror then c + cfg.radius - (j : Int) else c - cfg.radius + (j : Int), kernelShare cfg q j delta)

/-- Folding (R485): an index below the horizon becomes the horizon. -/
def foldAt (h : Nat) (contribs : List (Int × Sample)) : List (Nat × Sample) :=
  contribs.map fun nw => (max nw.1.toNat h, nw.2)

/-- The contribution list of one event (R486): the hard step at `H` of a late event (R487), else its folded window. -/
def eventContribs (cfg : Cfg) (h : Nat) (pl : Place) (delta : Rat) : List (Nat × Sample) :=
  if pl.t ≤ (h : Rat) then [(h, Sample.ofRat delta)] else foldAt h (scatter cfg pl.c pl.q pl.mirror delta)

/-- One event of `PUSH` (R486): the baseline moves to its amplitude, a late event is counted, and a nonzero step is
queued. -/
def pushEvent (s : State) (e : Event) : State :=
  let pl := locate s.cfg e.time
  let delta := e.amp - s.rs.baseline
  let contribs := eventContribs s.cfg s.rs.h pl delta
  let s1 := if pl.t ≤ (s.rs.h : Rat) then raiseCondition .lateEvent s else s
  s1.withRs { s.rs with
    baseline := e.amp
    pend := if delta = 0 then s.rs.pend else s.rs.pend ++ [contribs] }

/-- PUSH (R486), of the list operand that travels beside the word and is used up by it (30_encoding.md R143). -/
def execPush (s : State) : Result := .next (setOperand .latched ((pushOperand s.host).foldl pushEvent s))

/-- The sum of the weights at sample `n` (R489). -/
def sumAt (n : Nat) (pend : List (List (Nat × Sample))) : Sample :=
  Sample.sum ((pend.flatten.filter (fun nw => nw.1 = n)).map Prod.snd)

/-- `Convolve(s, e, pend)` (R489): the summed weights of samples `start` to `stop - 1`. -/
def convolve (start stop : Nat) (pend : List (List (Nat × Sample))) : List Sample :=
  (List.range (stop - start)).map fun i => sumAt (start + i) pend

/-- The running sums of a list of deltas, from an accumulator (R488). -/
def runningSums : Sample → List Sample → List Sample
  | _, [] => []
  | a, d :: t => Sample.add a d :: runningSums (Sample.add a d) t

/-- `E = floor(S.cyc · SR / CLOCK_HZ) - r` (R488); the floor of the exact quotient, by integer division. -/
def renderEnd (s : State) : Int :=
  Int.fdiv ((s.cyc : Int) * s.cfg.sampleRate) s.cfg.clockHz - s.cfg.radius

/-- Eviction (R488, R490): a list is kept while some index of it is not yet final. -/
def evict (e : Nat) (pend : List (List (Nat × Sample))) : List (List (Nat × Sample)) :=
  pend.filter fun cl => cl.any fun nw => decide (e ≤ nw.1)

/-- What `RENDER` returns when `E > H` (R488). -/
def renderSamples (s : State) : List Sample :=
  runningSums s.rs.acc (convolve s.rs.h (renderEnd s).toNat s.rs.pend)

/-- The resampler after a `RENDER` with `E > H` (R488). -/
def renderAdvance (s : State) : Resampler :=
  { s.rs with
    acc := (renderSamples s).getLastD s.rs.acc
    h := (renderEnd s).toNat
    pend := evict (renderEnd s).toNat s.rs.pend }

/-- RENDER (R488). The result is the driver's latch for `SINKW` (30_encoding.md R143). -/
def execRender (s : State) : Result :=
  if renderEnd s ≤ (s.rs.h : Int) then .next (observe (.rendered []) (latchSamples [] s))
  else
    .next (observe (.rendered (renderSamples s)) (latchSamples (renderSamples s) (s.withRs (renderAdvance s))))

end Sys2Proof.Machine
end

