-- ==== Sys2Proof/Machine/Sink.lean ====
section
/-! DEFINITION. The buffered output sink: SINKW, DEVADV, STOP, and the sink agent's RETRY and UNDERRUN (48_sink.md). -/

namespace Sys2Proof.Machine

/-- The frame `(0, 0)`. -/
def silence : Frame := ⟨Sample.zero, Sample.zero⟩

/-- The frame in a slot of `buf`; a slot nothing was written to holds `(0, 0)` (R42). -/
def slotRead (buf : List (Nat × Frame)) (slot : Nat) : Frame := storeRead silence buf slot
/-- `buf` with a frame in a slot. -/
def slotWrite (buf : List (Nat × Frame)) (slot : Nat) (f : Frame) : List (Nat × Frame) := storeWrite silence buf slot f

/-- `max(0, W - P)` (R534). -/
def fullness (k : Sink) : Nat := k.w - k.p

/-- `HWM - (W - P)` (R531), at least 0 by R539 (DEDUCED, log entry 11). -/
def room (cfg : Cfg) (k : Sink) : Nat := (highWm cfg).toNat - fullness k

/-- The device has run past the data: `W` catches up (R531). -/
def catchUp (k : Sink) : Sink := if k.w < k.p then { k with w := k.p } else k

/-- The samples written as frames `(x, x)` from stream index `w` on (R531). -/
def putFrames (cap : Nat) (buf : List (Nat × Frame)) : Nat → List Sample → List (Nat × Frame)
  | _, [] => buf
  | w, x :: xs => putFrames cap (slotWrite buf (w % cap) ⟨x, x⟩) (w + 1) xs

/-- `n` samples of a request committed; a commit of at least one frame re-arms the watchdog in the same step (R531,
R533). -/
def commitFrames (cfg : Cfg) (n : Nat) (l : List Sample) (k : Sink) : Sink :=
  let k' := { k with buf := putFrames (capacity cfg).toNat k.buf k.w (l.take n), w := k.w + n }
  if n = 0 then k' else { k' with wdArmed := true, wdDeadline := k.w + n + cfg.underrunGrace.toNat }

/-- `Commit()` over the queue (R531): the head commits what fits; when it completes the next one follows, else it stays
deferred. -/
def commitQueue (cfg : Cfg) : List Request → Sink → Sink
  | [], k => { k with queue := [] }
  | r :: rest, k =>
    let k1 := catchUp k
    let n := min (room cfg k1) r.rem.length
    let k2 := commitFrames cfg n r.rem k1
    if r.rem.length ≤ n then
      commitQueue cfg rest { k2 with completed := k2.completed ++ [⟨r.id, .completed (r.done + n)⟩] }
    else { k2 with queue := { r with rem := r.rem.drop n, done := r.done + n } :: rest }

/-- `Commit()` (R531). -/
def commit (cfg : Cfg) (k : Sink) : Sink := commitQueue cfg k.queue k

/-- A new request at the tail of the queue (R530). -/
def enqueue (l : List Sample) (k : Sink) : Sink :=
  { k with nextId := k.nextId + 1, queue := k.queue ++ [⟨k.nextId, l.length, l, 0⟩] }

/-- SINKW (R530), of the list operand that travels beside the word and is used up by it (30_encoding.md R143). Only an
idle sink commits. -/
def execSinkw (s : State) : Result :=
  let k := enqueue (sinkOperand s.host) s.sink
  .next (observe (.sinkId s.sink.nextId)
    (setOperand .latched (s.withSink (if s.sink.queue.isEmpty then commit s.cfg k else k))))

/-- The frames the device reads (R536), also past `W` (20_memory.md R113). -/
def playedFrames (cfg : Cfg) (k : Sink) (n : Nat) : List Frame :=
  (List.range n).map fun i => slotRead k.buf ((k.p + i) % (capacity cfg).toNat)

/-- DEVADV (R536). -/
def execDevadv (k : BitVec 24) (s : State) : Result :=
  .next (observe (.played (playedFrames s.cfg s.sink k.toNat)) (s.withSink { s.sink with p := s.sink.p + k.toNat }))

/-- The sink after `STOP` (R535). -/
def stopSink (k : Sink) : Sink :=
  { k with
    completed := k.completed ++ k.queue.map (fun r => ⟨r.id, .aborted r.done⟩)
    queue := []
    buf := []
    w := k.p
    wdArmed := false }

/-- STOP (R535). -/
def execStop (s : State) : Result := .next (s.withSink (stopSink s.sink))

/-- When `RETRY` is enabled (R537). -/
def retryEnabled (s : State) : Bool :=
  !s.sink.queue.isEmpty && decide ((fullness s.sink : Int) ≤ lowWm s.cfg)

/-- `RETRY` (R537). -/
def retryStep (s : State) : State := s.withSink (commit s.cfg s.sink)

/-- When `UNDERRUN` is enabled (R538). -/
def underrunEnabled (s : State) : Bool := s.sink.wdArmed && decide (s.sink.wdDeadline ≤ s.sink.p)

/-- `UNDERRUN` (R538): the buffer is cleared, `W` moves to `P`, the watchdog is disarmed, the condition counted. -/
def underrunStep (s : State) : State :=
  raiseCondition .underrun (s.withSink { s.sink with buf := [], w := s.sink.p, wdArmed := false })

end Sys2Proof.Machine
end

