-- ==== Sys2Proof/Machine/Tick.lean ====
section
/-! DEFINITION. The master tick and the frame sequencer (45_frame_sequencer.md R400 to R404). -/

namespace Sys2Proof.Machine

/-- The four timer clocks, in the order of R400. -/
def timerClocks (s : State) : State :=
  (((s.withP1 (pulseTimerClock s.p1)).withP2 (pulseTimerClock s.p2)).withTri (triTimerClock s.tri)).withNoise
    (noiseTimerClock s.noise)

/-- The quarter-frame part of `FrameClock`: the envelopes and the linear counter (R403). -/
def quarterClocks (s : State) : State :=
  (((s.withP1 { s.p1 with env := envClock s.p1.env }).withP2 { s.p2 with env := envClock s.p2.env }).withNoise
    { s.noise with env := envClock s.noise.env }).withTri (linClock s.tri)

/-- A pulse record's half-frame clocks: the sweep unit, then the length counter (R403). -/
def pulseHalfClock (c : Pulse) : Pulse :=
  let c' := sweepClock c
  { c' with len := lenClock c'.len (pulseHalt c') }

/-- The half-frame part of `FrameClock`: the sweep units and the length counters (R403). -/
def halfClocks (s : State) : State :=
  (((s.withP1 (pulseHalfClock s.p1)).withP2 (pulseHalfClock s.p2)).withTri
    { s.tri with len := lenClock s.tri.len (triHalt s.tri) }).withNoise
    { s.noise with len := lenClock s.noise.len (noiseHalt s.noise) }

/-- The pending length loads, the last part of `FrameClock` (R403, 41_primitives.md R251). -/
def lengthLoads (s : State) : State :=
  (((s.withP1 { s.p1 with len := lenLoad s.cfg s.p1.len }).withP2 { s.p2 with len := lenLoad s.cfg s.p2.len }).withTri
    { s.tri with len := lenLoad s.cfg s.tri.len }).withNoise { s.noise with len := lenLoad s.cfg s.noise.len }

/-- `FrameClock(half)` (R403). -/
def frameClock (half : Bool) (s : State) : State :=
  if half then lengthLoads (halfClocks (quarterClocks s)) else lengthLoads (quarterClocks s)

/-- The timer part of a tick: on an even cycle count the timers are clocked (R401). -/
def timerStage (s : State) : State := if s.cyc % 2 = 0 then timerClocks s else s

/-- The frame part of a tick: the sequencer advances, a quarter-frame point clocks the frame, and the counter wraps
(R400, R402, R404). -/
def frameStage (s : State) : State :=
  let s1 := s.withFs (s.fs + 1)
  let s2 := if s1.cfg.frameSteps.contains s1.fs then frameClock (s1.cfg.halfSteps.contains s1.fs) s1 else s1
  if s2.fs = s2.cfg.framePeriod then s2.withFs 0 else s2

/-- TICK (R400). -/
def execTick (s : State) : Result := .next (update (frameStage (timerStage (s.withCyc (s.cyc + 1)))))

end Sys2Proof.Machine
end

