-- ==== Sys2Proof/Machine/Triangle.lean ====
section
/-! DEFINITION. The writes of the triangle channel (43_triangle.md R332 to R334; 40_bus.md R207 for `$4009`). -/

namespace Sys2Proof.Machine

/-- WR_TRI_LINEAR (R332). -/
def execWrTriLinear (d : Byte) (s : State) : Result :=
  .next (apuWrite 0x4008#16 d (fun s => s.withTri (triWriteLinear s.tri d)) s)
/-- WR_TRI_UNUSED (R207): stored only. -/
def execWrTriUnused (d : Byte) (s : State) : Result := .next (apuWrite 0x4009#16 d id s)
/-- WR_TRI_LO (R333). -/
def execWrTriLo (d : Byte) (s : State) : Result :=
  .next (apuWrite 0x400A#16 d (fun s => s.withTri (triWriteLo s.tri d)) s)
/-- WR_TRI_HI (R334). -/
def execWrTriHi (d : Byte) (s : State) : Result :=
  .next (apuWrite 0x400B#16 d (fun s => s.withTri (triWriteHi s.tri d)) s)

end Sys2Proof.Machine
end

