-- ==== Sys2Proof/Machine/Dispatch.lean ====
section
/-! DEFINITION. The dispatch of a command to its meaning, one arm a constructor. -/

namespace Sys2Proof.Machine

def exec (i : Instr) (s : State) : Host.Outcome State Fault Refusal :=
  match i with
  | .wrP1Ctrl d => Sys2Proof.Machine.execWrP1Ctrl d s
  | .wrP1Sweep d => Sys2Proof.Machine.execWrP1Sweep d s
  | .wrP1Lo d => Sys2Proof.Machine.execWrP1Lo d s
  | .wrP1Hi d => Sys2Proof.Machine.execWrP1Hi d s
  | .wrP2Ctrl d => Sys2Proof.Machine.execWrP2Ctrl d s
  | .wrP2Sweep d => Sys2Proof.Machine.execWrP2Sweep d s
  | .wrP2Lo d => Sys2Proof.Machine.execWrP2Lo d s
  | .wrP2Hi d => Sys2Proof.Machine.execWrP2Hi d s
  | .wrTriLinear d => Sys2Proof.Machine.execWrTriLinear d s
  | .wrTriUnused d => Sys2Proof.Machine.execWrTriUnused d s
  | .wrTriLo d => Sys2Proof.Machine.execWrTriLo d s
  | .wrTriHi d => Sys2Proof.Machine.execWrTriHi d s
  | .wrNoiCtrl d => Sys2Proof.Machine.execWrNoiCtrl d s
  | .wrNoiUnused d => Sys2Proof.Machine.execWrNoiUnused d s
  | .wrNoiPeriod d => Sys2Proof.Machine.execWrNoiPeriod d s
  | .wrNoiLen d => Sys2Proof.Machine.execWrNoiLen d s
  | .wrDmc0 d => Sys2Proof.Machine.execWrDmc0 d s
  | .wrDmc1 d => Sys2Proof.Machine.execWrDmc1 d s
  | .wrDmc2 d => Sys2Proof.Machine.execWrDmc2 d s
  | .wrDmc3 d => Sys2Proof.Machine.execWrDmc3 d s
  | .wrStatus d => Sys2Proof.Machine.execWrStatus d s
  | .wrFrame d => Sys2Proof.Machine.execWrFrame d s
  | .wrNonapu a d => Sys2Proof.Machine.execWrNonapu a d s
  | .rd a => Sys2Proof.Machine.execRd a s
  | .tick => Sys2Proof.Machine.execTick s
  | .drain => Sys2Proof.Machine.execDrain s
  | .push => Sys2Proof.Machine.execPush s
  | .render => Sys2Proof.Machine.execRender s
  | .sinkw => Sys2Proof.Machine.execSinkw s
  | .devadv k => Sys2Proof.Machine.execDevadv k s
  | .stop => Sys2Proof.Machine.execStop s

end Sys2Proof.Machine
end

