-- ==== Sys2Proof/WellFormed.lean ====
section
/-! DEFINITION. Which commands a command word can stand for (30_encoding.md R145, R147): `WR_NONAPU` only for an
address outside `APU_ADDRS`, `RD` only for one inside; every other operand fits its field by its type. -/

namespace Sys2Proof

/-- A command some word encodes. -/
def Instr.wf : Instr → Bool
  | .wrNonapu a _ => !Machine.isApuAddr a
  | .rd a => Machine.isApuAddr a
  | _ => true

end Sys2Proof
end

