-- ==== Sys2Proof/Decode.lean ====
section
/-! DEFINITION. The decoder and the encoder of the command word (30_encoding.md R140 to R147). The decoder is total:
every word is a command or is refused by name (R145). -/

namespace Sys2Proof

/-- Why a word is refused. All four are the condition `ReservedCommand` (R145, 60_exceptions.md R605). -/
inductive DecodeError where
  /-- `CLASS` is in 0x9 to 0xF. -/
  | reservedClass
  /-- `RSV` is not 0. -/
  | reservedBits
  /-- An `ARG` field that R142 requires to be 0 is not 0. -/
  | argNotZero
  /-- `RD` with an address outside `APU_ADDRS`. -/
  | rdNonApu
deriving DecidableEq, Repr

/-- `CLASS`, bits 31:28 (R140). -/
def classOf (w : Word) : BitVec 4 := w.extractLsb' 28 4
/-- `RSV`, bits 27:24 (R140). -/
def rsvOf (w : Word) : BitVec 4 := w.extractLsb' 24 4
/-- `ARG`, bits 23:0 (R140). -/
def argOf (w : Word) : BitVec 24 := w.extractLsb' 0 24
/-- `ADDR`, bits 23:8 (R142). -/
def addrOf (w : Word) : Addr := w.extractLsb' 8 16
/-- `DATA`, bits 7:0 (R142). -/
def dataOf (w : Word) : Byte := w.extractLsb' 0 8

/-- The `WR` rows of the opcode map, one an address, the catch-all last (R147). -/
def decodeWr (a : Addr) (d : Byte) : Instr :=
  if a = 0x4000#16 then .wrP1Ctrl d
  else if a = 0x4001#16 then .wrP1Sweep d
  else if a = 0x4002#16 then .wrP1Lo d
  else if a = 0x4003#16 then .wrP1Hi d
  else if a = 0x4004#16 then .wrP2Ctrl d
  else if a = 0x4005#16 then .wrP2Sweep d
  else if a = 0x4006#16 then .wrP2Lo d
  else if a = 0x4007#16 then .wrP2Hi d
  else if a = 0x4008#16 then .wrTriLinear d
  else if a = 0x4009#16 then .wrTriUnused d
  else if a = 0x400A#16 then .wrTriLo d
  else if a = 0x400B#16 then .wrTriHi d
  else if a = 0x400C#16 then .wrNoiCtrl d
  else if a = 0x400D#16 then .wrNoiUnused d
  else if a = 0x400E#16 then .wrNoiPeriod d
  else if a = 0x400F#16 then .wrNoiLen d
  else if a = 0x4010#16 then .wrDmc0 d
  else if a = 0x4011#16 then .wrDmc1 d
  else if a = 0x4012#16 then .wrDmc2 d
  else if a = 0x4013#16 then .wrDmc3 d
  else if a = 0x4015#16 then .wrStatus d
  else if a = 0x4017#16 then .wrFrame d
  else .wrNonapu a d

/-- `RD`: bits 7:0 must be 0 and the address must be in `APU_ADDRS` (R142, R145). -/
def decodeRd (w : Word) : Except DecodeError Instr :=
  if dataOf w ≠ 0#8 then .error .argNotZero
  else if Machine.isApuAddr (addrOf w) then .ok (.rd (addrOf w))
  else .error .rdNonApu

/-- A command whose whole `ARG` must be 0 (R142). -/
def decodeZero (w : Word) (i : Instr) : Except DecodeError Instr :=
  if argOf w = 0#24 then .ok i else .error .argNotZero

/-- The decoder: `RSV` first, then the class (R141, R145). -/
def decode (w : Word) : Except DecodeError Instr :=
  if rsvOf w ≠ 0#4 then .error .reservedBits
  else if classOf w = 0x0#4 then .ok (decodeWr (addrOf w) (dataOf w))
  else if classOf w = 0x1#4 then decodeRd w
  else if classOf w = 0x2#4 then decodeZero w .tick
  else if classOf w = 0x3#4 then decodeZero w .drain
  else if classOf w = 0x4#4 then decodeZero w .push
  else if classOf w = 0x5#4 then decodeZero w .render
  else if classOf w = 0x6#4 then decodeZero w .sinkw
  else if classOf w = 0x7#4 then .ok (.devadv (argOf w))
  else if classOf w = 0x8#4 then decodeZero w .stop
  else .error .reservedClass

/-- The decoder on a word numbered as `opcode_table.json` numbers it: a command is one 32-bit word (R140), taken whole (log entry 14);
bits above `nbits` are 0, and no command is longer than 32 bits. -/
def decodeTableWord (nbits w : Nat) : Option Instr :=
  if 32 < nbits then none
  else match decode (BitVec.ofNat 32 (w % 2 ^ nbits)) with
    | .ok i => some i
    | .error _ => none

/-- The word of `WR` (R140, R142): class 0, `RSV` 0, the address, the data. -/
def encodeWr (a : Addr) (d : Byte) : Word := 0x00#8 ++ a ++ d

/-- The word of a command (R140 to R142, R147). -/
def encode : Instr → Word
  | .wrP1Ctrl d => encodeWr 0x4000#16 d
  | .wrP1Sweep d => encodeWr 0x4001#16 d
  | .wrP1Lo d => encodeWr 0x4002#16 d
  | .wrP1Hi d => encodeWr 0x4003#16 d
  | .wrP2Ctrl d => encodeWr 0x4004#16 d
  | .wrP2Sweep d => encodeWr 0x4005#16 d
  | .wrP2Lo d => encodeWr 0x4006#16 d
  | .wrP2Hi d => encodeWr 0x4007#16 d
  | .wrTriLinear d => encodeWr 0x4008#16 d
  | .wrTriUnused d => encodeWr 0x4009#16 d
  | .wrTriLo d => encodeWr 0x400A#16 d
  | .wrTriHi d => encodeWr 0x400B#16 d
  | .wrNoiCtrl d => encodeWr 0x400C#16 d
  | .wrNoiUnused d => encodeWr 0x400D#16 d
  | .wrNoiPeriod d => encodeWr 0x400E#16 d
  | .wrNoiLen d => encodeWr 0x400F#16 d
  | .wrDmc0 d => encodeWr 0x4010#16 d
  | .wrDmc1 d => encodeWr 0x4011#16 d
  | .wrDmc2 d => encodeWr 0x4012#16 d
  | .wrDmc3 d => encodeWr 0x4013#16 d
  | .wrStatus d => encodeWr 0x4015#16 d
  | .wrFrame d => encodeWr 0x4017#16 d
  | .wrNonapu a d => encodeWr a d
  | .rd a => 0x10#8 ++ a ++ 0x00#8
  | .tick => 0x20000000#32
  | .drain => 0x30000000#32
  | .push => 0x40000000#32
  | .render => 0x50000000#32
  | .sinkw => 0x60000000#32
  | .devadv k => 0x70#8 ++ k
  | .stop => 0x80000000#32

/-- One row of `opcode_table.json`: the row matches a word `w` when `w &&& mask = pattern`. -/
structure OpcodeRow where
  pattern : Word
  mask : Word
  mnemonic : String
deriving DecidableEq, Repr

/-- The opcode map, more specific rows first (R147). -/
def opcodeRows : List OpcodeRow :=
  [⟨0x00400000#32, 0xFFFFFF00#32, "WR_P1_CTRL"⟩, ⟨0x00400100#32, 0xFFFFFF00#32, "WR_P1_SWEEP"⟩,
   ⟨0x00400200#32, 0xFFFFFF00#32, "WR_P1_LO"⟩, ⟨0x00400300#32, 0xFFFFFF00#32, "WR_P1_HI"⟩,
   ⟨0x00400400#32, 0xFFFFFF00#32, "WR_P2_CTRL"⟩, ⟨0x00400500#32, 0xFFFFFF00#32, "WR_P2_SWEEP"⟩,
   ⟨0x00400600#32, 0xFFFFFF00#32, "WR_P2_LO"⟩, ⟨0x00400700#32, 0xFFFFFF00#32, "WR_P2_HI"⟩] ++
  [⟨0x00400800#32, 0xFFFFFF00#32, "WR_TRI_LINEAR"⟩, ⟨0x00400900#32, 0xFFFFFF00#32, "WR_TRI_UNUSED"⟩,
   ⟨0x00400A00#32, 0xFFFFFF00#32, "WR_TRI_LO"⟩, ⟨0x00400B00#32, 0xFFFFFF00#32, "WR_TRI_HI"⟩,
   ⟨0x00400C00#32, 0xFFFFFF00#32, "WR_NOI_CTRL"⟩, ⟨0x00400D00#32, 0xFFFFFF00#32, "WR_NOI_UNUSED"⟩,
   ⟨0x00400E00#32, 0xFFFFFF00#32, "WR_NOI_PERIOD"⟩, ⟨0x00400F00#32, 0xFFFFFF00#32, "WR_NOI_LEN"⟩] ++
  [⟨0x00401000#32, 0xFFFFFF00#32, "WR_DMC_0"⟩, ⟨0x00401100#32, 0xFFFFFF00#32, "WR_DMC_1"⟩,
   ⟨0x00401200#32, 0xFFFFFF00#32, "WR_DMC_2"⟩, ⟨0x00401300#32, 0xFFFFFF00#32, "WR_DMC_3"⟩,
   ⟨0x00401500#32, 0xFFFFFF00#32, "WR_STATUS"⟩, ⟨0x00401700#32, 0xFFFFFF00#32, "WR_FRAME"⟩] ++
  [⟨0x20000000#32, 0xFFFFFFFF#32, "TICK"⟩, ⟨0x30000000#32, 0xFFFFFFFF#32, "DRAIN"⟩,
   ⟨0x40000000#32, 0xFFFFFFFF#32, "PUSH"⟩, ⟨0x50000000#32, 0xFFFFFFFF#32, "RENDER"⟩,
   ⟨0x60000000#32, 0xFFFFFFFF#32, "SINKW"⟩, ⟨0x80000000#32, 0xFFFFFFFF#32, "STOP"⟩,
   ⟨0x10000000#32, 0xFF0000FF#32, "RD"⟩, ⟨0x00000000#32, 0xFF000000#32, "WR_NONAPU"⟩,
   ⟨0x70000000#32, 0xFF000000#32, "DEVADV"⟩]

/-- The mnemonic of the first row a word matches (R147). -/
def rowMnemonic (w : Word) : Option String :=
  (opcodeRows.find? (fun r => w &&& r.mask == r.pattern)).map (fun r => r.mnemonic)

/-- A command's mnemonic in the opcode table. -/
def Instr.mnemonic : Instr → String
  | .wrP1Ctrl _ => "WR_P1_CTRL"
  | .wrP1Sweep _ => "WR_P1_SWEEP"
  | .wrP1Lo _ => "WR_P1_LO"
  | .wrP1Hi _ => "WR_P1_HI"
  | .wrP2Ctrl _ => "WR_P2_CTRL"
  | .wrP2Sweep _ => "WR_P2_SWEEP"
  | .wrP2Lo _ => "WR_P2_LO"
  | .wrP2Hi _ => "WR_P2_HI"
  | .wrTriLinear _ => "WR_TRI_LINEAR"
  | .wrTriUnused _ => "WR_TRI_UNUSED"
  | .wrTriLo _ => "WR_TRI_LO"
  | .wrTriHi _ => "WR_TRI_HI"
  | .wrNoiCtrl _ => "WR_NOI_CTRL"
  | .wrNoiUnused _ => "WR_NOI_UNUSED"
  | .wrNoiPeriod _ => "WR_NOI_PERIOD"
  | .wrNoiLen _ => "WR_NOI_LEN"
  | .wrDmc0 _ => "WR_DMC_0"
  | .wrDmc1 _ => "WR_DMC_1"
  | .wrDmc2 _ => "WR_DMC_2"
  | .wrDmc3 _ => "WR_DMC_3"
  | .wrStatus _ => "WR_STATUS"
  | .wrFrame _ => "WR_FRAME"
  | .wrNonapu _ _ => "WR_NONAPU"
  | .rd _ => "RD"
  | .tick => "TICK"
  | .drain => "DRAIN"
  | .push => "PUSH"
  | .render => "RENDER"
  | .sinkw => "SINKW"
  | .devadv _ => "DEVADV"
  | .stop => "STOP"

end Sys2Proof
end

