-- ==== Sys2Proof/Machine/Schedule.lean ====
section
/-! DEFINITION. How a turn of the schedule is taken (60_exceptions.md R612): the list operand beside a word, a refused
word, a step offered to the sink's agent, and an exhausted schedule. -/

namespace Sys2Proof.Machine

/-- The list operand a command takes (30_encoding.md R143): only `PUSH` carries a list of events and only `SINKW` a list of
samples. A list of the wrong kind, or beside another word, is ignored (DESIGN CHOICE, log entry 7). -/
def operandFor : Instr → Operand → Operand
  | .push, .events l => .events l
  | .sinkw, .samples l => .samples l
  | _, _ => .latched

/-- The first turn taken off the schedule. -/
def dropTurn (s : State) : State := s.withHost { s.host with turns := s.host.turns.tail }

/-- A refused word (R605): nothing changes but the sticky mark. -/
def refuseWord (s : State) : State := raiseCondition .reservedCommand s

/-- A turn offered to `RETRY`: taken when enabled, else it passes (48_sink.md R537; log entry 2). -/
def offerRetry (s : State) : State := if retryEnabled s then retryStep s else s

/-- A turn offered to `UNDERRUN`: taken when enabled, else it passes (48_sink.md R538; log entry 2). -/
def offerUnderrun (s : State) : State := if underrunEnabled s then underrunStep s else s

/-- One use of the free choice of Config. -/
def countChoice (s : State) : State := s.withHost { s.host with choices := s.host.choices + 1 }

/-- The schedule is exhausted (70_reset_and_hazards.md R711; DEDUCED, log entry 8): an enabled step of the sink's agent is taken; when both
are enabled their order is free (R607 item 5; log entry 6); when none is, nothing changes. -/
def idleStep (s : State) : State :=
  if underrunEnabled s && retryEnabled s then
    if Config.sinkAgentChoice s.host.choices then underrunStep (countChoice s) else retryStep (countChoice s)
  else if underrunEnabled s then underrunStep s
  else if retryEnabled s then retryStep s
  else s

end Sys2Proof.Machine
end

