-- ==== Sys2Proof/Machine/Step.lean ====
section
/-! DEFINITION. One step: the next turn of the schedule. -/

namespace Sys2Proof.Machine

/-- One step of the machine. -/
def step (s : State) : Host.Outcome State Fault Refusal :=
  match s.host.turns with
  | [] => .next (idleStep s)
  | .retry :: _ => .next (offerRetry (dropTurn s))
  | .underrun :: _ => .next (offerUnderrun (dropTurn s))
  | .command w op :: _ =>
    match decode w with
    | .ok i => exec i (setOperand (operandFor i op) (dropTurn s))
    | .error _ => .next (refuseWord (dropTurn s))

/-- `s` with a turn in front of its schedule: what an agent of R15 takes next. -/
def State.withTurn (s : State) (t : Turn) : State := s.withHost { s.host with turns := t :: s.host.turns }

/-- `s` with a command word as its next turn, its list operand the driver's latch. -/
def State.withFetchWord (s : State) (nbits w : Nat) : State :=
  s.withTurn (.command (BitVec.ofNat 32 (w % 2 ^ nbits)) .latched)

end Sys2Proof.Machine
end

