-- ==== Sys2Proof/Machine/Assembler.lean ====
section
/-! DEFINITION. The assembler syntax and its pseudo-instructions (30_encoding.md R150, R151). It is outside the machine's
step: it makes the command words of a stream. -/

namespace Sys2Proof.Machine

/-- The channels `NOTE` takes (R151). -/
inductive NoteChannel where
  | p1
  | p2
  | tri
deriving DecidableEq, Repr

/-- One line of the assembler syntax (R150, R151). -/
inductive AsmLine where
  | wr (a : Addr) (d : Byte)
  | rd (a : Addr)
  | tick
  | drain
  | push
  | render
  | sinkw
  | devadv (k : BitVec 24)
  | stop
  | ticks (n : Nat)
  | pump
  | note (ch : NoteChannel) (p : BitVec 11) (l : BitVec 5)
deriving DecidableEq, Repr

/-- The base address of a channel `NOTE` takes (R151). -/
def noteBase : NoteChannel → Addr
  | .p1 => 0x4000#16
  | .p2 => 0x4004#16
  | .tri => 0x4008#16

/-- The command words of one line (R150, R151). -/
def assemble : AsmLine → List Word
  | .wr a d => [encodeWr a d]
  | .rd a => [0x10#8 ++ a ++ 0x00#8]
  | .tick => [0x20000000#32]
  | .drain => [0x30000000#32]
  | .push => [0x40000000#32]
  | .render => [0x50000000#32]
  | .sinkw => [0x60000000#32]
  | .devadv k => [0x70#8 ++ k]
  | .stop => [0x80000000#32]
  | .ticks n => List.replicate n 0x20000000#32
  | .pump => [0x30000000#32, 0x40000000#32, 0x50000000#32, 0x60000000#32]
  | .note ch p l =>
    [encodeWr (noteBase ch + 2#16) (p.extractLsb' 0 8), encodeWr (noteBase ch + 3#16) (l ++ p.extractLsb' 8 3)]

/-- The value of a digit, decimal or hexadecimal. -/
def digitValue (c : Char) : Option Nat :=
  if '0' ≤ c ∧ c ≤ '9' then some (c.toNat - '0'.toNat)
  else if 'a' ≤ c ∧ c ≤ 'f' then some (c.toNat - 'a'.toNat + 10)
  else if 'A' ≤ c ∧ c ≤ 'F' then some (c.toNat - 'A'.toNat + 10)
  else none

/-- Digits in a base, after a value already read. -/
def readDigits (base : Nat) : Nat → List Char → Option Nat
  | n, [] => some n
  | n, c :: t =>
    match digitValue c with
    | some v => if v < base then readDigits base (n * base + v) t else none
    | none => none

/-- A number: `$hex`, `0xhex` or decimal (R150). -/
def readNumber : List Char → Option Nat
  | '$' :: c :: t => readDigits 16 0 (c :: t)
  | '0' :: 'x' :: c :: t => readDigits 16 0 (c :: t)
  | c :: t => if c = '$' then none else readDigits 10 0 (c :: t)
  | [] => none

/-- An immediate: `#` and a number (R150). -/
def readImmediate : List Char → Option Nat
  | '#' :: t => readNumber t
  | _ => none

/-- A number that must lie below `2 ^ w`, as a bit vector. -/
def fitBits (w : Nat) (n : Option Nat) : Option (BitVec w) :=
  match n with
  | some n => if n < 2 ^ w then some (BitVec.ofNat w n) else none
  | none => none

/-- A line without its comment, which `;` starts (R150). -/
def dropComment (l : List Char) : List Char := l.takeWhile (fun c => c ≠ ';')

/-- The line's tokens: blanks and commas separate them. -/
def tokens : List Char → List (List Char)
  | [] => []
  | c :: t =>
    if c = ' ' ∨ c = '\t' ∨ c = ',' then [] :: tokens t
    else match tokens t with
      | [] => [[c]]
      | w :: ws => (c :: w) :: ws

/-- The nonempty tokens of a line. -/
def lineTokens (l : List Char) : List (List Char) := (tokens (dropComment l)).filter (fun w => !w.isEmpty)

/-- The channel of a `NOTE` line. -/
def readChannel : List Char → Option NoteChannel
  | ['P', '1'] => some .p1
  | ['P', '2'] => some .p2
  | ['T', 'R', 'I'] => some .tri
  | _ => none

/-- A line's mnemonic with its operands, each already a token (R150, R151). -/
def parseTokens : List (List Char) → Option AsmLine
  | [['W', 'R'], a, d] => do return .wr (← fitBits 16 (readNumber a)) (← fitBits 8 (readImmediate d))
  | [['R', 'D'], a] => do return .rd (← fitBits 16 (readNumber a))
  | [['T', 'I', 'C', 'K']] => some .tick
  | [['D', 'R', 'A', 'I', 'N']] => some .drain
  | [['P', 'U', 'S', 'H']] => some .push
  | [['R', 'E', 'N', 'D', 'E', 'R']] => some .render
  | [['S', 'I', 'N', 'K', 'W']] => some .sinkw
  | [['D', 'E', 'V', 'A', 'D', 'V'], k] => do return .devadv (← fitBits 24 (readImmediate k))
  | [['S', 'T', 'O', 'P']] => some .stop
  | [['T', 'I', 'C', 'K', 'S'], n] => do return .ticks (← readNumber n)
  | [['P', 'U', 'M', 'P']] => some .pump
  | [['N', 'O', 'T', 'E'], ch, p, l] => do
    return .note (← readChannel ch) (← fitBits 11 (readImmediate p)) (← fitBits 5 (readImmediate l))
  | _ => none

/-- The command words of one text line; a blank line or a comment has none; `none` is a syntax error. -/
def assembleText (l : List Char) : Option (List Word) :=
  if (lineTokens l).isEmpty then some [] else (parseTokens (lineTokens l)).map assemble

end Sys2Proof.Machine
end

