-- ==== Sys2Proof/Machine/Construct.lean ====
section
/-! DEFINITION. Power-on construction, the only reset (70_reset_and_hazards.md R700). -/

namespace Sys2Proof.Machine

/-- `Construct(Cfg)` (R700): the first failing check of R600 refuses the construction, and then no machine exists;
otherwise the block starts in the reset state of R45. -/
def construct (c : Cfg) : Except Condition State :=
  match checkCfg c with
  | some k => .error k
  | none => .ok (State.ofCfg c)

end Sys2Proof.Machine
end

