-- ==== Sys2Proof/Machine/Kernel.lean ====
section
/-! DEFINITION. The step kernel over the reals (47_resampler.md R481): what the formal terms of a `Sample` stand for.
The machine's step never evaluates these reals; it carries them as formal terms. -/

namespace Sys2Proof.Machine

/-- The Lanczos kernel `L` with window parameter `r` (R481 step 1). -/
noncomputable def lanczos (r : Nat) (x : ℝ) : ℝ :=
  if |x| < (r : ℝ) then Real.sinc (Real.pi * x) * Real.sinc (Real.pi * (x / r)) else 0

/-- Its antiderivative `F` (R481 step 2). -/
noncomputable def lanczosIntegral (r : Nat) (x : ℝ) : ℝ := ∫ u in (0 : ℝ)..x, lanczos r u

/-- `v_i = F(i - r - 1/2 - p/Pc)` (R481 step 3). -/
noncomputable def kernelPoint (r pc p i : Nat) : ℝ :=
  lanczosIntegral r ((i : ℝ) - r - 1 / 2 - (p : ℝ) / pc)

/-- `K[p][j] = (v_{j+1} - v_j) / (v_{2r} - v_0)` (R481 step 3). -/
noncomputable def kernelEntry (r pc p j : Nat) : ℝ :=
  (kernelPoint r pc p (j + 1) - kernelPoint r pc p j) / (kernelPoint r pc p (2 * r) - kernelPoint r pc p 0)

/-- `G(p, i) = (v_i - v_0) / (v_{2r} - v_0)`, the running sum of row `p`. -/
noncomputable def kernelStep (r pc p i : Nat) : ℝ :=
  (kernelPoint r pc p i - kernelPoint r pc p 0) / (kernelPoint r pc p (2 * r) - kernelPoint r pc p 0)

/-- What each key of a `Sample` stands for under a configuration, with the reals the driver gave: 0 is the number 1,
`2 · (p · 2r + i)` is `G(p, i)`, `2n + 1` is the `n`-th given real. -/
noncomputable def kernelValuation (c : Cfg) (given : Nat → ℝ) (key : Nat) : ℝ :=
  if key = 0 then 1
  else if key % 2 = 1 then given (key / 2)
  else kernelStep c.radius.toNat c.phaseCount.toNat (key / 2 / (2 * c.radius.toNat)) (key / 2 % (2 * c.radius.toNat))

/-- The real number a sample stands for, with the reals the driver gave. -/
noncomputable def Sample.real (c : Cfg) (given : Nat → ℝ) (x : Sample) : ℝ := x.value (kernelValuation c given)

end Sys2Proof.Machine
end

