-- ==== Sys2Proof/Safety.lean ====
section
/-! DEFINITION. What claims about the machine are stated in: frames, the invariants the spec derives, the
end of a run, endless runs and fairness, and per-channel views of a tick. -/

namespace Sys2Proof.Machine

/-- What a `WR` to an APU address does beside its register's own effect (40_bus.md R200): exactly the byte at `a` becomes
`d`; `Update()` runs once at the end (46_mixer_events.md R441); nothing outside the channels changes. -/
structure WriteFrame (a : Addr) (d : Byte) (s t : State) : Prop where
  bytes : ∀ b : Addr, t.reg.read b = if b = a then d else s.reg.read b
  lastAmp : t.lastAmp = mixNow t
  events : t.events = if mixNow t = s.lastAmp then s.events else s.events ++ [⟨now s, mixNow t⟩]
  cfg : t.cfg = s.cfg
  cyc : t.cyc = s.cyc
  fs : t.fs = s.fs
  rs : t.rs = s.rs
  sink : t.sink = s.sink
  diag : t.diag = s.diag
  host : t.host = s.host

/-- The four channel records are unchanged. -/
structure SameChannels (s t : State) : Prop where
  p1 : t.p1 = s.p1
  p2 : t.p2 = s.p2
  tri : t.tri = s.tri
  noise : t.noise = s.noise

/-- The emulated audio state (configuration, cycle count, registers, channels, sequencer, event stream) is unchanged. -/
structure SameAudio (s t : State) : Prop extends SameChannels s t where
  cfg : t.cfg = s.cfg
  cyc : t.cyc = s.cyc
  reg : t.reg = s.reg
  fs : t.fs = s.fs
  events : t.events = s.events
  lastAmp : t.lastAmp = s.lastAmp

/-- The block's whole state `S` is unchanged; only the host's side may differ. -/
structure SameBlock (s t : State) : Prop extends SameAudio s t where
  rs : t.rs = s.rs
  sink : t.sink = s.sink
  diag : t.diag = s.diag

/-- The divider's counter after `k` clocks with period `p` and no write in between (41_primitives.md R240). -/
def dividerAfter {n : Nat} (p : BitVec n) : Nat → BitVec n → BitVec n
  | 0, c => c
  | k + 1, c => dividerAfter p k (dividerClock c p).1

/-- An envelope after `k` quarter frames with no write in between (R243). -/
def envAfter : Nat → Envelope → Envelope
  | 0, e => e
  | k + 1, e => envAfter k (envClock e)

/-- The LFSR after `k` steps in one mode (44_noise.md R374). -/
def lfsrAfter (short : Bool) : Nat → BitVec 15 → BitVec 15
  | 0, r => r
  | k + 1, r => lfsrAfter short k (lfsrStep short r)

/-- A pulse record after a TICK that makes the cycle count `cyc` and the sequencer `fs` (45_frame_sequencer.md R400,
R403): the timer on an even cycle; at a quarter-frame point the envelope, at a half-frame point also the sweep and the
length counter, and last the pending length load. -/
def tickPulse (c : Cfg) (cyc fs : Nat) (x : Pulse) : Pulse :=
  let x1 := if cyc % 2 = 0 then pulseTimerClock x else x
  if fs ∈ c.frameSteps then
    let x2 := { x1 with env := envClock x1.env }
    let x3 := if fs ∈ c.halfSteps then { sweepClock x2 with len := lenClock x2.len x2.env.loop } else x2
    { x3 with len := lenLoad c x3.len }
  else x1

/-- The triangle record after a TICK (R400, R403). -/
def tickTri (c : Cfg) (cyc fs : Nat) (x : Triangle) : Triangle :=
  let x1 := if cyc % 2 = 0 then triTimerClock x else x
  if fs ∈ c.frameSteps then
    let x2 := linClock x1
    let x3 := if fs ∈ c.halfSteps then { x2 with len := lenClock x2.len x2.control } else x2
    { x3 with len := lenLoad c x3.len }
  else x1

/-- The noise record after a TICK (R400, R403). -/
def tickNoise (c : Cfg) (cyc fs : Nat) (x : Noise) : Noise :=
  let x1 := if cyc % 2 = 0 then noiseTimerClock x else x
  if fs ∈ c.frameSteps then
    let x2 := { x1 with env := envClock x1.env }
    let x3 := if fs ∈ c.halfSteps then { x2 with len := lenClock x2.len x2.env.loop } else x2
    { x3 with len := lenLoad c x3.len }
  else x1

/-- One clock of a timer's divider from `d` to `d'` with period `p` (R240): at 0 it reloads and `fired` holds, else it falls
by 1 and `still` holds. -/
structure TimerClocked {n : Nat} (d p d' : BitVec n) (fired still : Prop) : Prop where
  reload : d = 0#n → d' = p ∧ fired
  count : d ≠ 0#n → d'.toNat + 1 = d.toNat ∧ still

/-- A length counter from `l` to `l'` over the quarter frame at `fs`, with its channel's halt flag (R250, R251, R403). -/
structure LengthAtFrame (c : Cfg) (fs : Nat) (halt : Bool) (l l' : Length) : Prop where
  enabled : l'.enabled = l.enabled
  index : l'.index = l.index
  cleared : l'.pending = false
  loaded : l.pending = true ∧ l.enabled = true → c.lengthTable[l.index.toNat]? = some l'.counter.toNat
  clocked : ¬(l.pending = true ∧ l.enabled = true) →
    l'.counter.toNat = if fs ∈ c.halfSteps ∧ halt = false then l.counter.toNat - 1 else l.counter.toNat

/-- The contribution lists `PUSH` appends for a batch, from a baseline (47_resampler.md R486): one an event whose step is
not 0. A late event's whole step falls on the horizon; another event's window is folded there (R485, R487). -/
def pushedLists (c : Cfg) (h : Nat) : Rat → List Event → List (List (Nat × Sample))
  | _, [] => []
  | b, e :: l =>
    let pl := locate c e.time
    let contribs :=
      if pl.t ≤ (h : Rat) then [(h, Sample.ofRat (e.amp - b))]
      else (scatter c pl.c pl.q pl.mirror (e.amp - b)).map fun nw => (max nw.1.toNat h, nw.2)
    (if e.amp - b = 0 then [] else [contribs]) ++ pushedLists c h e.amp l

/-- An event is late: its sample position is at or before the horizon (R487). -/
def isLate (c : Cfg) (h : Nat) (e : Event) : Bool := decide ((locate c e.time).t ≤ (h : Rat))

/-- A supplied kernel has rows that sum to 1; the table of R481 always does (R481). -/
def kernelSumsToOne (c : Cfg) : Prop :=
  match c.kernel with
  | none => True
  | some rows => ∀ row ∈ rows, row.sum = 1

/-- The summed value of the contributions still to be rendered: those at sample `h` or later. -/
def pendingValue (g : Nat → Rat) (h : Nat) (pend : List (List (Nat × Sample))) : Rat :=
  ((pend.flatten.filter (fun nw => h ≤ nw.1)).map (fun nw => nw.2.value g)).sum

/-- What the samples already returned sum to, and what is still pending, make up the baseline (R491), whatever the
kernel's entries are. -/
def ResamplerBalanced (s : State) : Prop :=
  ∀ g : Nat → Rat, g 0 = 1 → s.rs.acc.value g + pendingValue g s.rs.h s.rs.pend = s.rs.baseline

/-- `S.fs = S.cyc mod FRAME_PERIOD` (10_state.md R37). -/
def FrameTracksCycle (s : State) : Prop := s.fs = s.cyc % s.cfg.framePeriod

/-- The register file is canonical data, over APU addresses only (R31). -/
def RegistersCanonical (s : State) : Prop :=
  s.reg.wf = true ∧ ∀ kv ∈ s.reg, kv.1 < 2 ^ 16 ∧ isApuAddr (BitVec.ofNat 16 kv.1) = true

/-- The sink's buffer is canonical data, over its `C` slots only (R42). -/
def BufferCanonical (s : State) : Prop :=
  storeWf silence s.sink.buf = true ∧ ∀ kv ∈ s.sink.buf, (kv.1 : Int) < capacity s.cfg

/-- A disabled length counter is 0 (40_bus.md R206, 41_primitives.md R251). -/
def LengthGated (l : Length) : Prop := l.enabled = false → l.counter = 0#8

/-- The event stream's own guarantees (46_mixer_events.md R442 items 1 to 4): the last amplitude is the mixer's output;
times do not fall and none is in the future; adjacent amplitudes differ; the last event carries the last amplitude. -/
structure EventsOrdered (s : State) : Prop where
  current : s.lastAmp = mixNow s
  chain : s.events.IsChain (fun a b => a.time ≤ b.time ∧ a.amp ≠ b.amp)
  past : ∀ e ∈ s.events, e.time ≤ now s
  last : ∀ e, s.events.getLast? = some e → e.amp = s.lastAmp

/-- The sink's own guarantees (48_sink.md R537, R539): the fullness keeps to the high watermark; each request accounts for
its samples; a queue's head has samples left; ids are used once and are below the next id. -/
structure SinkSafe (c : Cfg) (k : Sink) : Prop where
  full : (fullness k : Int) ≤ highWm c
  counts : ∀ r ∈ k.queue, r.done + r.rem.length = r.len
  deferred : ∀ r rest, k.queue = r :: rest → r.rem ≠ []
  ids : (k.completed.map (fun x => x.id) ++ k.queue.map (fun r => r.id)).Nodup
  fresh : ∀ n ∈ k.completed.map (fun x => x.id) ++ k.queue.map (fun r => r.id), n < k.nextId

/-- A timer period is the one its two register bytes spell (30_encoding.md R144). -/
def PeriodFromBytes (m : Memory) (base : Addr) (period : BitVec 11) : Prop := period = periodOfBytes m base

/-- The invariant of the machine. -/
structure Invariant (s : State) : Prop where
  cfg : checkCfg s.cfg = none
  operand : s.host.operand = .latched
  frame : FrameTracksCycle s
  lfsr : s.noise.lfsr ≠ 0#15
  first : s.p1.first = true ∧ s.p2.first = false
  registers : RegistersCanonical s
  triPeriod : PeriodFromBytes s.reg 0x4008#16 s.tri.period
  buffer : BufferCanonical s
  gated : LengthGated s.p1.len ∧ LengthGated s.p2.len ∧ LengthGated s.tri.len ∧ LengthGated s.noise.len
  events : EventsOrdered s
  sink : SinkSafe s.cfg s.sink

/-- Ready to pump (70_reset_and_hazards.md R702): the current time and every buffered event lie past the horizon, and no
list is waiting beside a word. -/
structure PumpReady (s : State) : Prop where
  operand : s.host.operand = .latched
  time : (s.rs.h : Rat) < now s * (s.cfg.sampleRate : Rat)
  events : ∀ e ∈ s.events, (s.rs.h : Rat) < e.time * (s.cfg.sampleRate : Rat)

/-- The run has ended (70_reset_and_hazards.md R711). -/
def runEnded (s : State) : Bool :=
  s.host.turns.isEmpty && s.sink.queue.isEmpty && !retryEnabled s && !underrunEnabled s

/-- The turn is a command word that runs `i`. -/
def Turn.runs (t : Turn) (i : Instr) : Prop := ∃ w op, t = .command w op ∧ decode w = .ok i

/-- `σ` is an endless run in which the agents (00_scope.md R15) take the turns `turn 0`, `turn 1`, … one at a time. -/
def IsRun (turn : Nat → Turn) (σ : Nat → State) : Prop := ∀ n, step ((σ n).withTurn (turn n)) = .next (σ (n + 1))

/-- The device advances without end: `DEVADV` with `k ≥ 1` infinitely often (48_sink.md R540). -/
def DeviceAdvances (turn : Nat → Turn) : Prop :=
  ∀ n, ∃ (m : Nat) (k : BitVec 24), n ≤ m ∧ 0 < k.toNat ∧ (turn m).runs (.devadv k)

/-- The sink's internal agent is weakly fair (48_sink.md R540): a step of it that stays enabled is taken (R537). -/
structure SinkAgentFair (turn : Nat → Turn) (σ : Nat → State) : Prop where
  retry : ∀ n, (∀ m, n ≤ m → retryEnabled (σ m) = true) → ∃ m, n ≤ m ∧ turn m = .retry
  underrun : ∀ n, (∀ m, n ≤ m → underrunEnabled (σ m) = true) → ∃ m, n ≤ m ∧ turn m = .underrun

/-- No `STOP` is issued. -/
def NeverStopped (turn : Nat → Turn) : Prop := ∀ n, ¬(turn n).runs .stop

end Sys2Proof.Machine
end

