-- ==== Sys2Proof/Certificates/Slice0/Obligations.lean ====
section
/-! DEFINITION. The statements about the model, each from the numbered rules of spec/. -/

open Sys2Proof Sys2Proof.Machine

/-! ## Encoding -/

/-- Decoding the word of any well-formed command gives the command back (R140, R142, R147). -/
def Obligations.DecodeOfEncode : Prop :=
  ∀ i : Instr, i.wf = true → decode (encode i) = .ok i

/-- A word that decodes is the word of the command it decodes to, and that command is well-formed (R140, R145). -/
def Obligations.EncodeOfDecode : Prop :=
  ∀ (w : Word) (i : Instr), decode w = .ok i → encode i = w ∧ i.wf = true

/-- Words of the spec's own list (95_test_vectors.md section 7) decode to the commands named there. -/
def Obligations.SpecWordsDecode : Prop :=
  decode 0x00400098#32 = .ok (.wrP1Ctrl 0x98#8) ∧ decode 0x00400708#32 = .ok (.wrP2Hi 0x08#8)
    ∧ decode 0x00400E80#32 = .ok (.wrNoiPeriod 0x80#8) ∧ decode 0x0040150F#32 = .ok (.wrStatus 0x0F#8)
    ∧ decode 0x00401601#32 = .ok (.wrNonapu 0x4016#16 0x01#8) ∧ decode 0x10401500#32 = .ok (.rd 0x4015#16)
    ∧ decode 0x20000000#32 = .ok .tick ∧ decode 0x70123456#32 = .ok (.devadv 0x123456#24)
    ∧ decode 0x80000000#32 = .ok .stop

/-- The decoder refuses exactly the words R145 calls illegal. -/
def Obligations.DecoderRefusesIllegalWords : Prop :=
  ∀ w : Word,
    (∃ e, decode w = .error e) ↔
      0x9#4 ≤ classOf w ∨ rsvOf w ≠ 0#4
        ∨ (classOf w = 0x1#4 ∧ dataOf w ≠ 0#8)
        ∨ (classOf w = 0x1#4 ∧ isApuAddr (addrOf w) = false)
        ∨ ((classOf w = 0x2#4 ∨ classOf w = 0x3#4 ∨ classOf w = 0x4#4 ∨ classOf w = 0x5#4 ∨ classOf w = 0x6#4
            ∨ classOf w = 0x8#4) ∧ argOf w ≠ 0#24)

/-- A word that decodes has the mnemonic of the most specific opcode-table row it matches, and a word that matches no row
does not decode (R147). -/
def Obligations.DecoderFollowsOpcodeTable : Prop :=
  ∀ w : Word,
    (∀ i, decode w = .ok i → rowMnemonic w = some i.mnemonic) ∧ (rowMnemonic w = none → ∃ e, decode w = .error e)

/-! ## The step -/

/-- When the next turn is a command word that decodes, the step is that command's execution, on the state with the turn
taken off the schedule (R103, R143). The list operand is the one given beside the word where the command is PUSH with events
or SINKW with samples, else the driver's latch; that a list beside any other word is ignored is the model's choice, log
entry 7, as the schedule is, log entry 1. -/
def Obligations.StepRunsDecodedCommand : Prop :=
  ∀ (s : State) (w : Word) (op : Operand) (rest : List Turn) (i : Instr),
    s.host.turns = .command w op :: rest → decode w = .ok i →
      step s = exec i { s with host := { s.host with
          turns := rest
          operand :=
            match i, op with
            | .push, .events l => .events l
            | .sinkw, .samples l => .samples l
            | _, _ => .latched } }

/-- A refused word changes nothing but the sticky mark, and no step clears the mark (R605). -/
def Obligations.RefusedWordOnlySetsMark : Prop :=
  (∀ (s : State) (w : Word) (op : Operand) (rest : List Turn) (e : DecodeError),
      s.host.turns = .command w op :: rest → decode w = .error e →
        step s = .next { s with
          host := { s.host with turns := rest }
          diag := { s.diag with refused := true } })
    ∧ ∀ s t : State, step s = .next t → s.diag.refused = true → t.diag.refused = true

/-- Every step answers a next state: no step faults and none is refused (R601). -/
def Obligations.EveryStepAnswersNext : Prop :=
  ∀ s : State, ∃ t, step s = .next t

/-- A turn offered to the sink's agent takes its step when the step's enabling condition holds and passes otherwise
(R537, R538; that a disabled turn passes is the model's choice, log entry 2). -/
def Obligations.SinkAgentTurns : Prop :=
  ∀ (s : State) (rest : List Turn),
    (s.host.turns = .retry :: rest →
      let s0 := { s with host := { s.host with turns := rest } }
      step s = .next
        (if s.sink.queue ≠ [] ∧ ((s.sink.w - s.sink.p : Nat) : Int) ≤ lowWm s.cfg then
          { s0 with sink := commit s.cfg s.sink } else s0))
    ∧ (s.host.turns = .underrun :: rest →
      let s0 := { s with host := { s.host with turns := rest } }
      step s = .next
        (if s.sink.wdArmed = true ∧ s.sink.wdDeadline ≤ s.sink.p then
          { s0 with
            sink := { s.sink with buf := [], w := s.sink.p, wdArmed := false }
            diag := { s.diag with underrun := s.diag.underrun + 1 } }
          else s0))

/-- With the schedule exhausted: the run has ended exactly when the sink's queue is empty and no agent step is
enabled; when none is enabled, queue empty or not, the step changes nothing; if exactly one agent step is enabled it is taken
(log entry 8); if both are, one of the two is taken first, which one being free (R607, R711; log entry 6). -/
def Obligations.ExhaustedScheduleStep : Prop :=
  ∀ s : State, s.host.turns = [] →
    (runEnded s = true ↔ s.sink.queue = [] ∧ retryEnabled s = false ∧ underrunEnabled s = false)
    ∧ (runEnded s = true → step s = .next s)
    ∧ (retryEnabled s = false → underrunEnabled s = false → step s = .next s)
    ∧ (retryEnabled s = true → underrunEnabled s = false → step s = .next (retryStep s))
    ∧ (retryEnabled s = false → underrunEnabled s = true → step s = .next (underrunStep s))
    ∧ (retryEnabled s = true → underrunEnabled s = true →
        ∃ t, step s = .next t ∧ ((SameAudio s t ∧ t.rs = s.rs)
          ∧ ((t.sink = (retryStep s).sink ∧ t.diag = s.diag)
              ∨ (t.sink = (underrunStep s).sink ∧ t.diag = (underrunStep s).diag))))

/-! ## Register writes -/

/-- WR_P1_CTRL and WR_P2_CTRL (R284). -/
def Obligations.PulseControlWrite : Prop :=
  ∀ (s : State) (d : Byte),
    (∃ t, exec (.wrP1Ctrl d) s = .next t ∧ WriteFrame 0x4000#16 d s t
      ∧ t.p1 = { s.p1 with
          duty := d.extractLsb' 6 2
          env := { s.p1.env with loop := d.getLsbD 5, isConst := d.getLsbD 4, vol := d.extractLsb' 0 4 } }
      ∧ t.p2 = s.p2 ∧ t.tri = s.tri ∧ t.noise = s.noise)
    ∧ ∃ t, exec (.wrP2Ctrl d) s = .next t ∧ WriteFrame 0x4004#16 d s t
      ∧ t.p2 = { s.p2 with
          duty := d.extractLsb' 6 2
          env := { s.p2.env with loop := d.getLsbD 5, isConst := d.getLsbD 4, vol := d.extractLsb' 0 4 } }
      ∧ t.p1 = s.p1 ∧ t.tri = s.tri ∧ t.noise = s.noise

/-- WR_P1_SWEEP and WR_P2_SWEEP (R285): `silenced` is cleared only under the parameter. -/
def Obligations.PulseSweepWrite : Prop :=
  ∀ (s : State) (d : Byte),
    (∃ t, exec (.wrP1Sweep d) s = .next t ∧ WriteFrame 0x4001#16 d s t
      ∧ t.p1 = { s.p1 with
          sw := { s.p1.sw with
            en := d.getLsbD 7, per := d.extractLsb' 4 3, neg := d.getLsbD 3, shift := d.extractLsb' 0 3, reload := true }
          silenced := if s.cfg.sweepReloadClearsSilenced then false else s.p1.silenced }
      ∧ t.p2 = s.p2 ∧ t.tri = s.tri ∧ t.noise = s.noise)
    ∧ ∃ t, exec (.wrP2Sweep d) s = .next t ∧ WriteFrame 0x4005#16 d s t
      ∧ t.p2 = { s.p2 with
          sw := { s.p2.sw with
            en := d.getLsbD 7, per := d.extractLsb' 4 3, neg := d.getLsbD 3, shift := d.extractLsb' 0 3, reload := true }
          silenced := if s.cfg.sweepReloadClearsSilenced then false else s.p2.silenced }
      ∧ t.p1 = s.p1 ∧ t.tri = s.tri ∧ t.noise = s.noise

/-- WR_P1_LO and WR_P2_LO (R286): the low period byte is replaced, the high bits stay, the latch is cleared. -/
def Obligations.PulseLowWrite : Prop :=
  ∀ (s : State) (d : Byte),
    (∃ t, exec (.wrP1Lo d) s = .next t ∧ WriteFrame 0x4002#16 d s t
      ∧ (∃ p : BitVec 11, p.toNat = s.p1.period.toNat / 256 * 256 + d.toNat
          ∧ t.p1 = { s.p1 with period := p, silenced := false })
      ∧ t.p2 = s.p2 ∧ t.tri = s.tri ∧ t.noise = s.noise)
    ∧ ∃ t, exec (.wrP2Lo d) s = .next t ∧ WriteFrame 0x4006#16 d s t
      ∧ (∃ p : BitVec 11, p.toNat = s.p2.period.toNat / 256 * 256 + d.toNat
          ∧ t.p2 = { s.p2 with period := p, silenced := false })
      ∧ t.p1 = s.p1 ∧ t.tri = s.tri ∧ t.noise = s.noise

/-- WR_P1_HI and WR_P2_HI (R287), with the length request of R249. -/
def Obligations.PulseHighWrite : Prop :=
  ∀ (s : State) (d : Byte),
    (∃ t, exec (.wrP1Hi d) s = .next t ∧ WriteFrame 0x4003#16 d s t
      ∧ (∃ p : BitVec 11, p.toNat = d.toNat % 8 * 256 + s.p1.period.toNat % 256
          ∧ t.p1 = { s.p1 with
              period := p
              len := if s.p1.env.loop then s.p1.len else { s.p1.len with pending := true, index := d.extractLsb' 3 5 }
              phase := 0#3
              env := { s.p1.env with start := true }
              silenced := false })
      ∧ t.p2 = s.p2 ∧ t.tri = s.tri ∧ t.noise = s.noise)
    ∧ ∃ t, exec (.wrP2Hi d) s = .next t ∧ WriteFrame 0x4007#16 d s t
      ∧ (∃ p : BitVec 11, p.toNat = d.toNat % 8 * 256 + s.p2.period.toNat % 256
          ∧ t.p2 = { s.p2 with
              period := p
              len := if s.p2.env.loop then s.p2.len else { s.p2.len with pending := true, index := d.extractLsb' 3 5 }
              phase := 0#3
              env := { s.p2.env with start := true }
              silenced := false })
      ∧ t.p1 = s.p1 ∧ t.tri = s.tri ∧ t.noise = s.noise

/-- WR_TRI_LINEAR (R332). -/
def Obligations.TriangleLinearWrite : Prop :=
  ∀ (s : State) (d : Byte),
    ∃ t, exec (.wrTriLinear d) s = .next t ∧ WriteFrame 0x4008#16 d s t
      ∧ t.tri = { s.tri with
          control := d.getLsbD 7
          lin := { s.tri.lin with value := d.extractLsb' 0 7, reload := true } }
      ∧ t.p1 = s.p1 ∧ t.p2 = s.p2 ∧ t.noise = s.noise

/-- WR_TRI_LO (R333) and WR_TRI_HI (R334): the period's bytes; the high byte also requests a length load, and resets
neither the phase nor the linear counter's flag. -/
def Obligations.TrianglePeriodWrites : Prop :=
  ∀ (s : State) (d : Byte),
    (∃ t, exec (.wrTriLo d) s = .next t ∧ WriteFrame 0x400A#16 d s t
      ∧ (∃ p : BitVec 11, p.toNat = s.tri.period.toNat / 256 * 256 + d.toNat ∧ t.tri = { s.tri with period := p })
      ∧ t.p1 = s.p1 ∧ t.p2 = s.p2 ∧ t.noise = s.noise)
    ∧ ∃ t, exec (.wrTriHi d) s = .next t ∧ WriteFrame 0x400B#16 d s t
      ∧ (∃ p : BitVec 11, p.toNat = d.toNat % 8 * 256 + s.tri.period.toNat % 256
          ∧ t.tri = { s.tri with
              period := p
              len := if s.tri.control then s.tri.len else { s.tri.len with pending := true, index := d.extractLsb' 3 5 } })
      ∧ t.p1 = s.p1 ∧ t.p2 = s.p2 ∧ t.noise = s.noise

/-- WR_NOI_CTRL (R372) and WR_NOI_LEN (R375). -/
def Obligations.NoiseControlAndLengthWrites : Prop :=
  ∀ (s : State) (d : Byte),
    (∃ t, exec (.wrNoiCtrl d) s = .next t ∧ WriteFrame 0x400C#16 d s t
      ∧ t.noise = { s.noise with
          env := { s.noise.env with loop := d.getLsbD 5, isConst := d.getLsbD 4, vol := d.extractLsb' 0 4 } }
      ∧ t.p1 = s.p1 ∧ t.p2 = s.p2 ∧ t.tri = s.tri)
    ∧ ∃ t, exec (.wrNoiLen d) s = .next t ∧ WriteFrame 0x400F#16 d s t
      ∧ t.noise = { s.noise with
          len := if s.noise.env.loop then s.noise.len
            else { s.noise.len with pending := true, index := d.extractLsb' 3 5 }
          env := { s.noise.env with start := true } }
      ∧ t.p1 = s.p1 ∧ t.p2 = s.p2 ∧ t.tri = s.tri

/-- WR_NOI_PERIOD (R373): the region's table gives the period; the divider and the LFSR are left alone. -/
def Obligations.NoisePeriodWrite : Prop :=
  ∀ (s : State) (d : Byte), checkCfg s.cfg = none →
    ∃ t, exec (.wrNoiPeriod d) s = .next t ∧ WriteFrame 0x400E#16 d s t
      ∧ (∃ p : BitVec 12,
          (match s.cfg.region with
            | .ntsc => s.cfg.noiseNtsc
            | .pal => s.cfg.noisePal)[d.toNat % 16]? = some p.toNat
          ∧ t.noise = { s.noise with short := d.getLsbD 7, rate := d.extractLsb' 0 4, period := p })
      ∧ t.p1 = s.p1 ∧ t.p2 = s.p2 ∧ t.tri = s.tri

/-- WR_STATUS (R206): each channel's enable bit; a clear bit zeroes the counter and cancels a pending load, and the
channel is silent in the same command; a set bit leaves counter and load alone. -/
def Obligations.StatusWrite : Prop :=
  ∀ (s : State) (d : Byte),
    ∃ t, exec (.wrStatus d) s = .next t ∧ WriteFrame 0x4015#16 d s t
      ∧ t.p1 = (if d.getLsbD 0 = true then { s.p1 with len := { s.p1.len with enabled := true } }
          else { s.p1 with len := { s.p1.len with enabled := false, counter := 0#8, pending := false } })
      ∧ t.p2 = (if d.getLsbD 1 = true then { s.p2 with len := { s.p2.len with enabled := true } }
          else { s.p2 with len := { s.p2.len with enabled := false, counter := 0#8, pending := false } })
      ∧ t.tri = (if d.getLsbD 2 = true then { s.tri with len := { s.tri.len with enabled := true } }
          else { s.tri with len := { s.tri.len with enabled := false, counter := 0#8, pending := false } })
      ∧ t.noise = (if d.getLsbD 3 = true then { s.noise with len := { s.noise.len with enabled := true } }
          else { s.noise with len := { s.noise.len with enabled := false, counter := 0#8, pending := false } })
      ∧ (d.getLsbD 0 = false → pulseAmp t.cfg t.p1 = 0) ∧ (d.getLsbD 1 = false → pulseAmp t.cfg t.p2 = 0)
      ∧ (d.getLsbD 2 = false → triAmp t.cfg t.tri = 0) ∧ (d.getLsbD 3 = false → noiseAmp t.noise = 0)
      ∧ (d.toNat % 16 = 0 → t.lastAmp = 0)

/-- WR_TRI_UNUSED, WR_NOI_UNUSED, WR_DMC_0 to WR_DMC_3 and WR_FRAME (R207): the byte is stored, no channel changes, and
where the last amplitude is the mixer's output no event is appended. -/
def Obligations.StoredOnlyWrites : Prop :=
  ∀ (s : State) (d : Byte) (a : Addr) (i : Instr),
    (a, i) ∈ [(0x4009#16, Instr.wrTriUnused d), (0x400D#16, Instr.wrNoiUnused d), (0x4010#16, Instr.wrDmc0 d),
        (0x4011#16, Instr.wrDmc1 d), (0x4012#16, Instr.wrDmc2 d), (0x4013#16, Instr.wrDmc3 d),
        (0x4017#16, Instr.wrFrame d)] →
      ∃ t, exec i s = .next t ∧ WriteFrame a d s t ∧ SameChannels s t
        ∧ (s.lastAmp = mixNow s → t.events = s.events)

/-- WR_NONAPU has no effect on the state at all: outside `APU_ADDRS` by R208, and inside, where no word decodes to it, by the
model's choice (log entry 10). -/
def Obligations.NonApuWriteHasNoEffect : Prop :=
  ∀ (s : State) (a : Addr) (d : Byte), exec (.wrNonapu a d) s = .next s

/-- RD (R209): the stored byte is returned, and the block's state is unchanged. -/
def Obligations.RegisterRead : Prop :=
  ∀ (s : State) (a : Addr), isApuAddr a = true →
    ∃ t, exec (.rd a) s = .next t ∧ SameBlock s t
      ∧ t.host = { s.host with trace := s.host.trace ++ [.readByte a (s.reg.read a)] }

/-- Every `WR` word does what the dispatch of R200 says of its address and data. -/
def Obligations.WriteDispatch : Prop :=
  ∀ (s : State) (a : Addr) (d : Byte), exec (decodeWr a d) s = .next (busWrite a d s)

/-- A read returns the byte of the latest write: after any `WR` to an APU address that address reads the data, every other
address reads as before (R103, R209, R707). -/
def Obligations.ReadReturnsLatestWrite : Prop :=
  ∀ (s : State) (a : Addr) (d : Byte), isApuAddr a = true →
    ∃ t, exec (decodeWr a d) s = .next t ∧ t.reg.read a = d ∧ ∀ b, b ≠ a → t.reg.read b = s.reg.read b

/-! ## Primitives and channels -/

/-- A divider of period `p` fires exactly once in every `p + 1` clocks, first when its counter is 0 (R240). -/
def Obligations.DividerPeriod : Prop :=
  ∀ (n : Nat) (p c : BitVec n) (k : Nat),
    (dividerClock (dividerAfter p k c) p).2 = true ↔ c.toNat ≤ k ∧ (k - c.toNat) % (p.toNat + 1) = 0

/-- One envelope clock (R243): a start request is served with decay 15 and a reloaded divider, and no decay; else the divider
counts down, and where it is at 0 it reloads from `vol` and the decay falls by 1, or at 0 wraps to 15 with the loop flag set
and stays with it clear; nothing else changes. So from a start request the envelope decays from 15 by 1 every `vol + 1`
quarter frames, then stays at 0 or wraps. -/
def Obligations.EnvelopeDecay : Prop :=
  (∀ e : Envelope,
      (envClock e).loop = e.loop ∧ (envClock e).isConst = e.isConst ∧ (envClock e).vol = e.vol
      ∧ (envClock e).start = false
      ∧ (e.start = true → (envClock e).decay = 15#4 ∧ (envClock e).div = e.vol)
      ∧ (e.start = false → e.div ≠ 0#4 →
          (envClock e).div.toNat + 1 = e.div.toNat ∧ (envClock e).decay = e.decay)
      ∧ (e.start = false → e.div = 0#4 →
          (envClock e).div = e.vol
          ∧ (e.decay ≠ 0#4 → (envClock e).decay.toNat + 1 = e.decay.toNat)
          ∧ (e.decay = 0#4 → (envClock e).decay = if e.loop = true then 15#4 else 0#4)))
    ∧ ∀ (e : Envelope) (k : Nat), e.start = true →
      (envAfter (k + 1) e).decay.toNat
        = 15 - (if e.loop = true then k / (e.vol.toNat + 1) % 16 else k / (e.vol.toNat + 1))

/-- The sweep target (R290): one's complement on pulse 1, two's complement on pulse 2, an unbounded integer. -/
def Obligations.SweepTargetFormula : Prop :=
  ∀ c : Pulse,
    sweepTarget c =
      if c.sw.neg = true then
        (c.period.toNat : Int) - (c.period.toNat / 2 ^ c.sw.shift.toNat : Nat) - (if c.first = true then 1 else 0)
      else (c.period.toNat : Int) + (c.period.toNat / 2 ^ c.sw.shift.toNat : Nat)

/-- One sweep clock (R292): the latch, the period (in range, so nothing is truncated), the divider and its flag; nothing
else changes. -/
def Obligations.SweepClock : Prop :=
  ∀ c : Pulse,
    let oor := 0x7FF < sweepTarget c ∨ sweepTarget c < 8
    let fire := c.sw.div = 0#3
    ∃ (p : BitVec 11) (dv : BitVec 3) (sil : Bool),
      sweepClock c = { c with
        period := p
        silenced := sil
        sw := { c.sw with div := dv, reload := false } }
      ∧ (sil = true ↔ c.silenced = true ∨ oor)
      ∧ ((fire ∧ c.sw.en = true ∧ c.sw.shift ≠ 0#3 ∧ ¬oor → (p.toNat : Int) = sweepTarget c)
        ∧ (¬(fire ∧ c.sw.en = true ∧ c.sw.shift ≠ 0#3 ∧ ¬oor) → p = c.period))
      ∧ ((fire ∨ c.sw.reload = true → dv = c.sw.per)
        ∧ (¬(fire ∨ c.sw.reload = true) → dv.toNat + 1 = c.sw.div.toNat))

/-- Negate at shift 0 silences both pulse channels at the next sweep clock and leaves the period, whatever it is (R291). -/
def Obligations.NegateAtShiftZeroSilences : Prop :=
  ∀ c : Pulse, c.sw.neg = true → c.sw.shift = 0#3 →
    sweepTarget c = (if c.first = true then -1 else 0) ∧ (sweepClock c).silenced = true
      ∧ (sweepClock c).period = c.period

/-- One LFSR step (R374): every bit moves down by one, bit 14 takes the feedback; a nonzero register stays nonzero; from 1,
short mode returns to 1 after exactly 93 steps. -/
def Obligations.LfsrStep : Prop :=
  (∀ (short : Bool) (r : BitVec 15),
      (∀ i, i < 14 → (lfsrStep short r).getLsbD i = r.getLsbD (i + 1))
      ∧ (lfsrStep short r).getLsbD 14 = Bool.xor (r.getLsbD 0) (if short = true then r.getLsbD 6 else r.getLsbD 1)
      ∧ (r ≠ 0#15 → lfsrStep short r ≠ 0#15))
    ∧ lfsrAfter true 93 1#15 = 1#15 ∧ ∀ k, 0 < k → k < 93 → lfsrAfter true k 1#15 ≠ 1#15

/-- The amplitudes (R293, R336, R377): a channel is silent under exactly the conditions named there, else a pulse or noise
channel has its envelope's volume and the triangle its waveform's value. -/
def Obligations.ChannelAmplitudes : Prop :=
  ∀ (c : Cfg) (x : Pulse) (y : Triangle) (z : Noise), checkCfg c = none →
    (∃ row bit, c.dutyTable[x.duty.toNat]? = some row ∧ row[x.phase.toNat]? = some bit
      ∧ pulseAmp c x =
          if x.len.counter = 0#8 ∨ x.period.toNat < 8 ∨ bit = 0 ∨ x.silenced = true then 0
          else if x.env.isConst = true then x.env.vol.toNat else x.env.decay.toNat)
    ∧ (∃ v, c.triTable[y.phase.toNat]? = some v
      ∧ triAmp c y = if y.len.counter = 0#8 ∨ y.lin.counter = 0#7 then 0 else v)
    ∧ (noiseAmp z =
        if z.len.counter = 0#8 ∨ z.lfsr.getLsbD 0 = true then 0
        else if z.env.isConst = true then z.env.vol.toNat else z.env.decay.toNat)
    ∧ pulseAmp c x ≤ 15 ∧ triAmp c y ≤ 15 ∧ noiseAmp z ≤ 15

/-! ## The master tick -/

/-- TICK (R400, R402, R403): the cycle count, the sequencer with its wrap, each channel's clocks, and one `Update()` at the
new time; everything else is unchanged. -/
def Obligations.TickCommand : Prop :=
  ∀ s : State,
    ∃ t, exec .tick s = .next t
      ∧ t.cyc = s.cyc + 1
      ∧ t.fs = (if s.fs + 1 = s.cfg.framePeriod then 0 else s.fs + 1)
      ∧ t.p1 = tickPulse s.cfg (s.cyc + 1) (s.fs + 1) s.p1
      ∧ t.p2 = tickPulse s.cfg (s.cyc + 1) (s.fs + 1) s.p2
      ∧ t.tri = tickTri s.cfg (s.cyc + 1) (s.fs + 1) s.tri
      ∧ t.noise = tickNoise s.cfg (s.cyc + 1) (s.fs + 1) s.noise
      ∧ t.lastAmp = mixNow t
      ∧ t.events = (if mixNow t = s.lastAmp then s.events
          else s.events ++ [⟨((s.cyc + 1 : Nat) : Rat) / (s.cfg.clockHz : Rat), mixNow t⟩])
      ∧ t.cfg = s.cfg ∧ t.reg = s.reg ∧ t.rs = s.rs ∧ t.sink = s.sink ∧ t.diag = s.diag ∧ t.host = s.host

/-- The timers (R288, R335, R376, R401): on a TICK to an even cycle count a divider at 0 reloads from the channel's period and
steps the waveform or the LFSR, another divider counts down; on a TICK to an odd cycle count no divider moves. -/
def Obligations.TimerClocks : Prop :=
  ∀ s : State,
    ∃ t, exec .tick s = .next t
      ∧ ((s.cyc + 1) % 2 = 0 →
          TimerClocked s.p1.tdiv s.p1.period t.p1.tdiv (t.p1.phase = s.p1.phase + 1#3) (t.p1.phase = s.p1.phase)
          ∧ TimerClocked s.p2.tdiv s.p2.period t.p2.tdiv (t.p2.phase = s.p2.phase + 1#3) (t.p2.phase = s.p2.phase)
          ∧ TimerClocked s.tri.tdiv s.tri.period t.tri.tdiv (t.tri.phase = s.tri.phase + 1#5)
              (t.tri.phase = s.tri.phase)
          ∧ TimerClocked s.noise.tdiv s.noise.period t.noise.tdiv (t.noise.lfsr = lfsrStep s.noise.short s.noise.lfsr)
              (t.noise.lfsr = s.noise.lfsr))
      ∧ ((s.cyc + 1) % 2 = 1 →
          t.p1.tdiv = s.p1.tdiv ∧ t.p1.phase = s.p1.phase ∧ t.p2.tdiv = s.p2.tdiv ∧ t.p2.phase = s.p2.phase
          ∧ t.tri.tdiv = s.tri.tdiv ∧ t.tri.phase = s.tri.phase
          ∧ t.noise.tdiv = s.noise.tdiv ∧ t.noise.lfsr = s.noise.lfsr)

/-- The length counters at a quarter frame (R250, R251, R403): on a half frame a running counter falls by 1 unless its
channel is halted; then a pending load of an enabled channel leaves exactly its table value, and no request stays
pending. -/
def Obligations.LengthCountersAtQuarterFrame : Prop :=
  ∀ s : State, checkCfg s.cfg = none → s.fs + 1 ∈ s.cfg.frameSteps →
    ∃ t, exec .tick s = .next t
      ∧ LengthAtFrame s.cfg (s.fs + 1) s.p1.env.loop s.p1.len t.p1.len
      ∧ LengthAtFrame s.cfg (s.fs + 1) s.p2.env.loop s.p2.len t.p2.len
      ∧ LengthAtFrame s.cfg (s.fs + 1) s.tri.control s.tri.len t.tri.len
      ∧ LengthAtFrame s.cfg (s.fs + 1) s.noise.env.loop s.noise.len t.noise.len

/-- The linear counter at a quarter frame (R337): with the reload flag set it takes its reload value and the flag takes the
control flag; with the flag clear it counts down to 0. -/
def Obligations.LinearCounterAtQuarterFrame : Prop :=
  ∀ s : State, s.fs + 1 ∈ s.cfg.frameSteps →
    ∃ t, exec .tick s = .next t ∧ t.tri.lin.value = s.tri.lin.value ∧ t.tri.control = s.tri.control
      ∧ (s.tri.lin.reload = true → t.tri.lin.counter = s.tri.lin.value ∧ t.tri.lin.reload = s.tri.control)
      ∧ (s.tri.lin.reload = false →
          t.tri.lin.counter.toNat = s.tri.lin.counter.toNat - 1 ∧ t.tri.lin.reload = false)

/-! ## The mixer and the event stream -/

/-- The mixer (R440, R442 item 5): 0 at silence; it depends on the pulse amplitudes only through their sum; it is strictly
increasing in each argument; under a configuration that passes construction its output lies between 0 and its exact
maximum. -/
def Obligations.MixerShapeAndRange : Prop :=
  mix 0 0 0 0 = 0
    ∧ (∀ p1 p2 t n : Nat,
      mix p1 p2 t n = mix (p1 + p2) 0 t n
        ∧ mix p1 p2 t n < mix (p1 + 1) p2 t n ∧ mix p1 p2 t n < mix p1 (p2 + 1) t n
        ∧ mix p1 p2 t n < mix p1 p2 (t + 1) n ∧ mix p1 p2 t n < mix p1 p2 t (n + 1))
    ∧ (∀ s : State, checkCfg s.cfg = none → 0 ≤ mixNow s ∧ mixNow s ≤ 2309773763793 / 3655790228740)
    ∧ mix 15 15 15 15 = 2309773763793 / 3655790228740

/-- DRAIN (R443): the buffered events and the synthetic final event are returned, the list is emptied, nothing else of the
block changes; a second DRAIN at once returns the one synthetic event, with the first's last amplitude (R444). -/
def Obligations.DrainCommand : Prop :=
  ∀ s : State,
    ∃ t, exec .drain s = .next t
      ∧ t.events = []
      ∧ t.host = { s.host with
          lastDrain := s.events ++ [⟨now s, s.lastAmp⟩]
          trace := s.host.trace ++ [.drained (s.events ++ [⟨now s, s.lastAmp⟩])] }
      ∧ SameChannels s t ∧ t.cfg = s.cfg ∧ t.cyc = s.cyc ∧ t.reg = s.reg ∧ t.fs = s.fs ∧ t.lastAmp = s.lastAmp
      ∧ t.rs = s.rs ∧ t.sink = s.sink ∧ t.diag = s.diag
      ∧ ∃ u, exec .drain t = .next u ∧ u.host.lastDrain = [⟨now s, s.lastAmp⟩]

/-! ## The resampler -/

/-- `Locate` (R483): the centre is nearest, the phase is nearest and lies in the table, the mirror is the sign of a nonzero
phase. -/
def Obligations.LocateEvent : Prop :=
  ∀ (c : Cfg) (time : Rat), checkCfg c = none →
    let pl := locate c time
    let f := pl.t - (pl.c : Rat)
    pl.t = time * (c.sampleRate : Rat)
      ∧ (-(1 / 2) ≤ f ∧ f < 1 / 2)
      ∧ (-(1 / 2) ≤ |f| * (c.phaseCount : Rat) - (pl.q : Rat) ∧ |f| * (c.phaseCount : Rat) - (pl.q : Rat) < 1 / 2)
      ∧ 2 * (pl.q : Int) ≤ c.phaseCount
      ∧ (pl.mirror = true ↔ f < 0 ∧ 0 < pl.q)

/-- The contributions of one event sum to exactly its step, late or not, folded or not, whatever the kernel's entries are
(R484, R485, R487). -/
def Obligations.ContributionsSumToStep : Prop :=
  ∀ (c : Cfg) (h : Nat) (time delta : Rat) (g : Nat → Rat), checkCfg c = none → kernelSumsToOne c → g 0 = 1 →
    ((eventContribs c h (locate c time) delta).map (fun nw => nw.2.value g)).sum = delta
      ∧ ∀ nw ∈ eventContribs c h (locate c time) delta, h ≤ nw.1

/-- PUSH (R486), of the list given beside its word, else of the latch: the baseline becomes the last event's amplitude, one
list is queued for each nonzero step, each late event is counted, the operand is used up; nothing else changes, the latches
included. -/
def Obligations.PushCommand : Prop :=
  ∀ s : State,
    let l := match s.host.operand with
      | .events l => l
      | _ => s.host.lastDrain
    ∃ t, exec .push s = .next t
      ∧ t.rs = { s.rs with
          baseline := (l.getLast?.map (fun e => e.amp)).getD s.rs.baseline
          pend := s.rs.pend ++ pushedLists s.cfg s.rs.h s.rs.baseline l }
      ∧ t.diag = { s.diag with late := s.diag.late + l.countP (isLate s.cfg s.rs.h) }
      ∧ SameAudio s t ∧ t.sink = s.sink ∧ t.host = { s.host with operand := .latched }

/-- RENDER (R488, R489): with `E = floor(cyc · SR / CLOCK_HZ) - r`, nothing is returned and nothing of the block changes
while `E ≤ H`; otherwise sample `i` of the result is the accumulator plus every weight at samples `H` to `i`, the
accumulator becomes the last sample, the horizon becomes `E`, and the lists wholly below `E` are evicted, the others kept in
order. -/
def Obligations.RenderCommand : Prop :=
  ∀ s : State,
    let e : Int := ((s.cyc : Rat) * (s.cfg.sampleRate : Rat) / (s.cfg.clockHz : Rat)).floor - s.cfg.radius
    ∃ t out, exec .render s = .next t
      ∧ t.host = { s.host with lastRender := out, trace := s.host.trace ++ [.rendered out] }
      ∧ SameAudio s t ∧ t.sink = s.sink ∧ t.diag = s.diag ∧ t.rs.baseline = s.rs.baseline
      ∧ (e ≤ (s.rs.h : Int) → out = [] ∧ t.rs = s.rs)
      ∧ ((s.rs.h : Int) < e →
          (t.rs.h : Int) = e ∧ ((s.rs.h + out.length : Nat) : Int) = e
          ∧ out.getLast? = some t.rs.acc
          ∧ t.rs.pend = s.rs.pend.filter (fun cl => cl.any (fun nw => decide (e ≤ (nw.1 : Int))))
          ∧ ∀ (i : Nat) (x : Sample), out[i]? = some x → ∀ g : Nat → Rat,
              x.value g = s.rs.acc.value g
                + ((s.rs.pend.flatten.filter (fun nw => s.rs.h ≤ nw.1 ∧ nw.1 ≤ s.rs.h + i)).map
                    (fun nw => nw.2.value g)).sum)

/-- Every step keeps the resampler balanced: what was returned and what is pending make up the baseline (R491). -/
def Obligations.StepKeepsResamplerBalanced : Prop :=
  ∀ s t : State, checkCfg s.cfg = none → kernelSumsToOne s.cfg → ResamplerBalanced s → step s = .next t →
    ResamplerBalanced t

/-- The round trip (R491). The resampler is balanced right after construction. From a balanced resampler, a RENDER whose
horizon is past every pending window leaves an accumulator of exactly the baseline and nothing pending, and it is so already
where the horizon is past them. A single event pushed into a fresh resampler, then rendered with `E > c + r`, leaves exactly
its amplitude. -/
def Obligations.RoundTrip : Prop :=
  (∀ c : Cfg, ResamplerBalanced (State.ofCfg c))
    ∧ (∀ s : State, ResamplerBalanced s → (∀ nw ∈ s.rs.pend.flatten, nw.1 < s.rs.h) →
        ∀ g : Nat → Rat, g 0 = 1 → s.rs.acc.value g = s.rs.baseline)
    ∧ (∀ s : State, ResamplerBalanced s →
        let e : Int := ((s.cyc : Rat) * (s.cfg.sampleRate : Rat) / (s.cfg.clockHz : Rat)).floor - s.cfg.radius
        (s.rs.h : Int) < e → (∀ nw ∈ s.rs.pend.flatten, (nw.1 : Int) < e) →
          ∃ t, exec .render s = .next t ∧ t.rs.pend = [] ∧ t.rs.baseline = s.rs.baseline
            ∧ ∀ g : Nat → Rat, g 0 = 1 → t.rs.acc.value g = t.rs.baseline)
    ∧ ∀ (s : State) (time delta : Rat), checkCfg s.cfg = none → kernelSumsToOne s.cfg →
        s.rs = ⟨0, Sample.zero, 0, []⟩ → s.host.operand = .events [⟨time, delta⟩] → 0 ≤ time →
        (locate s.cfg time).c + s.cfg.radius
            < ((s.cyc : Rat) * (s.cfg.sampleRate : Rat) / (s.cfg.clockHz : Rat)).floor - s.cfg.radius →
          ∃ a t, exec .push s = .next a ∧ exec .render a = .next t
            ∧ ∀ g : Nat → Rat, g 0 = 1 → t.rs.acc.value g = delta

/-- Rendering in two stages returns the samples of rendering at once: where a RENDER falls does not matter (R492). -/
def Obligations.RenderInStages : Prop :=
  ∀ (acc : Sample) (pend : List (List (Nat × Sample))) (h m e : Nat), h < m → m ≤ e →
    let first := runningSums acc (convolve h m pend)
    runningSums acc (convolve h e pend)
      = first ++ runningSums (first.getLastD acc) (convolve m e (evict m pend))

/-- Pumping (DRAIN, PUSH, RENDER, SINKW with no TICK inside) raises no late event, from any state whose time and buffered
events lie past the horizon; pumping leaves such a state, every other command keeps it, and the first TICK after
construction makes one (R702; at cycle 0 the spec's own rule R486 counts the synthetic event as late, so time 0 is left
out). -/
def Obligations.PumpingIsNeverLate : Prop :=
  (∀ s : State, checkCfg s.cfg = none → PumpReady s →
      ∃ a b c t, exec .drain s = .next a ∧ exec .push a = .next b ∧ exec .render b = .next c ∧ exec .sinkw c = .next t
        ∧ t.diag.late = s.diag.late ∧ PumpReady t)
    ∧ (∀ (i : Instr) (s t : State), checkCfg s.cfg = none → i ≠ .render → PumpReady s → exec i s = .next t → PumpReady t)
    ∧ ∀ (s t : State), checkCfg s.cfg = none → s.rs.h = 0 → s.events = [] → s.host.operand = .latched →
        exec .tick s = .next t → PumpReady t

/-! ## The sink -/

/-- SINKW (R530, R531), of the list given beside its word, else of the latch. On a busy sink the request only joins the
queue. On an idle sink, with `w0 = max(W, P)`, the first `n = min(HWM - (w0 - P), |samples|)` samples are
committed as frames `(x, x)` from stream frame `w0` on; the request completes if all fit, else it stays deferred with the
rest; a commit of at least one frame re-arms the watchdog. -/
def Obligations.SinkWriteCommand : Prop :=
  ∀ s : State, checkCfg s.cfg = none →
    let k := s.sink
    let l := match s.host.operand with
      | .samples l => l
      | _ => s.host.lastRender
    let w0 := max k.w k.p
    let n := min ((highWm s.cfg).toNat - (w0 - k.p)) l.length
    ∃ t, exec .sinkw s = .next t
      ∧ SameAudio s t ∧ t.rs = s.rs ∧ t.diag = s.diag
      ∧ t.host = { s.host with operand := .latched, trace := s.host.trace ++ [.sinkId k.nextId] }
      ∧ (k.queue ≠ [] → t.sink = { k with nextId := k.nextId + 1, queue := k.queue ++ [⟨k.nextId, l.length, l, 0⟩] })
      ∧ (k.queue = [] →
          t.sink.w = w0 + n ∧ t.sink.p = k.p ∧ t.sink.nextId = k.nextId + 1
          ∧ (n = l.length → t.sink.queue = [] ∧ t.sink.completed = k.completed ++ [⟨k.nextId, .completed n⟩])
          ∧ (n < l.length → t.sink.queue = [⟨k.nextId, l.length, l.drop n, n⟩] ∧ t.sink.completed = k.completed)
          ∧ (n = 0 → t.sink.wdArmed = k.wdArmed ∧ t.sink.wdDeadline = k.wdDeadline)
          ∧ (0 < n → t.sink.wdArmed = true ∧ t.sink.wdDeadline = w0 + n + s.cfg.underrunGrace.toNat)
          ∧ (∀ (i : Nat) (x : Sample), i < n → l[i]? = some x →
              slotRead t.sink.buf ((w0 + i) % (capacity s.cfg).toNat) = ⟨x, x⟩)
          ∧ ∀ slot, (∀ i, i < n → slot ≠ (w0 + i) % (capacity s.cfg).toNat) →
              slotRead t.sink.buf slot = slotRead k.buf slot)

/-- A commit serves the queue as one stream (R531, R532), whether SINKW or RETRY runs it: the committed frames are the queued
samples concatenated in request order, as many as fit under the high watermark, and no other slot changes; what is left is
the rest of that stream; exactly a prefix of the requests completes, each with all its samples, and the head left has samples;
a commit of at least one frame arms the watchdog at `W + UNDERRUN_GRACE`, and one of none leaves it (R533). -/
def Obligations.CommitSerializesRequests : Prop :=
  ∀ (c : Cfg) (k : Sink), checkCfg c = none → k.queue ≠ [] →
    let all := k.queue.flatMap (fun r => r.rem)
    let w0 := max k.w k.p
    let n := min ((highWm c).toNat - (w0 - k.p)) all.length
    let k' := commit c k
    k'.w = w0 + n ∧ k'.p = k.p ∧ k'.nextId = k.nextId
      ∧ k'.queue.flatMap (fun r => r.rem) = all.drop n
      ∧ (∀ (i : Nat) (x : Sample), i < n → all[i]? = some x →
          slotRead k'.buf ((w0 + i) % (capacity c).toNat) = ⟨x, x⟩)
      ∧ (∀ slot, (∀ i, i < n → slot ≠ (w0 + i) % (capacity c).toNat) → slotRead k'.buf slot = slotRead k.buf slot)
      ∧ (n = 0 → k'.wdArmed = k.wdArmed ∧ k'.wdDeadline = k.wdDeadline)
      ∧ (0 < n → k'.wdArmed = true ∧ k'.wdDeadline = k'.w + c.underrunGrace.toNat)
      ∧ (∃ m, k'.completed
            = k.completed ++ (k.queue.take m).map (fun r => ⟨r.id, .completed (r.done + r.rem.length)⟩)
          ∧ k'.queue.map (fun r => (r.id, r.len)) = (k.queue.drop m).map (fun r => (r.id, r.len)))
      ∧ (∀ r rest, k'.queue = r :: rest → r.rem ≠ [])
      ∧ ((∀ r ∈ k.queue, r.done + r.rem.length = r.len) → ∀ r ∈ k'.queue, r.done + r.rem.length = r.len)

/-- A commit never overwrites a committed frame that has not been played (R112, R539 item 1). -/
def Obligations.CommitKeepsUnplayedFrames : Prop :=
  ∀ (c : Cfg) (k : Sink) (i : Nat), checkCfg c = none → (fullness k : Int) ≤ highWm c → k.p ≤ i → i < k.w →
    slotRead (commit c k).buf (i % (capacity c).toNat) = slotRead k.buf (i % (capacity c).toNat)

/-- RETRY's progress. An enabled RETRY commits at least `min(HWM - LWM, |head.rem|)` frames, and at least one; once enabled
it stays enabled until it runs or a STOP is issued (R537). So on every endless run from a state that meets the invariant, in
which the device advances without end, the sink's agent is weakly fair and no STOP is issued, every request that is queued,
and every request a SINKW makes, is eventually recorded as completed with all its samples (R540). Three readings here are
the model's own: an endless run takes its turns one at a time from outside (log entry 1), weak fairness is read for each of
the agent's two steps (log entry 8), and a SINKW beside a list of events takes the latch (log entry 7). -/
def Obligations.RetryMakesProgress : Prop :=
  (∀ (s : State) (r : Request) (rest : List Request), checkCfg s.cfg = none → s.sink.queue = r :: rest → r.rem ≠ [] →
      retryEnabled s = true →
        max s.sink.w s.sink.p + min ((highWm s.cfg).toNat - (lowWm s.cfg).toNat) r.rem.length ≤ (retryStep s).sink.w
        ∧ max s.sink.w s.sink.p < (retryStep s).sink.w)
    ∧ (∀ (s t : State) (tn : Turn), retryEnabled s = true → tn ≠ .retry → ¬tn.runs .stop →
        step (s.withTurn tn) = .next t → retryEnabled t = true)
    ∧ ∀ (turn : Nat → Turn) (σ : Nat → State), Invariant (σ 0) → IsRun turn σ → DeviceAdvances turn →
        SinkAgentFair turn σ → NeverStopped turn →
          (∀ (n : Nat) (r : Request), r ∈ (σ n).sink.queue →
            ∃ m, n ≤ m ∧ ⟨r.id, .completed r.len⟩ ∈ (σ m).sink.completed)
          ∧ ∀ (n : Nat) (w : Word) (op : Operand), turn n = .command w op → decode w = .ok .sinkw →
            let l := match op with
              | .samples l => l
              | _ => (σ n).host.lastRender
            ∃ m, n < m ∧ ⟨(σ n).sink.nextId, .completed l.length⟩ ∈ (σ m).sink.completed

/-- DEVADV (R536): the device reads `K` frames from `P` on, whether committed or not, and only `P` moves. -/
def Obligations.DeviceAdvanceCommand : Prop :=
  ∀ (s : State) (k : BitVec 24),
    ∃ t frames, exec (.devadv k) s = .next t
      ∧ t.sink = { s.sink with p := s.sink.p + k.toNat }
      ∧ t.host = { s.host with trace := s.host.trace ++ [.played frames] }
      ∧ frames.length = k.toNat
      ∧ (∀ i, i < k.toNat → frames[i]? = some (slotRead s.sink.buf ((s.sink.p + i) % (capacity s.cfg).toNat)))
      ∧ SameAudio s t ∧ t.rs = s.rs ∧ t.diag = s.diag

/-- STOP (R535): every queued request is aborted with its committed count, in order; the buffer is silent, `W = P`, the
watchdog is disarmed; the played cursor, the ids and the earlier records stay; nothing else changes. -/
def Obligations.StopCommand : Prop :=
  ∀ s : State,
    ∃ t, exec .stop s = .next t
      ∧ t.sink.completed = s.sink.completed ++ s.sink.queue.map (fun r => ⟨r.id, .aborted r.done⟩)
      ∧ t.sink.queue = [] ∧ (∀ slot, slotRead t.sink.buf slot = ⟨Sample.zero, Sample.zero⟩)
      ∧ t.sink.w = s.sink.p ∧ t.sink.p = s.sink.p ∧ t.sink.wdArmed = false ∧ t.sink.wdDeadline = s.sink.wdDeadline
      ∧ t.sink.nextId = s.sink.nextId
      ∧ SameAudio s t ∧ t.rs = s.rs ∧ t.diag = s.diag ∧ t.host = s.host

/-! ## The whole machine -/

/-- The state a construction leaves (R45): every field of the block at the value the spec gives, every channel silent. -/
def Obligations.ConstructedState : Prop :=
  construct (defaultCfg .ntsc) = .ok State.reset
    ∧ ∀ (c : Cfg) (s : State), construct c = .ok s →
      s.cfg = c ∧ s.cyc = 0 ∧ s.fs = 0 ∧ (∀ a, s.reg.read a = 0#8)
      ∧ s.p1 = Pulse.zero true ∧ s.p2 = Pulse.zero false ∧ s.tri = Triangle.zero ∧ s.noise = Noise.zero
      ∧ s.noise.lfsr = 1#15
      ∧ s.events = [] ∧ s.lastAmp = 0 ∧ mixNow s = 0
      ∧ s.rs.h = 0 ∧ s.rs.acc = Sample.zero ∧ s.rs.baseline = 0 ∧ s.rs.pend = []
      ∧ (∀ slot, slotRead s.sink.buf slot = ⟨Sample.zero, Sample.zero⟩)
      ∧ s.sink.w = 0 ∧ s.sink.p = 0 ∧ s.sink.queue = [] ∧ s.sink.wdArmed = false ∧ s.sink.wdDeadline = 0
      ∧ s.sink.nextId = 0 ∧ s.sink.completed = [] ∧ s.diag = ⟨0, 0, false⟩

/-- Construction is refused with the first condition of R600 that holds, and only then. -/
def Obligations.ConstructionChecks : Prop :=
  ∀ c : Cfg,
    let cap := (c.sinkSeconds * (c.sampleRate : Rat)).floor
    let hwm := (c.highWmFrac * (cap : Rat)).floor
    let lwm := (c.lowWmFrac * (cap : Rat)).floor
    let bad := c.radius < 1 ∨ c.phaseCount < 2 ∨ c.sampleRate ≤ 0 ∨ c.clockHz ≤ 0
      ∨ ¬(c.frameSteps.length = 4 ∧ c.frameSteps.Pairwise (· < ·) ∧ ∀ n ∈ c.frameSteps, 1 ≤ n ∧ n ≤ c.framePeriod)
      ∨ ¬(∀ n ∈ c.halfSteps, n ∈ c.frameSteps)
      ∨ cap < 1 ∨ ¬(0 ≤ lwm ∧ lwm < hwm ∧ hwm ≤ cap) ∨ c.underrunGrace < 0
      ∨ ∃ n ∈ c.noiseNtsc ++ c.noisePal, 4095 < n
    let shape :=
      (∃ rows, c.kernel = some rows ∧ ¬((rows.length : Int) = c.phaseCount / 2 + 1
        ∧ ∀ row ∈ rows, (row.length : Int) = 2 * c.radius))
      ∨ ¬(c.lengthTable.length = 32 ∧ ∀ n ∈ c.lengthTable, n ≤ 254)
      ∨ ¬(c.dutyTable.length = 4 ∧ ∀ row ∈ c.dutyTable, row.length = 8 ∧ ∀ n ∈ row, n ≤ 1)
      ∨ ¬(c.triTable.length = 32 ∧ ∀ n ∈ c.triTable, n ≤ 15)
      ∨ ¬(c.noiseNtsc.length = 16 ∧ c.noisePal.length = 16)
    (construct c = .error .configOddPhaseCount ↔ c.phaseCount % 2 = 1)
      ∧ (construct c = .error .configBadParam ↔ c.phaseCount % 2 = 0 ∧ bad)
      ∧ (construct c = .error .configNonRectangular ↔ c.phaseCount % 2 = 0 ∧ ¬bad ∧ shape)
      ∧ ((∃ s, construct c = .ok s) ↔ c.phaseCount % 2 = 0 ∧ ¬bad ∧ ¬shape)

/-- The invariant holds of every constructed state, the reset state among them. -/
def Obligations.ConstructionGivesInvariant : Prop :=
  Invariant State.reset ∧ ∀ (c : Cfg) (s : State), construct c = .ok s → Invariant s

/-- Every step keeps the invariant: the sequencer follows the cycle count (R37), the LFSR is not 0 (R36), the register file
and the buffer are canonical, the triangle's period is the one its bytes give (R144), no list operand is left over, a
disabled length counter is 0, the event stream's guarantees (R442) and the sink's (R539). -/
def Obligations.StepKeepsInvariant : Prop :=
  ∀ s t : State, Invariant s → step s = .next t → Invariant t

/-- No step changes the configuration, the tables and the kernel among it (R111). -/
def Obligations.ConfigurationIsImmutable : Prop :=
  ∀ s t : State, step s = .next t → t.cfg = s.cfg

/-- Which command may change what: only TICK moves the cycle count and the sequencer (R30); only WR writes the register file
(R31); only WR and TICK change a channel, the last amplitude or append an event, at most one (R442, R445); only DRAIN
removes events; only PUSH and RENDER change the resampler; only SINKW, DEVADV and STOP change the sink, and only DEVADV its
played cursor (R42); only TICK, by a sweep update, can part a pulse period from its register bytes (R144, log entry 19);
completion records are only added. -/
def Obligations.WhoChangesWhat : Prop :=
  ∀ (i : Instr) (s t : State), exec i s = .next t →
    (t.cfg = s.cfg)
    ∧ (i = .tick → t.cyc = s.cyc + 1)
    ∧ (i ≠ .tick → t.cyc = s.cyc ∧ t.fs = s.fs)
    ∧ (classOf (encode i) ≠ 0x0#4 → t.reg = s.reg)
    ∧ (classOf (encode i) ≠ 0x0#4 → i ≠ .tick → SameChannels s t ∧ t.lastAmp = s.lastAmp)
    ∧ (i ≠ .drain → s.events <+: t.events ∧ t.events.length ≤ s.events.length + 1)
    ∧ (classOf (encode i) ≠ 0x0#4 → i ≠ .tick → i ≠ .drain → t.events = s.events)
    ∧ (i ≠ .push → i ≠ .render → t.rs = s.rs)
    ∧ (i ≠ .sinkw → i ≠ .stop → (∀ k, i ≠ .devadv k) → t.sink = s.sink)
    ∧ ((∀ k, i ≠ .devadv k) → t.sink.p = s.sink.p)
    ∧ (i ≠ .tick → PeriodFromBytes s.reg 0x4000#16 s.p1.period → PeriodFromBytes t.reg 0x4000#16 t.p1.period)
    ∧ (i ≠ .tick → PeriodFromBytes s.reg 0x4004#16 s.p2.period → PeriodFromBytes t.reg 0x4004#16 t.p2.period)
    ∧ s.sink.completed <+: t.sink.completed
    ∧ s.host.trace <+: t.host.trace ∧ t.host.turns = s.host.turns

/-! ## The kernel and the assembler -/

/-- The kernel over the reals (R481): row 0 is symmetric about `r`, the first entry of row `Pc/2` is 0; and where a row's
total is not 0, the formal share the machine carries stands for exactly `w · K[p][j]`. Every list of reals the driver gives
(R143) is stood for by a list of samples. -/
def Obligations.FormalKernelIsTheKernel : Prop :=
  (∀ r pc k : Nat, 1 ≤ r → 1 ≤ pc → 1 ≤ k → k < r → kernelEntry r pc 0 (r - k) = kernelEntry r pc 0 (r + k))
    ∧ (∀ r m : Nat, 1 ≤ r → 1 ≤ m → kernelEntry r (2 * m) m 0 = 0)
    ∧ (∀ (c : Cfg) (given : Nat → ℝ) (p j : Nat) (w : Rat), checkCfg c = none → c.kernel = none →
        2 * (p : Int) ≤ c.phaseCount → (j : Int) < 2 * c.radius →
        kernelPoint c.radius.toNat c.phaseCount.toNat p (2 * c.radius.toNat)
          ≠ kernelPoint c.radius.toNat c.phaseCount.toNat p 0 →
        (kernelShare c p j w).real c given = (w : ℝ) * kernelEntry c.radius.toNat c.phaseCount.toNat p j)
    ∧ ∀ (c : Cfg) (l : List ℝ), ∃ (xs : List Sample) (given : Nat → ℝ), xs.map (fun x => x.real c given) = l

/-- The pseudo-instructions (R151): `TICKS n` is n TICK words, `PUMP` is DRAIN, PUSH, RENDER, SINKW, and `NOTE` writes the
low byte and then the length and high bits of a period. -/
def Obligations.PseudoInstructionsExpand : Prop :=
  (∀ n, assemble (.ticks n) = List.replicate n (encode .tick))
    ∧ assemble .pump = [encode .drain, encode .push, encode .render, encode .sinkw]
    ∧ ∀ (p : BitVec 11) (l : BitVec 5), ∃ lo hi : Byte,
        lo.toNat = p.toNat % 256 ∧ hi.toNat = l.toNat * 8 + p.toNat / 256
        ∧ assemble (.note .p1 p l) = [encode (.wrP1Lo lo), encode (.wrP1Hi hi)]
        ∧ assemble (.note .p2 p l) = [encode (.wrP2Lo lo), encode (.wrP2Hi hi)]
        ∧ assemble (.note .tri p l) = [encode (.wrTriLo lo), encode (.wrTriHi hi)]

/-- Putting a word where the machine takes its next command makes the next step execute it on the state as it was, its list
operand, if it takes one, the driver's latch. -/
def Obligations.FetchedWordRunsNext : Prop :=
  ∀ (s : State) (w : Nat) (i : Instr), decodeTableWord 32 w = some i →
    step (s.withFetchWord 32 w) = exec i { s with host := { s.host with operand := .latched } }
end

