-- ==== Sys2Proof/Laws/Channels.lean ====
section
/-! SUPPORT. What the primitives and the channel functions do. -/

namespace Sys2Proof.Machine

/-- A write of the low period byte, on the period's value (20_memory.md R102). -/
theorem withPeriodLow_toNat (p : BitVec 11) (d : Byte) :
    (withPeriodLow p d).toNat = p.toNat / 256 * 256 + d.toNat := by
  have := p.isLt
  simp only [withPeriodLow, BitVec.toNat_append, BitVec.extractLsb'_toNat, Nat.shiftRight_eq_div_pow]
  rw [← Nat.shiftLeft_add_eq_or_of_lt d.isLt, Nat.shiftLeft_eq]
  omega

/-- A write of the high period bits, on the period's value (20_memory.md R102). -/
theorem withPeriodHigh_toNat (p : BitVec 11) (d : Byte) :
    (withPeriodHigh p d).toNat = d.toNat % 8 * 256 + p.toNat % 256 := by
  have h2 : p.toNat % 256 < 2 ^ 8 := Nat.mod_lt _ (by decide)
  simp only [withPeriodHigh, BitVec.toNat_append, BitVec.extractLsb'_toNat, Nat.shiftRight_eq_div_pow]
  norm_num
  rw [← Nat.shiftLeft_add_eq_or_of_lt h2, Nat.shiftLeft_eq]

/-- One divider clock: the counter falls by 1, or is reloaded at 0. -/
theorem dividerClock_toNat {n : Nat} (c p : BitVec n) :
    (dividerClock c p).1.toNat = if c.toNat = 0 then p.toNat else c.toNat - 1 := by
  have h0 : (c = 0#n) ↔ c.toNat = 0 := by rw [← BitVec.toNat_inj]; simp
  unfold dividerClock
  by_cases h : c.toNat = 0
  · simp [h0.mpr h]
  · have hc : c ≠ 0#n := fun hh => h (h0.mp hh)
    have hn : n ≠ 0 := by rintro rfl; exact h (by have := c.isLt; omega)
    have h1 : 1 < 2 ^ n := Nat.one_lt_two_pow hn
    simp only [hc, h, if_false, BitVec.toNat_sub, BitVec.toNat_ofNat, Nat.mod_eq_of_lt h1]
    have := c.isLt
    rw [show 2 ^ n - 1 + c.toNat = (c.toNat - 1) + 2 ^ n by omega, Nat.add_mod_right, Nat.mod_eq_of_lt (by omega)]

/-- A divider fires when its counter is 0. -/
theorem dividerClock_fires {n : Nat} (c p : BitVec n) : (dividerClock c p).2 = true ↔ c.toNat = 0 := by
  have h0 : (c = 0#n) ↔ c.toNat = 0 := by rw [← BitVec.toNat_inj]; simp
  unfold dividerClock
  by_cases h : c = 0#n
  · simp [h]
  · simp [h, ← h0]

/-- After a load nothing is pending. -/
@[simp] theorem lenLoad_pending (c : Cfg) (l : Length) : (lenLoad c l).pending = false := by
  unfold lenLoad
  split
  · split <;> rfl
  · next h => simpa using h

/-- The pulse amplitude is the envelope volume or 0. -/
theorem pulseAmp_le (cfg : Cfg) (c : Pulse) : pulseAmp cfg c ≤ 15 := by
  unfold pulseAmp
  split
  · omega
  · have := (envVolume c.env).isLt; omega

/-- The noise amplitude is the envelope volume or 0. -/
theorem noiseAmp_le (n : Noise) : noiseAmp n ≤ 15 := by
  unfold noiseAmp
  split
  · omega
  · have := (envVolume n.env).isLt; omega

@[simp] theorem sweepClock_len (c : Pulse) : (sweepClock c).len = c.len := rfl
@[simp] theorem sweepClock_env (c : Pulse) : (sweepClock c).env = c.env := rfl
@[simp] theorem sweepClock_first (c : Pulse) : (sweepClock c).first = c.first := rfl

/-- An in-range sweep target fits the period. -/
theorem sweepTarget_toNat (c : Pulse) (h : sweepOutOfRange c = false) :
    ((BitVec.ofInt 11 (sweepTarget c)).toNat : Int) = sweepTarget c := by
  simp only [sweepOutOfRange, Bool.or_eq_false_iff, decide_eq_false_iff_not, not_lt] at h
  rw [BitVec.toNat_ofInt]
  omega

end Sys2Proof.Machine
end

