-- ==== Sys2Proof/Laws/State.lean ====
section
/-! SUPPORT. Each field of the state after each field update. -/

namespace Sys2Proof.Machine

@[simp] theorem State.withCyc_cfg (s : State) (x : Nat) : (s.withCyc x).cfg = s.cfg := rfl
@[simp] theorem State.withCyc_cyc (s : State) (x : Nat) : (s.withCyc x).cyc = x := rfl
@[simp] theorem State.withCyc_reg (s : State) (x : Nat) : (s.withCyc x).reg = s.reg := rfl
@[simp] theorem State.withCyc_p1 (s : State) (x : Nat) : (s.withCyc x).p1 = s.p1 := rfl
@[simp] theorem State.withCyc_p2 (s : State) (x : Nat) : (s.withCyc x).p2 = s.p2 := rfl
@[simp] theorem State.withCyc_tri (s : State) (x : Nat) : (s.withCyc x).tri = s.tri := rfl
@[simp] theorem State.withCyc_noise (s : State) (x : Nat) : (s.withCyc x).noise = s.noise := rfl
@[simp] theorem State.withCyc_fs (s : State) (x : Nat) : (s.withCyc x).fs = s.fs := rfl
@[simp] theorem State.withCyc_events (s : State) (x : Nat) : (s.withCyc x).events = s.events := rfl
@[simp] theorem State.withCyc_lastAmp (s : State) (x : Nat) : (s.withCyc x).lastAmp = s.lastAmp := rfl
@[simp] theorem State.withCyc_rs (s : State) (x : Nat) : (s.withCyc x).rs = s.rs := rfl
@[simp] theorem State.withCyc_sink (s : State) (x : Nat) : (s.withCyc x).sink = s.sink := rfl
@[simp] theorem State.withCyc_diag (s : State) (x : Nat) : (s.withCyc x).diag = s.diag := rfl
@[simp] theorem State.withCyc_host (s : State) (x : Nat) : (s.withCyc x).host = s.host := rfl

@[simp] theorem State.withReg_cfg (s : State) (x : Memory) : (s.withReg x).cfg = s.cfg := rfl
@[simp] theorem State.withReg_cyc (s : State) (x : Memory) : (s.withReg x).cyc = s.cyc := rfl
@[simp] theorem State.withReg_reg (s : State) (x : Memory) : (s.withReg x).reg = x := rfl
@[simp] theorem State.withReg_p1 (s : State) (x : Memory) : (s.withReg x).p1 = s.p1 := rfl
@[simp] theorem State.withReg_p2 (s : State) (x : Memory) : (s.withReg x).p2 = s.p2 := rfl
@[simp] theorem State.withReg_tri (s : State) (x : Memory) : (s.withReg x).tri = s.tri := rfl
@[simp] theorem State.withReg_noise (s : State) (x : Memory) : (s.withReg x).noise = s.noise := rfl
@[simp] theorem State.withReg_fs (s : State) (x : Memory) : (s.withReg x).fs = s.fs := rfl
@[simp] theorem State.withReg_events (s : State) (x : Memory) : (s.withReg x).events = s.events := rfl
@[simp] theorem State.withReg_lastAmp (s : State) (x : Memory) : (s.withReg x).lastAmp = s.lastAmp := rfl
@[simp] theorem State.withReg_rs (s : State) (x : Memory) : (s.withReg x).rs = s.rs := rfl
@[simp] theorem State.withReg_sink (s : State) (x : Memory) : (s.withReg x).sink = s.sink := rfl
@[simp] theorem State.withReg_diag (s : State) (x : Memory) : (s.withReg x).diag = s.diag := rfl
@[simp] theorem State.withReg_host (s : State) (x : Memory) : (s.withReg x).host = s.host := rfl

@[simp] theorem State.withP1_cfg (s : State) (x : Pulse) : (s.withP1 x).cfg = s.cfg := rfl
@[simp] theorem State.withP1_cyc (s : State) (x : Pulse) : (s.withP1 x).cyc = s.cyc := rfl
@[simp] theorem State.withP1_reg (s : State) (x : Pulse) : (s.withP1 x).reg = s.reg := rfl
@[simp] theorem State.withP1_p1 (s : State) (x : Pulse) : (s.withP1 x).p1 = x := rfl
@[simp] theorem State.withP1_p2 (s : State) (x : Pulse) : (s.withP1 x).p2 = s.p2 := rfl
@[simp] theorem State.withP1_tri (s : State) (x : Pulse) : (s.withP1 x).tri = s.tri := rfl
@[simp] theorem State.withP1_noise (s : State) (x : Pulse) : (s.withP1 x).noise = s.noise := rfl
@[simp] theorem State.withP1_fs (s : State) (x : Pulse) : (s.withP1 x).fs = s.fs := rfl
@[simp] theorem State.withP1_events (s : State) (x : Pulse) : (s.withP1 x).events = s.events := rfl
@[simp] theorem State.withP1_lastAmp (s : State) (x : Pulse) : (s.withP1 x).lastAmp = s.lastAmp := rfl
@[simp] theorem State.withP1_rs (s : State) (x : Pulse) : (s.withP1 x).rs = s.rs := rfl
@[simp] theorem State.withP1_sink (s : State) (x : Pulse) : (s.withP1 x).sink = s.sink := rfl
@[simp] theorem State.withP1_diag (s : State) (x : Pulse) : (s.withP1 x).diag = s.diag := rfl
@[simp] theorem State.withP1_host (s : State) (x : Pulse) : (s.withP1 x).host = s.host := rfl

@[simp] theorem State.withP2_cfg (s : State) (x : Pulse) : (s.withP2 x).cfg = s.cfg := rfl
@[simp] theorem State.withP2_cyc (s : State) (x : Pulse) : (s.withP2 x).cyc = s.cyc := rfl
@[simp] theorem State.withP2_reg (s : State) (x : Pulse) : (s.withP2 x).reg = s.reg := rfl
@[simp] theorem State.withP2_p1 (s : State) (x : Pulse) : (s.withP2 x).p1 = s.p1 := rfl
@[simp] theorem State.withP2_p2 (s : State) (x : Pulse) : (s.withP2 x).p2 = x := rfl
@[simp] theorem State.withP2_tri (s : State) (x : Pulse) : (s.withP2 x).tri = s.tri := rfl
@[simp] theorem State.withP2_noise (s : State) (x : Pulse) : (s.withP2 x).noise = s.noise := rfl
@[simp] theorem State.withP2_fs (s : State) (x : Pulse) : (s.withP2 x).fs = s.fs := rfl
@[simp] theorem State.withP2_events (s : State) (x : Pulse) : (s.withP2 x).events = s.events := rfl
@[simp] theorem State.withP2_lastAmp (s : State) (x : Pulse) : (s.withP2 x).lastAmp = s.lastAmp := rfl
@[simp] theorem State.withP2_rs (s : State) (x : Pulse) : (s.withP2 x).rs = s.rs := rfl
@[simp] theorem State.withP2_sink (s : State) (x : Pulse) : (s.withP2 x).sink = s.sink := rfl
@[simp] theorem State.withP2_diag (s : State) (x : Pulse) : (s.withP2 x).diag = s.diag := rfl
@[simp] theorem State.withP2_host (s : State) (x : Pulse) : (s.withP2 x).host = s.host := rfl

@[simp] theorem State.withTri_cfg (s : State) (x : Triangle) : (s.withTri x).cfg = s.cfg := rfl
@[simp] theorem State.withTri_cyc (s : State) (x : Triangle) : (s.withTri x).cyc = s.cyc := rfl
@[simp] theorem State.withTri_reg (s : State) (x : Triangle) : (s.withTri x).reg = s.reg := rfl
@[simp] theorem State.withTri_p1 (s : State) (x : Triangle) : (s.withTri x).p1 = s.p1 := rfl
@[simp] theorem State.withTri_p2 (s : State) (x : Triangle) : (s.withTri x).p2 = s.p2 := rfl
@[simp] theorem State.withTri_tri (s : State) (x : Triangle) : (s.withTri x).tri = x := rfl
@[simp] theorem State.withTri_noise (s : State) (x : Triangle) : (s.withTri x).noise = s.noise := rfl
@[simp] theorem State.withTri_fs (s : State) (x : Triangle) : (s.withTri x).fs = s.fs := rfl
@[simp] theorem State.withTri_events (s : State) (x : Triangle) : (s.withTri x).events = s.events := rfl
@[simp] theorem State.withTri_lastAmp (s : State) (x : Triangle) : (s.withTri x).lastAmp = s.lastAmp := rfl
@[simp] theorem State.withTri_rs (s : State) (x : Triangle) : (s.withTri x).rs = s.rs := rfl
@[simp] theorem State.withTri_sink (s : State) (x : Triangle) : (s.withTri x).sink = s.sink := rfl
@[simp] theorem State.withTri_diag (s : State) (x : Triangle) : (s.withTri x).diag = s.diag := rfl
@[simp] theorem State.withTri_host (s : State) (x : Triangle) : (s.withTri x).host = s.host := rfl

@[simp] theorem State.withNoise_cfg (s : State) (x : Noise) : (s.withNoise x).cfg = s.cfg := rfl
@[simp] theorem State.withNoise_cyc (s : State) (x : Noise) : (s.withNoise x).cyc = s.cyc := rfl
@[simp] theorem State.withNoise_reg (s : State) (x : Noise) : (s.withNoise x).reg = s.reg := rfl
@[simp] theorem State.withNoise_p1 (s : State) (x : Noise) : (s.withNoise x).p1 = s.p1 := rfl
@[simp] theorem State.withNoise_p2 (s : State) (x : Noise) : (s.withNoise x).p2 = s.p2 := rfl
@[simp] theorem State.withNoise_tri (s : State) (x : Noise) : (s.withNoise x).tri = s.tri := rfl
@[simp] theorem State.withNoise_noise (s : State) (x : Noise) : (s.withNoise x).noise = x := rfl
@[simp] theorem State.withNoise_fs (s : State) (x : Noise) : (s.withNoise x).fs = s.fs := rfl
@[simp] theorem State.withNoise_events (s : State) (x : Noise) : (s.withNoise x).events = s.events := rfl
@[simp] theorem State.withNoise_lastAmp (s : State) (x : Noise) : (s.withNoise x).lastAmp = s.lastAmp := rfl
@[simp] theorem State.withNoise_rs (s : State) (x : Noise) : (s.withNoise x).rs = s.rs := rfl
@[simp] theorem State.withNoise_sink (s : State) (x : Noise) : (s.withNoise x).sink = s.sink := rfl
@[simp] theorem State.withNoise_diag (s : State) (x : Noise) : (s.withNoise x).diag = s.diag := rfl
@[simp] theorem State.withNoise_host (s : State) (x : Noise) : (s.withNoise x).host = s.host := rfl

@[simp] theorem State.withFs_cfg (s : State) (x : Nat) : (s.withFs x).cfg = s.cfg := rfl
@[simp] theorem State.withFs_cyc (s : State) (x : Nat) : (s.withFs x).cyc = s.cyc := rfl
@[simp] theorem State.withFs_reg (s : State) (x : Nat) : (s.withFs x).reg = s.reg := rfl
@[simp] theorem State.withFs_p1 (s : State) (x : Nat) : (s.withFs x).p1 = s.p1 := rfl
@[simp] theorem State.withFs_p2 (s : State) (x : Nat) : (s.withFs x).p2 = s.p2 := rfl
@[simp] theorem State.withFs_tri (s : State) (x : Nat) : (s.withFs x).tri = s.tri := rfl
@[simp] theorem State.withFs_noise (s : State) (x : Nat) : (s.withFs x).noise = s.noise := rfl
@[simp] theorem State.withFs_fs (s : State) (x : Nat) : (s.withFs x).fs = x := rfl
@[simp] theorem State.withFs_events (s : State) (x : Nat) : (s.withFs x).events = s.events := rfl
@[simp] theorem State.withFs_lastAmp (s : State) (x : Nat) : (s.withFs x).lastAmp = s.lastAmp := rfl
@[simp] theorem State.withFs_rs (s : State) (x : Nat) : (s.withFs x).rs = s.rs := rfl
@[simp] theorem State.withFs_sink (s : State) (x : Nat) : (s.withFs x).sink = s.sink := rfl
@[simp] theorem State.withFs_diag (s : State) (x : Nat) : (s.withFs x).diag = s.diag := rfl
@[simp] theorem State.withFs_host (s : State) (x : Nat) : (s.withFs x).host = s.host := rfl

@[simp] theorem State.withEvents_cfg (s : State) (x : List Event) : (s.withEvents x).cfg = s.cfg := rfl
@[simp] theorem State.withEvents_cyc (s : State) (x : List Event) : (s.withEvents x).cyc = s.cyc := rfl
@[simp] theorem State.withEvents_reg (s : State) (x : List Event) : (s.withEvents x).reg = s.reg := rfl
@[simp] theorem State.withEvents_p1 (s : State) (x : List Event) : (s.withEvents x).p1 = s.p1 := rfl
@[simp] theorem State.withEvents_p2 (s : State) (x : List Event) : (s.withEvents x).p2 = s.p2 := rfl
@[simp] theorem State.withEvents_tri (s : State) (x : List Event) : (s.withEvents x).tri = s.tri := rfl
@[simp] theorem State.withEvents_noise (s : State) (x : List Event) : (s.withEvents x).noise = s.noise := rfl
@[simp] theorem State.withEvents_fs (s : State) (x : List Event) : (s.withEvents x).fs = s.fs := rfl
@[simp] theorem State.withEvents_events (s : State) (x : List Event) : (s.withEvents x).events = x := rfl
@[simp] theorem State.withEvents_lastAmp (s : State) (x : List Event) : (s.withEvents x).lastAmp = s.lastAmp := rfl
@[simp] theorem State.withEvents_rs (s : State) (x : List Event) : (s.withEvents x).rs = s.rs := rfl
@[simp] theorem State.withEvents_sink (s : State) (x : List Event) : (s.withEvents x).sink = s.sink := rfl
@[simp] theorem State.withEvents_diag (s : State) (x : List Event) : (s.withEvents x).diag = s.diag := rfl
@[simp] theorem State.withEvents_host (s : State) (x : List Event) : (s.withEvents x).host = s.host := rfl

@[simp] theorem State.withLastAmp_cfg (s : State) (x : Rat) : (s.withLastAmp x).cfg = s.cfg := rfl
@[simp] theorem State.withLastAmp_cyc (s : State) (x : Rat) : (s.withLastAmp x).cyc = s.cyc := rfl
@[simp] theorem State.withLastAmp_reg (s : State) (x : Rat) : (s.withLastAmp x).reg = s.reg := rfl
@[simp] theorem State.withLastAmp_p1 (s : State) (x : Rat) : (s.withLastAmp x).p1 = s.p1 := rfl
@[simp] theorem State.withLastAmp_p2 (s : State) (x : Rat) : (s.withLastAmp x).p2 = s.p2 := rfl
@[simp] theorem State.withLastAmp_tri (s : State) (x : Rat) : (s.withLastAmp x).tri = s.tri := rfl
@[simp] theorem State.withLastAmp_noise (s : State) (x : Rat) : (s.withLastAmp x).noise = s.noise := rfl
@[simp] theorem State.withLastAmp_fs (s : State) (x : Rat) : (s.withLastAmp x).fs = s.fs := rfl
@[simp] theorem State.withLastAmp_events (s : State) (x : Rat) : (s.withLastAmp x).events = s.events := rfl
@[simp] theorem State.withLastAmp_lastAmp (s : State) (x : Rat) : (s.withLastAmp x).lastAmp = x := rfl
@[simp] theorem State.withLastAmp_rs (s : State) (x : Rat) : (s.withLastAmp x).rs = s.rs := rfl
@[simp] theorem State.withLastAmp_sink (s : State) (x : Rat) : (s.withLastAmp x).sink = s.sink := rfl
@[simp] theorem State.withLastAmp_diag (s : State) (x : Rat) : (s.withLastAmp x).diag = s.diag := rfl
@[simp] theorem State.withLastAmp_host (s : State) (x : Rat) : (s.withLastAmp x).host = s.host := rfl

@[simp] theorem State.withRs_cfg (s : State) (x : Resampler) : (s.withRs x).cfg = s.cfg := rfl
@[simp] theorem State.withRs_cyc (s : State) (x : Resampler) : (s.withRs x).cyc = s.cyc := rfl
@[simp] theorem State.withRs_reg (s : State) (x : Resampler) : (s.withRs x).reg = s.reg := rfl
@[simp] theorem State.withRs_p1 (s : State) (x : Resampler) : (s.withRs x).p1 = s.p1 := rfl
@[simp] theorem State.withRs_p2 (s : State) (x : Resampler) : (s.withRs x).p2 = s.p2 := rfl
@[simp] theorem State.withRs_tri (s : State) (x : Resampler) : (s.withRs x).tri = s.tri := rfl
@[simp] theorem State.withRs_noise (s : State) (x : Resampler) : (s.withRs x).noise = s.noise := rfl
@[simp] theorem State.withRs_fs (s : State) (x : Resampler) : (s.withRs x).fs = s.fs := rfl
@[simp] theorem State.withRs_events (s : State) (x : Resampler) : (s.withRs x).events = s.events := rfl
@[simp] theorem State.withRs_lastAmp (s : State) (x : Resampler) : (s.withRs x).lastAmp = s.lastAmp := rfl
@[simp] theorem State.withRs_rs (s : State) (x : Resampler) : (s.withRs x).rs = x := rfl
@[simp] theorem State.withRs_sink (s : State) (x : Resampler) : (s.withRs x).sink = s.sink := rfl
@[simp] theorem State.withRs_diag (s : State) (x : Resampler) : (s.withRs x).diag = s.diag := rfl
@[simp] theorem State.withRs_host (s : State) (x : Resampler) : (s.withRs x).host = s.host := rfl

@[simp] theorem State.withSink_cfg (s : State) (x : Sink) : (s.withSink x).cfg = s.cfg := rfl
@[simp] theorem State.withSink_cyc (s : State) (x : Sink) : (s.withSink x).cyc = s.cyc := rfl
@[simp] theorem State.withSink_reg (s : State) (x : Sink) : (s.withSink x).reg = s.reg := rfl
@[simp] theorem State.withSink_p1 (s : State) (x : Sink) : (s.withSink x).p1 = s.p1 := rfl
@[simp] theorem State.withSink_p2 (s : State) (x : Sink) : (s.withSink x).p2 = s.p2 := rfl
@[simp] theorem State.withSink_tri (s : State) (x : Sink) : (s.withSink x).tri = s.tri := rfl
@[simp] theorem State.withSink_noise (s : State) (x : Sink) : (s.withSink x).noise = s.noise := rfl
@[simp] theorem State.withSink_fs (s : State) (x : Sink) : (s.withSink x).fs = s.fs := rfl
@[simp] theorem State.withSink_events (s : State) (x : Sink) : (s.withSink x).events = s.events := rfl
@[simp] theorem State.withSink_lastAmp (s : State) (x : Sink) : (s.withSink x).lastAmp = s.lastAmp := rfl
@[simp] theorem State.withSink_rs (s : State) (x : Sink) : (s.withSink x).rs = s.rs := rfl
@[simp] theorem State.withSink_sink (s : State) (x : Sink) : (s.withSink x).sink = x := rfl
@[simp] theorem State.withSink_diag (s : State) (x : Sink) : (s.withSink x).diag = s.diag := rfl
@[simp] theorem State.withSink_host (s : State) (x : Sink) : (s.withSink x).host = s.host := rfl

@[simp] theorem State.withDiag_cfg (s : State) (x : Diag) : (s.withDiag x).cfg = s.cfg := rfl
@[simp] theorem State.withDiag_cyc (s : State) (x : Diag) : (s.withDiag x).cyc = s.cyc := rfl
@[simp] theorem State.withDiag_reg (s : State) (x : Diag) : (s.withDiag x).reg = s.reg := rfl
@[simp] theorem State.withDiag_p1 (s : State) (x : Diag) : (s.withDiag x).p1 = s.p1 := rfl
@[simp] theorem State.withDiag_p2 (s : State) (x : Diag) : (s.withDiag x).p2 = s.p2 := rfl
@[simp] theorem State.withDiag_tri (s : State) (x : Diag) : (s.withDiag x).tri = s.tri := rfl
@[simp] theorem State.withDiag_noise (s : State) (x : Diag) : (s.withDiag x).noise = s.noise := rfl
@[simp] theorem State.withDiag_fs (s : State) (x : Diag) : (s.withDiag x).fs = s.fs := rfl
@[simp] theorem State.withDiag_events (s : State) (x : Diag) : (s.withDiag x).events = s.events := rfl
@[simp] theorem State.withDiag_lastAmp (s : State) (x : Diag) : (s.withDiag x).lastAmp = s.lastAmp := rfl
@[simp] theorem State.withDiag_rs (s : State) (x : Diag) : (s.withDiag x).rs = s.rs := rfl
@[simp] theorem State.withDiag_sink (s : State) (x : Diag) : (s.withDiag x).sink = s.sink := rfl
@[simp] theorem State.withDiag_diag (s : State) (x : Diag) : (s.withDiag x).diag = x := rfl
@[simp] theorem State.withDiag_host (s : State) (x : Diag) : (s.withDiag x).host = s.host := rfl

@[simp] theorem State.withHost_cfg (s : State) (x : HostSide) : (s.withHost x).cfg = s.cfg := rfl
@[simp] theorem State.withHost_cyc (s : State) (x : HostSide) : (s.withHost x).cyc = s.cyc := rfl
@[simp] theorem State.withHost_reg (s : State) (x : HostSide) : (s.withHost x).reg = s.reg := rfl
@[simp] theorem State.withHost_p1 (s : State) (x : HostSide) : (s.withHost x).p1 = s.p1 := rfl
@[simp] theorem State.withHost_p2 (s : State) (x : HostSide) : (s.withHost x).p2 = s.p2 := rfl
@[simp] theorem State.withHost_tri (s : State) (x : HostSide) : (s.withHost x).tri = s.tri := rfl
@[simp] theorem State.withHost_noise (s : State) (x : HostSide) : (s.withHost x).noise = s.noise := rfl
@[simp] theorem State.withHost_fs (s : State) (x : HostSide) : (s.withHost x).fs = s.fs := rfl
@[simp] theorem State.withHost_events (s : State) (x : HostSide) : (s.withHost x).events = s.events := rfl
@[simp] theorem State.withHost_lastAmp (s : State) (x : HostSide) : (s.withHost x).lastAmp = s.lastAmp := rfl
@[simp] theorem State.withHost_rs (s : State) (x : HostSide) : (s.withHost x).rs = s.rs := rfl
@[simp] theorem State.withHost_sink (s : State) (x : HostSide) : (s.withHost x).sink = s.sink := rfl
@[simp] theorem State.withHost_diag (s : State) (x : HostSide) : (s.withHost x).diag = s.diag := rfl
@[simp] theorem State.withHost_host (s : State) (x : HostSide) : (s.withHost x).host = x := rfl

/-- The register file is canonical right after reset. -/
theorem reset_reg_wf : State.reset.reg.wf = true := rfl

end Sys2Proof.Machine
end

