-- ==== Sys2Proof/Laws/Store.lean ====
section
/-! SUPPORT. The laws of the sparse stores: a read after a write, and the canonical form. -/

namespace Sys2Proof.Machine

variable {α : Type}

theorem storeRead_erase_same (dflt : α) (m : List (Nat × α)) (a : Nat) : storeRead dflt (storeErase m a) a = dflt := by
  induction m with
  | nil => rfl
  | cons kv t ih =>
    obtain ⟨k, v⟩ := kv
    by_cases h : k = a
    · simpa [storeErase, h] using ih
    · simpa [storeErase, storeRead, h] using ih

theorem storeRead_erase_other (dflt : α) (m : List (Nat × α)) {a b : Nat} (hb : b ≠ a) :
    storeRead dflt (storeErase m a) b = storeRead dflt m b := by
  induction m with
  | nil => rfl
  | cons kv t ih =>
    obtain ⟨k, v⟩ := kv
    by_cases h : k = a
    · subst h
      simpa [storeErase, storeRead, Ne.symm hb] using ih
    · by_cases h2 : k = b
      · simp [storeErase, storeRead, h2, hb]
      · simpa [storeErase, storeRead, h, h2] using ih

theorem storeRead_insert (dflt : α) (m : List (Nat × α)) (a b : Nat) (v : α)
    (ha : storeErase m a = m) :
    storeRead dflt (storeInsert m a v) b = if b = a then v else storeRead dflt m b := by
  induction m with
  | nil => by_cases h : a = b <;> simp [storeInsert, storeRead, h, eq_comm]
  | cons kv t ih =>
    obtain ⟨k, w⟩ := kv
    have hk : k ≠ a := by
      intro h
      have := congrArg List.length ha
      simp only [storeErase, h, List.filter_cons] at this
      have hle := List.length_filter_le (fun kv : Nat × α => kv.1 ≠ a) t
      simp at this
      simp at hle
      omega
    have ht : storeErase t a = t := by simpa [storeErase, hk] using ha
    by_cases hlt : a < k
    · by_cases h : b = a
      · simp [storeInsert, storeRead, hlt, h]
      · simp [storeInsert, storeRead, hlt, h, Ne.symm h]
    · by_cases h2 : k = b
      · subst h2
        simp [storeInsert, storeRead, hlt, hk]
      · simp [storeInsert, storeRead, hlt, h2, ih ht]

theorem storeErase_idem (m : List (Nat × α)) (a : Nat) : storeErase (storeErase m a) a = storeErase m a := by
  simp [storeErase, List.filter_filter]

/-- A read after a write: the key written reads the value, every other key reads as before. -/
theorem storeRead_write [DecidableEq α] (dflt : α) (m : List (Nat × α)) (a b : Nat) (v : α) :
    storeRead dflt (storeWrite dflt m a v) b = if b = a then v else storeRead dflt m b := by
  unfold storeWrite
  by_cases hv : v = dflt
  · subst hv
    by_cases h : b = a
    · subst h; simp [storeRead_erase_same]
    · simp [storeRead_erase_other _ _ h, h]
  · rw [if_neg hv, storeRead_insert _ _ _ _ _ (storeErase_idem m a)]
    by_cases h : b = a
    · simp [h]
    · simp [h, storeRead_erase_other _ _ h]

theorem storeRising_mono {lo lo' : Nat} (h : lo' ≤ lo) (m : List (Nat × α)) (hm : storeRising lo m = true) :
    storeRising lo' m = true := by
  cases m with
  | nil => rfl
  | cons kv t =>
    simp only [storeRising, Bool.and_eq_true, decide_eq_true_eq] at hm ⊢
    exact ⟨le_trans h hm.1, hm.2⟩

theorem storeRising_erase (lo : Nat) (m : List (Nat × α)) (a : Nat) (hm : storeRising lo m = true) :
    storeRising lo (storeErase m a) = true := by
  induction m generalizing lo with
  | nil => rfl
  | cons kv t ih =>
    obtain ⟨k, v⟩ := kv
    simp only [storeRising, Bool.and_eq_true, decide_eq_true_eq] at hm
    by_cases h : k = a
    · have := storeRising_mono (lo' := lo) (by omega) _ (ih _ hm.2)
      simpa [storeErase, h] using this
    · simpa [storeErase, h, storeRising, hm.1] using ih _ hm.2

theorem storeRising_insert (lo : Nat) (m : List (Nat × α)) (a : Nat) (v : α) (hm : storeRising lo m = true)
    (hlo : lo ≤ a) (ha : ∀ kv ∈ m, kv.1 ≠ a) : storeRising lo (storeInsert m a v) = true := by
  induction m generalizing lo with
  | nil => simp [storeInsert, storeRising, hlo]
  | cons kv t ih =>
    obtain ⟨k, w⟩ := kv
    simp only [storeRising, Bool.and_eq_true, decide_eq_true_eq] at hm
    have hk : k ≠ a := ha (k, w) (by simp)
    by_cases h : a < k
    · simp [storeInsert, h, storeRising, hlo, hm.2, Nat.succ_le_of_lt h]
    · simp [storeInsert, h, storeRising, hm.1,
        ih (k + 1) hm.2 (by omega) (fun kv hkv => ha kv (List.mem_cons_of_mem _ hkv))]

theorem mem_storeInsert (m : List (Nat × α)) (a : Nat) (v : α) (kv : Nat × α) :
    kv ∈ storeInsert m a v ↔ kv = (a, v) ∨ kv ∈ m := by
  induction m with
  | nil => simp [storeInsert]
  | cons x t ih =>
    obtain ⟨k, w⟩ := x
    by_cases h : a < k
    · simp [storeInsert, h]
    · simp [storeInsert, h, ih]; tauto

/-- Every entry of a store after a write is the one written or one that was there. -/
theorem mem_storeWrite [DecidableEq α] (dflt : α) (m : List (Nat × α)) (a : Nat) (v : α) (kv : Nat × α)
    (h : kv ∈ storeWrite dflt m a v) : kv = (a, v) ∨ kv ∈ m := by
  unfold storeWrite at h
  split at h
  · exact .inr (List.mem_filter.mp h).1
  · rcases (mem_storeInsert _ _ _ _).mp h with h | h
    · exact .inl h
    · exact .inr (List.mem_filter.mp h).1

/-- A write keeps the canonical form. -/
theorem storeWrite_wf [DecidableEq α] (dflt : α) (m : List (Nat × α)) (a : Nat) (v : α) (hm : storeWf dflt m = true) :
    storeWf dflt (storeWrite dflt m a v) = true := by
  simp only [storeWf, Bool.and_eq_true, List.all_eq_true, decide_eq_true_eq] at hm ⊢
  refine ⟨?_, ?_⟩
  · unfold storeWrite
    split
    · exact storeRising_erase _ _ _ hm.1
    · refine storeRising_insert _ _ _ _ (storeRising_erase _ _ _ hm.1) (Nat.zero_le _) ?_
      intro kv hkv
      simpa using (List.mem_filter.mp hkv).2
  · intro kv hkv
    unfold storeWrite at hkv
    split at hkv
    · exact hm.2 _ (List.mem_filter.mp hkv).1
    · next hv =>
      rcases (mem_storeInsert _ _ _ _).mp hkv with h | h
      · simpa [h] using hv
      · exact hm.2 _ (List.mem_filter.mp h).1

/-- A register read after a register write. -/
theorem Memory.read_write (m : Memory) (a b : Addr) (d : Byte) :
    (m.write a d).read b = if b = a then d else m.read b := by
  simp only [Memory.read, Memory.write, storeRead_write, BitVec.toNat_inj]

/-- A register write keeps the canonical form. -/
theorem Memory.write_wf (m : Memory) (a : Addr) (d : Byte) (hm : m.wf = true) : (m.write a d).wf = true :=
  storeWrite_wf _ _ _ _ hm

/-- A frame read after a frame write. -/
theorem slotRead_write (buf : List (Nat × Frame)) (a b : Nat) (f : Frame) :
    slotRead (slotWrite buf a f) b = if b = a then f else slotRead buf b := storeRead_write _ _ _ _ _

/-- A frame write keeps the canonical form. -/
theorem slotWrite_wf (buf : List (Nat × Frame)) (a : Nat) (f : Frame) (h : storeWf silence buf = true) :
    storeWf silence (slotWrite buf a f) = true := storeWrite_wf _ _ _ _ h

end Sys2Proof.Machine
end

