-- ==== Sys2Proof/Laws/Ops.lean ====
section
/-! SUPPORT. What the shared operations do: `Update()`, the register write, the conditions, the observation. -/

namespace Sys2Proof.Machine

@[simp] theorem update_cfg (s : State) : (update s).cfg = s.cfg := rfl
@[simp] theorem update_cyc (s : State) : (update s).cyc = s.cyc := rfl
@[simp] theorem update_reg (s : State) : (update s).reg = s.reg := rfl
@[simp] theorem update_p1 (s : State) : (update s).p1 = s.p1 := rfl
@[simp] theorem update_p2 (s : State) : (update s).p2 = s.p2 := rfl
@[simp] theorem update_tri (s : State) : (update s).tri = s.tri := rfl
@[simp] theorem update_noise (s : State) : (update s).noise = s.noise := rfl
@[simp] theorem update_fs (s : State) : (update s).fs = s.fs := rfl
@[simp] theorem update_rs (s : State) : (update s).rs = s.rs := rfl
@[simp] theorem update_sink (s : State) : (update s).sink = s.sink := rfl
@[simp] theorem update_diag (s : State) : (update s).diag = s.diag := rfl
@[simp] theorem update_host (s : State) : (update s).host = s.host := rfl

/-- The mixer reads the configuration and the channels only. -/
theorem mixNow_congr {s t : State} (hc : t.cfg = s.cfg) (h : SameChannels s t) : mixNow t = mixNow s := by
  simp only [mixNow, hc, h.p1, h.p2, h.tri, h.noise]

@[simp] theorem mixNow_update (s : State) : mixNow (update s) = mixNow s :=
  mixNow_congr (by simp) ⟨by simp, by simp, by simp, by simp⟩

/-- After `Update()` the last amplitude is the mixer's output. -/
theorem update_lastAmp (s : State) : (update s).lastAmp = mixNow s := rfl

/-- `Update()` appends an event exactly when the mixer's output changed. -/
theorem update_events (s : State) :
    (update s).events = if mixNow s = s.lastAmp then s.events else s.events ++ [⟨now s, mixNow s⟩] := rfl

/-- An effect that writes channel records only. -/
structure ChannelEffect (f : State → State) : Prop where
  cfg : ∀ s, (f s).cfg = s.cfg
  cyc : ∀ s, (f s).cyc = s.cyc
  reg : ∀ s, (f s).reg = s.reg
  fs : ∀ s, (f s).fs = s.fs
  events : ∀ s, (f s).events = s.events
  lastAmp : ∀ s, (f s).lastAmp = s.lastAmp
  rs : ∀ s, (f s).rs = s.rs
  sink : ∀ s, (f s).sink = s.sink
  diag : ∀ s, (f s).diag = s.diag
  host : ∀ s, (f s).host = s.host

theorem channelEffect_id : ChannelEffect id :=
  ⟨fun _ => rfl, fun _ => rfl, fun _ => rfl, fun _ => rfl, fun _ => rfl, fun _ => rfl, fun _ => rfl, fun _ => rfl,
    fun _ => rfl, fun _ => rfl⟩

theorem channelEffect_withP1 (f : State → Pulse) : ChannelEffect (fun s => s.withP1 (f s)) :=
  ⟨fun _ => rfl, fun _ => rfl, fun _ => rfl, fun _ => rfl, fun _ => rfl, fun _ => rfl, fun _ => rfl, fun _ => rfl,
    fun _ => rfl, fun _ => rfl⟩

theorem channelEffect_withP2 (f : State → Pulse) : ChannelEffect (fun s => s.withP2 (f s)) :=
  ⟨fun _ => rfl, fun _ => rfl, fun _ => rfl, fun _ => rfl, fun _ => rfl, fun _ => rfl, fun _ => rfl, fun _ => rfl,
    fun _ => rfl, fun _ => rfl⟩

theorem channelEffect_withTri (f : State → Triangle) : ChannelEffect (fun s => s.withTri (f s)) :=
  ⟨fun _ => rfl, fun _ => rfl, fun _ => rfl, fun _ => rfl, fun _ => rfl, fun _ => rfl, fun _ => rfl, fun _ => rfl,
    fun _ => rfl, fun _ => rfl⟩

theorem channelEffect_withNoise (f : State → Noise) : ChannelEffect (fun s => s.withNoise (f s)) :=
  ⟨fun _ => rfl, fun _ => rfl, fun _ => rfl, fun _ => rfl, fun _ => rfl, fun _ => rfl, fun _ => rfl, fun _ => rfl,
    fun _ => rfl, fun _ => rfl⟩

theorem channelEffect_status (d : Byte) : ChannelEffect (statusWrite d) :=
  ⟨fun _ => rfl, fun _ => rfl, fun _ => rfl, fun _ => rfl, fun _ => rfl, fun _ => rfl, fun _ => rfl, fun _ => rfl,
    fun _ => rfl, fun _ => rfl⟩

/-- Everything a register write does beside its own effect. -/
theorem apuWrite_writeFrame {f : State → State} (hf : ChannelEffect f) (a : Addr) (d : Byte) (s : State) :
    WriteFrame a d s (apuWrite a d f s) := by
  refine ⟨?_, ?_, ?_, ?_, ?_, ?_, ?_, ?_, ?_, ?_⟩
  · intro b; simp [apuWrite, hf.reg, Memory.read_write]
  · simp [apuWrite, update_lastAmp]
  · simp [apuWrite, update_events, hf.events, hf.lastAmp, now, hf.cyc, hf.cfg]
  · simp [apuWrite, hf.cfg]
  · simp [apuWrite, hf.cyc]
  · simp [apuWrite, hf.fs]
  · simp [apuWrite, hf.rs]
  · simp [apuWrite, hf.sink]
  · simp [apuWrite, hf.diag]
  · simp [apuWrite, hf.host]

/-- A register write changes the register file by one write. -/
theorem apuWrite_reg {f : State → State} (hf : ChannelEffect f) (a : Addr) (d : Byte) (s : State) :
    (apuWrite a d f s).reg = s.reg.write a d := by
  simp [apuWrite, hf.reg]

/-- The channel records after a register write are those its effect leaves. -/
theorem apuWrite_channels (f : State → State) (a : Addr) (d : Byte) (s : State) :
    SameChannels (f (s.withReg (s.reg.write a d))) (apuWrite a d f s) :=
  ⟨by simp [apuWrite], by simp [apuWrite], by simp [apuWrite], by simp [apuWrite]⟩

/-- A condition leaves its record in `diag` and nothing else. -/
theorem raiseCondition_sameAudio (c : Condition) (s : State) : SameAudio s (raiseCondition c s) := by
  cases c <;> exact ⟨⟨rfl, rfl, rfl, rfl⟩, rfl, rfl, rfl, rfl, rfl, rfl⟩

@[simp] theorem raiseCondition_rs (c : Condition) (s : State) : (raiseCondition c s).rs = s.rs := by cases c <;> rfl
@[simp] theorem raiseCondition_sink (c : Condition) (s : State) : (raiseCondition c s).sink = s.sink := by cases c <;> rfl
@[simp] theorem raiseCondition_host (c : Condition) (s : State) : (raiseCondition c s).host = s.host := by cases c <;> rfl
@[simp] theorem raiseCondition_cfg (c : Condition) (s : State) : (raiseCondition c s).cfg = s.cfg := by cases c <;> rfl

/-- Setting the list operand changes the host's side only. -/
theorem setOperand_sameBlock (op : Operand) (s : State) : SameBlock s (setOperand op s) :=
  ⟨⟨⟨rfl, rfl, rfl, rfl⟩, rfl, rfl, rfl, rfl, rfl, rfl⟩, rfl, rfl, rfl⟩

@[simp] theorem setOperand_host (op : Operand) (s : State) : (setOperand op s).host = { s.host with operand := op } := rfl
@[simp] theorem setOperand_cfg (op : Operand) (s : State) : (setOperand op s).cfg = s.cfg := rfl
@[simp] theorem setOperand_rs (op : Operand) (s : State) : (setOperand op s).rs = s.rs := rfl
@[simp] theorem setOperand_sink (op : Operand) (s : State) : (setOperand op s).sink = s.sink := rfl
@[simp] theorem setOperand_diag (op : Operand) (s : State) : (setOperand op s).diag = s.diag := rfl

/-- The high field of a joined period. -/
theorem extract_append_high (a : BitVec 3) (b : Byte) : BitVec.extractLsb' 8 3 (a ++ b) = a := by
  ext i hi
  simp only [BitVec.getElem_extractLsb', BitVec.getLsbD_append]
  simp [hi]

/-- The low field of a joined period. -/
theorem extract_append_low (a : BitVec 3) (b : Byte) : BitVec.extractLsb' 0 8 (a ++ b) = b := by
  ext i hi
  simp only [BitVec.getElem_extractLsb', BitVec.getLsbD_append]
  simp [hi]

/-- A write to an address other than a period's two bytes keeps the period's agreement with them. -/
theorem periodFromBytes_write_other {m : Memory} {base a : Addr} {d : Byte} {p : BitVec 11} (h3 : base + 3#16 ≠ a)
    (h2 : base + 2#16 ≠ a) (h : PeriodFromBytes m base p) : PeriodFromBytes (m.write a d) base p := by
  unfold PeriodFromBytes periodOfBytes at *
  rw [Memory.read_write, Memory.read_write, if_neg h3, if_neg h2, h]

/-- A write of the low byte with its effect keeps the agreement (30_encoding.md R144). -/
theorem periodFromBytes_write_low {m : Memory} {base : Addr} {d : Byte} {p : BitVec 11} (hb : base + 3#16 ≠ base + 2#16)
    (h : PeriodFromBytes m base p) : PeriodFromBytes (m.write (base + 2#16) d) base (withPeriodLow p d) := by
  unfold PeriodFromBytes at *
  rw [periodOfBytes, Memory.read_write, Memory.read_write, if_neg hb, if_pos rfl, withPeriodLow, h, periodOfBytes]
  exact congrArg (· ++ d) (extract_append_high _ _)

/-- A write of the high byte with its effect keeps the agreement (30_encoding.md R144). -/
theorem periodFromBytes_write_high {m : Memory} {base : Addr} {d : Byte} {p : BitVec 11} (hb : base + 2#16 ≠ base + 3#16)
    (h : PeriodFromBytes m base p) : PeriodFromBytes (m.write (base + 3#16) d) base (withPeriodHigh p d) := by
  unfold PeriodFromBytes at *
  rw [periodOfBytes, Memory.read_write, Memory.read_write, if_pos rfl, if_neg hb, withPeriodHigh, h, periodOfBytes]
  exact congrArg (d.extractLsb' 0 3 ++ ·) (extract_append_low _ _)

/-- A write of either byte on a channel whose period agrees with its bytes assembles the period from the bytes as they
are after the write (R144), so there R286, R287, R333 and R334 are that rule. -/
theorem withPeriod_eq_periodOfBytes {m : Memory} {base : Addr} {d : Byte} {p : BitVec 11}
    (hb : base + 2#16 ≠ base + 3#16) (h : PeriodFromBytes m base p) :
    withPeriodLow p d = periodOfBytes (m.write (base + 2#16) d) base
      ∧ withPeriodHigh p d = periodOfBytes (m.write (base + 3#16) d) base :=
  ⟨periodFromBytes_write_low hb.symm h, periodFromBytes_write_high hb h⟩

end Sys2Proof.Machine
end

