-- ==== Sys2Proof/Laws/Bus.lean ====
section
/-! SUPPORT. The bus addresses, and what a register's own effect changes (40_bus.md R200). -/

namespace Sys2Proof.Machine

/-- The bus addresses the block decodes, one by one (10_state.md R31). -/
theorem isApuAddr_mem {a : Addr} (h : isApuAddr a = true) :
    a ∈ [0x4000#16, 0x4001#16, 0x4002#16, 0x4003#16, 0x4004#16, 0x4005#16, 0x4006#16, 0x4007#16, 0x4008#16,
      0x4009#16, 0x400A#16, 0x400B#16, 0x400C#16, 0x400D#16, 0x400E#16, 0x400F#16, 0x4010#16, 0x4011#16, 0x4012#16,
      0x4013#16, 0x4015#16, 0x4017#16] := by
  have h0 := a.isLt
  simp [isApuAddr, BitVec.le_def] at h
  simp only [List.mem_cons, List.not_mem_nil, or_false, ← BitVec.toNat_inj, BitVec.toNat_ofNat] at *
  omega

/-- An address outside the set is none of the decoder's register addresses. -/
theorem ne_of_not_isApuAddr {a b : Addr} (h : isApuAddr a = false) (hb : isApuAddr b = true) : a ≠ b := by
  rintro rfl
  simp [hb] at h

theorem channelEffect_ite (p : Prop) [Decidable p] {f g : State → State} (hf : ChannelEffect f) (hg : ChannelEffect g) :
    ChannelEffect (fun s => if p then f s else g s) := by
  by_cases h : p <;> simpa [h]

/-- A register's own effect writes channel records only. -/
theorem channelEffect_registerEffect (a : Addr) (d : Byte) : ChannelEffect (registerEffect a d) := by
  unfold registerEffect
  iterate 4 refine channelEffect_ite _ (channelEffect_withP1 _) ?_
  iterate 4 refine channelEffect_ite _ (channelEffect_withP2 _) ?_
  iterate 3 refine channelEffect_ite _ (channelEffect_withTri _) ?_
  iterate 3 refine channelEffect_ite _ (channelEffect_withNoise _) ?_
  exact channelEffect_ite _ (channelEffect_status d) channelEffect_id

end Sys2Proof.Machine
end

