-- ==== Sys2Proof/Laws/Config.lean ====
section
/-! SUPPORT. What a configuration that passes the construction checks gives (60_exceptions.md R600). -/

namespace Sys2Proof.Machine

/-- What passing R600's checks says of the resampler's parameters, the clocks and the sink's geometry. -/
structure CfgParams (c : Cfg) : Prop where
  even : c.phaseCount % 2 = 0
  radius : 1 ≤ c.radius
  phases : 2 ≤ c.phaseCount
  rate : 0 < c.sampleRate
  clock : 0 < c.clockHz
  capacity : 1 ≤ Machine.capacity c
  low : 0 ≤ lowWm c
  lowHigh : lowWm c < highWm c
  high : highWm c ≤ Machine.capacity c
  grace : 0 ≤ c.underrunGrace
  noise : ∀ n ∈ c.noiseNtsc ++ c.noisePal, n ≤ 4095
  steps : frameStepsOk c = true

/-- What passing R600's checks says of the tables. -/
structure CfgShapes (c : Cfg) : Prop where
  kernel : kernelShapeOk c = true
  length : c.lengthTable.length = 32
  lengths : ∀ n ∈ c.lengthTable, n ≤ 254
  duty : c.dutyTable.length = 4
  duties : ∀ row ∈ c.dutyTable, row.length = 8 ∧ ∀ n ∈ row, n ≤ 1
  tri : c.triTable.length = 32
  tris : ∀ n ∈ c.triTable, n ≤ 15
  ntsc : c.noiseNtsc.length = 16
  pal : c.noisePal.length = 16

theorem cfgParams_of_paramsOk {c : Cfg} (he : c.phaseCount % 2 = 0) (h : paramsOk c = true) : CfgParams c := by
  simp only [paramsOk, sinkGeometryOk, Bool.and_eq_true, List.all_eq_true, decide_eq_true_eq] at h
  obtain ⟨⟨⟨⟨⟨⟨⟨h1, h2⟩, h3⟩, h4⟩, h5⟩, ⟨⟨h6, h7⟩, h8⟩, h9⟩, h10⟩, h11⟩ := h
  exact ⟨he, h1, h2, h3, h4, h6, h7, h8, h9, h10, h11, h5⟩

theorem cfgShapes_of_shapesOk {c : Cfg} (h : shapesOk c = true) : CfgShapes c := by
  simp only [shapesOk, Bool.and_eq_true, List.all_eq_true, decide_eq_true_eq, beq_iff_eq] at h
  obtain ⟨⟨⟨⟨⟨⟨⟨⟨h1, h2⟩, h3⟩, h4⟩, h5⟩, h6⟩, h7⟩, h8⟩, h9⟩ := h
  exact ⟨h1, h2, h3, h4, h5, h6, h7, h8, h9⟩

/-- A configuration that passes the checks passes them both. -/
theorem checkCfg_ok {c : Cfg} (h : checkCfg c = none) : CfgParams c ∧ CfgShapes c := by
  unfold checkCfg at h
  split_ifs at h with h1 h2 h3
  exact ⟨cfgParams_of_paramsOk (by omega) (by simpa using h2), cfgShapes_of_shapesOk (by simpa using h3)⟩

/-- Every look-up in a checked noise table gives the table's own value. -/
theorem noisePeriodOf_toNat {c : Cfg} (h : checkCfg c = none) (rate : BitVec 4) :
    (noiseTable c)[rate.toNat]? = some (noisePeriodOf c rate).toNat := by
  obtain ⟨hp, hs⟩ := checkCfg_ok h
  have hl : (noiseTable c).length = 16 := by
    unfold noiseTable
    split
    · exact hs.ntsc
    · exact hs.pal
  have hlt : rate.toNat < (noiseTable c).length := by rw [hl]; exact rate.isLt
  have hm : (noiseTable c)[rate.toNat] ≤ 4095 := by
    refine hp.noise _ ?_
    have hmem := List.getElem_mem hlt
    revert hmem
    generalize (noiseTable c)[rate.toNat] = n
    unfold noiseTable
    split <;> intro hmem <;> simp [hmem]
  simp only [noisePeriodOf, List.getD, List.getElem?_eq_getElem hlt, Option.getD_some, BitVec.toNat_ofNat]
  rw [Nat.mod_eq_of_lt (by omega)]

end Sys2Proof.Machine
end

