-- ==== Sys2Proof/Laws/Encoding.lean ====
section
/-! SUPPORT. The fields of a command word, and what the decoder reads from an assembled word (30_encoding.md R140). -/

namespace Sys2Proof

/-- The fields of an assembled word with an address and a data byte. -/
theorem fields_append (c r : BitVec 4) (a : Addr) (d : Byte) :
    classOf (c ++ r ++ a ++ d) = c ∧ rsvOf (c ++ r ++ a ++ d) = r ∧ addrOf (c ++ r ++ a ++ d) = a
      ∧ dataOf (c ++ r ++ a ++ d) = d := by
  have ha := a.isLt
  have hd := d.isLt
  have hc := c.isLt
  have hr := r.isLt
  have h : (c ++ r ++ a ++ d).toNat = ((c.toNat * 16 + r.toNat) * 65536 + a.toNat) * 256 + d.toNat := by
    simp only [BitVec.toNat_append]
    rw [← Nat.shiftLeft_add_eq_or_of_lt hd, ← Nat.shiftLeft_add_eq_or_of_lt ha, ← Nat.shiftLeft_add_eq_or_of_lt hr]
    simp only [Nat.shiftLeft_eq]
  refine ⟨?_, ?_, ?_, ?_⟩ <;> apply BitVec.eq_of_toNat_eq <;>
    simp only [classOf, rsvOf, addrOf, dataOf, BitVec.extractLsb'_toNat, h, Nat.shiftRight_eq_div_pow] <;> omega

/-- The fields of an assembled word with a 24-bit argument. -/
theorem fields_append_arg (c r : BitVec 4) (k : BitVec 24) :
    classOf (c ++ r ++ k) = c ∧ rsvOf (c ++ r ++ k) = r ∧ argOf (c ++ r ++ k) = k := by
  have hk := k.isLt
  have hc := c.isLt
  have hr := r.isLt
  have h : (c ++ r ++ k).toNat = (c.toNat * 16 + r.toNat) * 16777216 + k.toNat := by
    simp only [BitVec.toNat_append]
    rw [← Nat.shiftLeft_add_eq_or_of_lt hk, ← Nat.shiftLeft_add_eq_or_of_lt hr]
    simp only [Nat.shiftLeft_eq]
  refine ⟨?_, ?_, ?_⟩ <;> apply BitVec.eq_of_toNat_eq <;>
    simp only [classOf, rsvOf, argOf, BitVec.extractLsb'_toNat, h, Nat.shiftRight_eq_div_pow] <;> omega

/-- A word is its fields. -/
theorem word_eq_fields (w : Word) : w = classOf w ++ rsvOf w ++ addrOf w ++ dataOf w := by
  have ha := (addrOf w).isLt
  have hd := (dataOf w).isLt
  have hr := (rsvOf w).isLt
  apply BitVec.eq_of_toNat_eq
  simp only [BitVec.toNat_append]
  rw [← Nat.shiftLeft_add_eq_or_of_lt hd, ← Nat.shiftLeft_add_eq_or_of_lt ha, ← Nat.shiftLeft_add_eq_or_of_lt hr]
  simp only [Nat.shiftLeft_eq, classOf, rsvOf, addrOf, dataOf, BitVec.extractLsb'_toNat, Nat.shiftRight_eq_div_pow]
  have := w.isLt
  omega

/-- A word is its class, its reserved bits and its argument. -/
theorem word_eq_fields_arg (w : Word) : w = classOf w ++ rsvOf w ++ argOf w := by
  have ha := (argOf w).isLt
  have hr := (rsvOf w).isLt
  apply BitVec.eq_of_toNat_eq
  simp only [BitVec.toNat_append]
  rw [← Nat.shiftLeft_add_eq_or_of_lt ha, ← Nat.shiftLeft_add_eq_or_of_lt hr]
  simp only [Nat.shiftLeft_eq, classOf, rsvOf, argOf, BitVec.extractLsb'_toNat, Nat.shiftRight_eq_div_pow]
  have := w.isLt
  omega

/-- The fields of a `WR` word. -/
theorem encodeWr_fields (a : Addr) (d : Byte) :
    classOf (encodeWr a d) = 0#4 ∧ rsvOf (encodeWr a d) = 0#4 ∧ addrOf (encodeWr a d) = a ∧ dataOf (encodeWr a d) = d :=
  fields_append 0#4 0#4 a d

/-- A `WR` word decodes to the row of its address. -/
theorem decode_encodeWr (a : Addr) (d : Byte) : decode (encodeWr a d) = .ok (decodeWr a d) := by
  simp [decode, encodeWr_fields a d]

/-- The fields of a `RD` word. -/
theorem rd_fields (a : Addr) :
    classOf (0x10#8 ++ a ++ 0x00#8) = 1#4 ∧ rsvOf (0x10#8 ++ a ++ 0x00#8) = 0#4 ∧ addrOf (0x10#8 ++ a ++ 0x00#8) = a
      ∧ dataOf (0x10#8 ++ a ++ 0x00#8) = 0#8 :=
  fields_append 1#4 0#4 a 0#8

/-- A `RD` word decodes for the APU addresses only. -/
theorem decode_rd (a : Addr) :
    decode (0x10#8 ++ a ++ 0x00#8) = if Machine.isApuAddr a then .ok (.rd a) else .error .rdNonApu := by
  simp [decode, rd_fields a, decodeRd]

/-- The fields of a `DEVADV` word. -/
theorem devadv_fields (k : BitVec 24) :
    classOf (0x70#8 ++ k) = 7#4 ∧ rsvOf (0x70#8 ++ k) = 0#4 ∧ argOf (0x70#8 ++ k) = k :=
  fields_append_arg 7#4 0#4 k

/-- A `DEVADV` word decodes. -/
theorem decode_devadv (k : BitVec 24) : decode (0x70#8 ++ k) = .ok (.devadv k) := by
  simp [decode, devadv_fields k]

/-- An address outside the set takes the catch-all row. -/
theorem decodeWr_of_not_isApuAddr {a : Addr} (d : Byte) (h : Machine.isApuAddr a = false) :
    decodeWr a d = .wrNonapu a d := by
  unfold decodeWr
  repeat (rw [if_neg (Machine.ne_of_not_isApuAddr h (by decide))])

/-- The word of the row of an address is the `WR` word, and the row is well-formed. -/
theorem encode_decodeWr (a : Addr) (d : Byte) : encode (decodeWr a d) = encodeWr a d ∧ (decodeWr a d).wf = true := by
  cases h : Machine.isApuAddr a
  · rw [decodeWr_of_not_isApuAddr d h]
    simp [encode, Instr.wf, h]
  · have hm := Machine.isApuAddr_mem h
    simp only [List.mem_cons, List.not_mem_nil, or_false] at hm
    rcases hm with rfl | rfl | rfl | rfl | rfl | rfl | rfl | rfl | rfl | rfl | rfl | rfl | rfl | rfl | rfl | rfl | rfl |
      rfl | rfl | rfl | rfl | rfl <;> exact ⟨rfl, rfl⟩

/-- Two words joined are equal when their parts are. -/
theorem append_inj_iff {n m : Nat} (a b : BitVec n) (c d : BitVec m) : (a ++ c = b ++ d) ↔ a = b ∧ c = d := by
  constructor
  · intro h
    have hc := c.isLt
    have hd := d.isLt
    have ht := congrArg BitVec.toNat h
    simp only [BitVec.toNat_append] at ht
    rw [← Nat.shiftLeft_add_eq_or_of_lt hc, ← Nat.shiftLeft_add_eq_or_of_lt hd] at ht
    simp only [Nat.shiftLeft_eq] at ht
    have h1 : c.toNat = d.toNat := by
      have := congrArg (· % 2 ^ m) ht
      simpa [Nat.mod_eq_of_lt hc, Nat.mod_eq_of_lt hd] using this
    rw [h1] at ht
    have h2 : a.toNat = b.toNat := Nat.eq_of_mul_eq_mul_right (by positivity) (Nat.add_right_cancel ht)
    exact ⟨BitVec.eq_of_toNat_eq h2, BitVec.eq_of_toNat_eq h1⟩
  · rintro ⟨rfl, rfl⟩
    rfl

/-- Masking a word masks its fields. -/
theorem append_and_eq_iff (c r m1 m2 p1 p2 : BitVec 4) (a m3 p3 : Addr) (d m4 p4 : Byte) :
    (c ++ r ++ a ++ d) &&& (m1 ++ m2 ++ m3 ++ m4) = p1 ++ p2 ++ p3 ++ p4 ↔
      c &&& m1 = p1 ∧ r &&& m2 = p2 ∧ a &&& m3 = p3 ∧ d &&& m4 = p4 := by
  simp only [BitVec.and_append, append_inj_iff, and_assoc]

/-- A row of the opcode map matches a word field by field. -/
theorem row_match (row : OpcodeRow) (w : Word) :
    (w &&& row.mask = row.pattern) ↔
      classOf w &&& classOf row.mask = classOf row.pattern ∧ rsvOf w &&& rsvOf row.mask = rsvOf row.pattern
        ∧ addrOf w &&& addrOf row.mask = addrOf row.pattern ∧ dataOf w &&& dataOf row.mask = dataOf row.pattern := by
  conv_lhs => rw [word_eq_fields w, word_eq_fields row.mask, word_eq_fields row.pattern]
  exact append_and_eq_iff _ _ _ _ _ _ _ _ _ _ _ _

end Sys2Proof
end

