-- ==== Sys2Proof/Laws/Sample.lean ====
section
/-! SUPPORT. The value of samples: addition is exact, and the shares of one event make up its step. -/

namespace Sys2Proof.Machine

variable {F : Type} [Field F]

/-- The value of a list of terms. -/
theorem value_mk (g : Nat → F) (l : List (Nat × Rat)) :
    (Sample.mk l).value g = (l.map (fun kv => (kv.2 : F) * g kv.1)).sum := rfl

@[simp] theorem Sample.value_zero (g : Nat → F) : Sample.zero.value g = 0 := rfl

@[simp] theorem Sample.value_ofRat (g : Nat → F) (q : Rat) : (Sample.ofRat q).value g = (q : F) * g 0 := by
  unfold Sample.ofRat Sample.value
  by_cases h : q = 0 <;> simp [h]

@[simp] theorem Sample.value_given (g : Nat → F) (n : Nat) : (Sample.given n).value g = g (2 * n + 1) := by
  simp [Sample.given, Sample.value]

theorem addTerm_value [CharZero F] (g : Nat → F) (k : Nat) (v : Rat) (l : List (Nat × Rat)) :
    ((addTerm k v l).map (fun kv => (kv.2 : F) * g kv.1)).sum
      = (l.map (fun kv => (kv.2 : F) * g kv.1)).sum + (v : F) * g k := by
  induction l with
  | nil => by_cases h : v = 0 <;> simp [addTerm, h]
  | cons x t ih =>
    obtain ⟨a, w⟩ := x
    unfold addTerm
    split_ifs with h1 h2 h3 h4
    · simp [h2]
    · simp; ring
    · subst h3
      have : (w : F) + v = 0 := by exact_mod_cast h4
      have hw : (w : F) = -v := eq_neg_of_add_eq_zero_left this
      simp [hw]
    · subst h3; simp; ring
    · simp [ih]; ring

/-- The value of a sum of samples is the sum of their values. -/
@[simp] theorem Sample.value_add [CharZero F] (g : Nat → F) (x y : Sample) : (x.add y).value g = x.value g + y.value g := by
  obtain ⟨x⟩ := x
  obtain ⟨y⟩ := y
  simp only [Sample.add, value_mk]
  induction y generalizing x with
  | nil => simp
  | cons kv t ih => simp [ih, addTerm_value]; ring

theorem foldl_add_value [CharZero F] (g : Nat → F) (l : List Sample) (a : Sample) :
    (l.foldl Sample.add a).value g = a.value g + (l.map (fun x => x.value g)).sum := by
  induction l generalizing a with
  | nil => simp
  | cons x t ih => simp [ih]; ring

/-- The value of a list's sum. -/
theorem Sample.value_sum [CharZero F] (g : Nat → F) (l : List Sample) :
    (Sample.sum l).value g = (l.map (fun x => x.value g)).sum := by
  simp [Sample.sum, foldl_add_value]

/-- The value of one term `w · G(p, i)`, from the value `G` of the step response. -/
theorem stepResponse_value (g : Nat → F) (c : Cfg) (p i : Nat) (w : Rat) :
    (stepResponse c p i w).value g
      = (w : F) * (if i = 0 ∨ (2 * (p : Int) = c.phaseCount ∧ i = 1) then 0
          else if (i : Int) = 2 * c.radius then g 0 else g (2 * (p * (2 * c.radius.toNat) + i))) := by
  unfold stepResponse
  split_ifs with h1 h2 h3
  · simp
  · simp
  · simp [Sample.value, h3]
  · simp [Sample.value]

theorem sum_range_telescope (G : Nat → F) (n : Nat) :
    ((List.range n).map (fun j => G (j + 1) - G j)).sum = G n - G 0 := by
  induction n with
  | zero => simp
  | succ n ih => simp [List.range_succ, ih]

theorem map_getD_range {α : Type} (l : List α) (d : α) :
    (List.range l.length).map (fun j => l.getD j d) = l := by
  apply List.ext_getElem
  · simp
  · intro i h1 h2
    simp [List.getD, List.getElem?_eq_getElem h2]

/-- A negated term has the negated value. -/
theorem stepResponse_value_neg (g : Nat → F) (c : Cfg) (p i : Nat) (w : Rat) :
    (stepResponse c p i (-w)).value g = -(stepResponse c p i w).value g := by
  rw [stepResponse_value, stepResponse_value, Rat.cast_neg, neg_mul]

/-- The value of a share of the table of R481: a difference of two step responses. -/
theorem kernelShare_value_none [CharZero F] (g : Nat → F) (c : Cfg) (hk : c.kernel = none) (p j : Nat) (w : Rat) :
    (kernelShare c p j w).value g = (stepResponse c p (j + 1) w).value g - (stepResponse c p j w).value g := by
  simp only [kernelShare, hk, Sample.value_add, stepResponse_value_neg]; ring

/-- The shares of a step over one row sum to the step (R481: "every row sums to exactly 1"), for the table of R481. -/
theorem kernelShare_sum_none [CharZero F] (g : Nat → F) (c : Cfg) (hk : c.kernel = none) (hr : 1 ≤ c.radius) (p : Nat)
    (w : Rat) :
    ((List.range (2 * c.radius).toNat).map (fun j => (kernelShare c p j w).value g)).sum = (w : F) * g 0 := by
  simp only [kernelShare_value_none g c hk]
  rw [sum_range_telescope (fun i => (stepResponse c p i w).value g)]
  have h2 : ((2 * c.radius).toNat : Int) = 2 * c.radius := by omega
  have h3 : ¬ ((2 * c.radius).toNat = 0 ∨ (2 * (p : Int) = c.phaseCount ∧ (2 * c.radius).toNat = 1)) := by omega
  simp only [stepResponse_value, h2, h3, if_true, if_false]
  simp

/-- The shares of a step over one row sum to the step, for a supplied row that sums to 1. -/
theorem kernelShare_sum_some [CharZero F] (g : Nat → F) (c : Cfg) (rows : List (List Rat)) (hk : c.kernel = some rows)
    (p : Nat) (row : List Rat) (hrow : rows[p]? = some row) (hlen : row.length = (2 * c.radius).toNat)
    (hsum : row.sum = 1) (w : Rat) :
    ((List.range (2 * c.radius).toNat).map (fun j => (kernelShare c p j w).value g)).sum = (w : F) * g 0 := by
  have h1 : ∀ j, (kernelShare c p j w).value g = ((w : F) * g 0) * ((row.getD j 0 : Rat) : F) := by
    intro j
    simp only [kernelShare, hk, List.getD, hrow, Option.getD_some, Sample.value_ofRat]
    push_cast; ring
  simp only [h1]
  rw [List.sum_map_mul_left, ← hlen]
  have h3 : (List.map (fun j => ((row.getD j 0 : Rat) : F)) (List.range row.length)).sum = ((row.sum : Rat) : F) := by
    conv_rhs => rw [← map_getD_range row 0]
    generalize List.range row.length = l
    induction l with
    | nil => simp
    | cons a t ih => simp only [List.map_cons, List.sum_cons, ih]; push_cast; rfl
  rw [h3, hsum]; simp

end Sys2Proof.Machine
end

