-- ==== Sys2Proof/Laws/Resample.lean ====
section
/-! SUPPORT. What the resampler's operations do: placing, one pushed event, running sums, convolution, eviction. -/

namespace Sys2Proof.Machine

/-- Rounding half up leaves a remainder in `[-1/2, 1/2)`. -/
theorem floor_half (x : Rat) : -(1 / 2) ≤ x - ((x + 1 / 2).floor : Rat) ∧ x - ((x + 1 / 2).floor : Rat) < 1 / 2 := by
  have h1 := Int.floor_le (x + 1 / 2)
  have h2 := Int.lt_floor_add_one (x + 1 / 2)
  rw [show (x + 1 / 2).floor = ⌊x + 1 / 2⌋ from rfl]
  constructor <;> linarith

/-- An absolute value written out. -/
theorem if_neg_eq_abs (f : Rat) : (if f < 0 then -f else f) = |f| := by
  split
  · next h => rw [abs_of_neg h]
  · next h => rw [abs_of_nonneg (not_lt.mp h)]

/-- One pushed event leaves everything but the resampler and the diagnostics. -/
theorem pushEvent_sameAudio (s : State) (e : Event) : SameAudio s (pushEvent s e) := by
  unfold pushEvent
  simp only
  split <;> exact ⟨⟨rfl, rfl, rfl, rfl⟩, rfl, rfl, rfl, rfl, rfl, rfl⟩

@[simp] theorem pushEvent_sink (s : State) (e : Event) : (pushEvent s e).sink = s.sink := by
  unfold pushEvent
  simp only
  split <;> rfl

@[simp] theorem pushEvent_host (s : State) (e : Event) : (pushEvent s e).host = s.host := by
  unfold pushEvent
  simp only
  split <;> rfl

/-- The resampler after one pushed event (47_resampler.md R486). -/
theorem pushEvent_rs (s : State) (e : Event) :
    (pushEvent s e).rs = { s.rs with
      baseline := e.amp
      pend := if e.amp - s.rs.baseline = 0 then s.rs.pend
        else s.rs.pend ++ [eventContribs s.cfg s.rs.h (locate s.cfg e.time) (e.amp - s.rs.baseline)] } := rfl

/-- The diagnostics after one pushed event (R486, R487). -/
theorem pushEvent_diag (s : State) (e : Event) :
    (pushEvent s e).diag = { s.diag with late := s.diag.late + (if isLate s.cfg s.rs.h e then 1 else 0) } := by
  unfold pushEvent isLate
  simp only
  by_cases h : (locate s.cfg e.time).t ≤ (s.rs.h : Rat) <;> simp [h, raiseCondition]

theorem sameAudio_refl (s : State) : SameAudio s s := ⟨⟨rfl, rfl, rfl, rfl⟩, rfl, rfl, rfl, rfl, rfl, rfl⟩

theorem sameAudio_trans {a b c : State} (h : SameAudio a b) (k : SameAudio b c) : SameAudio a c :=
  ⟨⟨k.p1.trans h.p1, k.p2.trans h.p2, k.tri.trans h.tri, k.noise.trans h.noise⟩, k.cfg.trans h.cfg, k.cyc.trans h.cyc,
    k.reg.trans h.reg, k.fs.trans h.fs, k.events.trans h.events, k.lastAmp.trans h.lastAmp⟩

/-- A pushed batch leaves everything but the resampler and the diagnostics. -/
theorem pushEvents_sameAudio (l : List Event) (s : State) : SameAudio s (l.foldl pushEvent s) := by
  induction l generalizing s with
  | nil => exact sameAudio_refl s
  | cons e l ih => exact sameAudio_trans (pushEvent_sameAudio s e) (ih _)

@[simp] theorem runningSums_length (a : Sample) (l : List Sample) : (runningSums a l).length = l.length := by
  induction l generalizing a with
  | nil => rfl
  | cons d t ih => simp [runningSums, ih]

/-- Running sums of a joined list go on from the last sum. -/
theorem runningSums_append (a : Sample) (l m : List Sample) :
    runningSums a (l ++ m) = runningSums a l ++ runningSums ((runningSums a l).getLastD a) m := by
  induction l generalizing a with
  | nil => rfl
  | cons d t ih =>
    simp only [List.cons_append, runningSums, ih]
    congr 2
    cases h : runningSums (a.add d) t <;> simp [List.getLastD]

/-- The value of a running sum: the start and every delta up to it. -/
theorem runningSums_value (g : Nat → Rat) (a : Sample) (l : List Sample) (i : Nat) (x : Sample)
    (h : (runningSums a l)[i]? = some x) : x.value g = a.value g + ((l.take (i + 1)).map (fun y => y.value g)).sum := by
  induction l generalizing a i with
  | nil => simp [runningSums] at h
  | cons d t ih =>
    cases i with
    | zero =>
      simp [runningSums] at h
      subst h
      simp
    | succ i =>
      simp only [runningSums, List.getElem?_cons_succ] at h
      rw [ih _ _ h]
      simp
      ring

/-- The value of the last running sum. -/
theorem runningSums_last_value (g : Nat → Rat) (a : Sample) (l : List Sample) :
    ((runningSums a l).getLastD a).value g = a.value g + (l.map (fun y => y.value g)).sum := by
  induction l generalizing a with
  | nil => simp [runningSums]
  | cons d t ih =>
    have h := ih (a.add d)
    rw [runningSums, List.getLastD_cons, h]
    simp
    ring

@[simp] theorem convolve_length (h e : Nat) (pend : List (List (Nat × Sample))) : (convolve h e pend).length = e - h := by
  simp [convolve]

/-- A convolution over an interval is that over its two parts. -/
theorem convolve_split (h m e : Nat) (pend : List (List (Nat × Sample))) (h1 : h ≤ m) (h2 : m ≤ e) :
    convolve h e pend = convolve h m pend ++ convolve m e pend := by
  unfold convolve
  rw [show e - h = (m - h) + (e - m) by omega, List.range_add, List.map_append, List.map_map]
  congr 1
  apply List.map_congr_left
  intro i _
  simp only [Function.comp]
  congr 1
  omega

/-- A filter that no entry of a final list passes does not see eviction. -/
theorem flatten_evict_filter (m : Nat) (p : Nat × Sample → Bool) (hp : ∀ nw, p nw = true → m ≤ nw.1)
    (pend : List (List (Nat × Sample))) : (evict m pend).flatten.filter p = pend.flatten.filter p := by
  induction pend with
  | nil => rfl
  | cons cl t ih =>
    unfold evict at ih ⊢
    rw [List.filter_cons]
    split
    · simp only [List.flatten_cons, List.filter_append, ih]
    · next hc =>
      have : List.filter p cl = [] := by
        apply List.filter_eq_nil_iff.mpr
        intro nw hnw h
        apply hc
        simp only [List.any_eq_true, decide_eq_true_eq]
        exact ⟨nw, hnw, hp nw h⟩
      simp only [List.flatten_cons, List.filter_append, ih, this, List.nil_append]

/-- Eviction leaves the weights of every sample that is not final (R490). -/
theorem sumAt_evict (n m : Nat) (h : m ≤ n) (pend : List (List (Nat × Sample))) :
    sumAt n (evict m pend) = sumAt n pend := by
  unfold sumAt
  rw [flatten_evict_filter m _ (by intro nw hnw; simp only [decide_eq_true_eq] at hnw; omega)]

/-- The weighted sum over two disjoint ranges of sample indices. -/
theorem filter_sum_or (g : Nat → Rat) (l : List (Nat × Sample)) (p q : Nat → Bool)
    (hpq : ∀ n, ¬(p n = true ∧ q n = true)) :
    ((l.filter (fun nw => p nw.1 || q nw.1)).map (fun nw => nw.2.value g)).sum
      = ((l.filter (fun nw => p nw.1)).map (fun nw => nw.2.value g)).sum
        + ((l.filter (fun nw => q nw.1)).map (fun nw => nw.2.value g)).sum := by
  induction l with
  | nil => simp
  | cons x t ih =>
    have := hpq x.1
    cases hp : p x.1 <;> cases hq : q x.1 <;> simp_all <;> ring

/-- The deltas of an interval of samples add up to the weights in it. -/
theorem sumAt_range_value (g : Nat → Rat) (h i : Nat) (pend : List (List (Nat × Sample))) :
    ((List.range i).map (fun j => (sumAt (h + j) pend).value g)).sum
      = ((pend.flatten.filter (fun nw => decide (h ≤ nw.1 ∧ nw.1 < h + i))).map (fun nw => nw.2.value g)).sum := by
  induction i with
  | zero =>
    have : pend.flatten.filter (fun nw => decide (h ≤ nw.1 ∧ nw.1 < h + 0)) = [] := by
      apply List.filter_eq_nil_iff.mpr
      intro nw _
      simp
    rw [this]
    simp
  | succ i ih =>
    rw [List.range_succ, List.map_append, List.sum_append, ih]
    simp only [List.map_cons, List.map_nil, List.sum_cons, List.sum_nil, add_zero, sumAt, Sample.value_sum, List.map_map]
    have hs := filter_sum_or g pend.flatten (fun n => decide (h ≤ n ∧ n < h + i)) (fun n => decide (n = h + i))
      (by intro n; simp; omega)
    rw [show (fun nw : Nat × Sample => nw.2.value g) = (fun x => Sample.value g x) ∘ Prod.snd from rfl] at hs ⊢
    rw [← hs]
    congr 2
    apply List.filter_congr
    intro nw _
    rw [← Bool.decide_or]
    apply decide_eq_decide.mpr
    omega

@[simp] theorem pendingValue_append (g : Nat → Rat) (h : Nat) (a b : List (List (Nat × Sample))) :
    pendingValue g h (a ++ b) = pendingValue g h a + pendingValue g h b := by
  simp [pendingValue]

@[simp] theorem pendingValue_nil (g : Nat → Rat) (h : Nat) : pendingValue g h [] = 0 := rfl

/-- Moving the horizon takes the weights below it out of what is pending. -/
theorem pendingValue_advance (g : Nat → Rat) (h e : Nat) (he : h ≤ e) (pend : List (List (Nat × Sample))) :
    pendingValue g h pend
      = ((convolve h e pend).map (fun y => y.value g)).sum + pendingValue g e (evict e pend) := by
  have h1 : ((convolve h e pend).map (fun y => y.value g)).sum
      = ((pend.flatten.filter (fun nw => decide (h ≤ nw.1 ∧ nw.1 < e))).map (fun nw => nw.2.value g)).sum := by
    have := sumAt_range_value g h (e - h) pend
    rw [show h + (e - h) = e by omega] at this
    rw [← this, convolve, List.map_map]
    rfl
  unfold pendingValue
  rw [flatten_evict_filter e _ (by intro nw hnw; simpa using hnw), h1,
    ← filter_sum_or g pend.flatten (fun n => decide (h ≤ n ∧ n < e)) (fun n => decide (e ≤ n)) (by intro n; simp)]
  congr 2
  apply List.filter_congr
  intro nw _
  rw [← Bool.decide_or]
  apply decide_eq_decide.mpr
  omega

/-- Integer division rounding down is the floor of the exact quotient. -/
theorem floor_div_eq_fdiv (a b : Int) : ((a : Rat) / (b : Rat)).floor = Int.fdiv a b := by
  change ⌊(a : Rat) / (b : Rat)⌋ = Int.fdiv a b
  rcases lt_trichotomy b 0 with h | rfl | h
  · obtain ⟨n, rfl⟩ := Int.eq_negSucc_of_lt_zero h
    have hq : ((a : Rat) / ((Int.negSucc n : Int) : Rat)) = ((-a : Int) : Rat) / ((n + 1 : Nat) : Rat) := by
      rw [Int.negSucc_eq]; push_cast; rw [div_neg, neg_div]
    rw [hq]
    refine (Rat.floor_intCast_div_natCast _ _).trans ?_
    rw [← Int.fdiv_eq_ediv_of_nonneg _ (by positivity), Int.negSucc_eq, ← Int.neg_fdiv_neg]; simp
  · simp
  · obtain ⟨n, rfl⟩ := Int.eq_ofNat_of_zero_le h.le
    rw [Int.fdiv_eq_ediv_of_nonneg _ h.le]; simpa using Rat.floor_intCast_div_natCast a n

/-- `E` as R488 writes it. -/
theorem renderEnd_eq (s : State) :
    renderEnd s = ((s.cyc : Rat) * (s.cfg.sampleRate : Rat) / (s.cfg.clockHz : Rat)).floor - s.cfg.radius := by
  rw [renderEnd, ← floor_div_eq_fdiv]; push_cast; rfl

end Sys2Proof.Machine
end

