-- ==== Sys2Proof/Laws/Exec.lean ====
section
/-! SUPPORT. What one command can do: a register write with its channel effect, or one of the other commands. -/

namespace Sys2Proof.Machine

/-- What every register's effect keeps of the channels. -/
structure ChannelKept (s t : State) : Prop where
  first1 : t.p1.first = s.p1.first
  first2 : t.p2.first = s.p2.first
  lfsr : t.noise.lfsr = s.noise.lfsr
  gated1 : LengthGated s.p1.len → LengthGated t.p1.len
  gated2 : LengthGated s.p2.len → LengthGated t.p2.len
  gatedT : LengthGated s.tri.len → LengthGated t.tri.len
  gatedN : LengthGated s.noise.len → LengthGated t.noise.len

theorem lenRequest_gated (l : Length) (i : BitVec 5) (h : Bool) (hl : LengthGated l) :
    LengthGated (lenRequest l i h) := by
  unfold lenRequest
  split <;> exact hl

theorem lenEnable_gated (l : Length) (on : Bool) (_ : LengthGated l) : LengthGated (lenEnable l on) := by
  cases on
  · exact fun _ => rfl
  · exact fun h => absurd h (by simp [lenEnable])

theorem lenClock_gated (l : Length) (h : Bool) (hl : LengthGated l) : LengthGated (lenClock l h) := by
  unfold lenClock
  split
  · next hc => exact fun he => absurd (hl he) hc.1
  · exact hl

theorem lenLoad_gated (c : Cfg) (l : Length) (hl : LengthGated l) : LengthGated (lenLoad c l) := by
  unfold lenLoad
  split
  · split
    · next h => exact fun he => absurd he (by simp [h])
    · exact hl
  · exact hl

theorem channelKept_refl (s : State) : ChannelKept s s := ⟨rfl, rfl, rfl, id, id, id, id⟩

theorem channelKept_withP1 (s : State) (x : Pulse) (hf : x.first = s.p1.first)
    (hg : LengthGated s.p1.len → LengthGated x.len) : ChannelKept s (s.withP1 x) := ⟨hf, rfl, rfl, hg, id, id, id⟩

theorem channelKept_withP2 (s : State) (x : Pulse) (hf : x.first = s.p2.first)
    (hg : LengthGated s.p2.len → LengthGated x.len) : ChannelKept s (s.withP2 x) := ⟨rfl, hf, rfl, id, hg, id, id⟩

theorem channelKept_withTri (s : State) (x : Triangle) (hg : LengthGated s.tri.len → LengthGated x.len) :
    ChannelKept s (s.withTri x) := ⟨rfl, rfl, rfl, id, id, hg, id⟩

theorem channelKept_withNoise (s : State) (x : Noise) (hf : x.lfsr = s.noise.lfsr)
    (hg : LengthGated s.noise.len → LengthGated x.len) : ChannelKept s (s.withNoise x) := ⟨rfl, rfl, hf, id, id, id, hg⟩

theorem channelKept_status (d : Byte) (s : State) : ChannelKept s (statusWrite d s) :=
  ⟨rfl, rfl, rfl, lenEnable_gated _ _, lenEnable_gated _ _, lenEnable_gated _ _, lenEnable_gated _ _⟩

@[simp] theorem operandFor_latched (i : Instr) : operandFor i .latched = .latched := by cases i <;> rfl

/-- The shape of a register write: one register, one effect on the channels. -/
def RegisterWrite (i : Instr) (s : State) : Prop :=
  ∃ a d f, exec i s = .next (apuWrite a d f s) ∧ isApuAddr a = true ∧ encode i = encodeWr a d ∧ ChannelEffect f
    ∧ ∀ x, ChannelKept x (f x)

/-- What one command can be. -/
theorem exec_cases (i : Instr) (s : State) :
    RegisterWrite i s ∨ (∃ a d, i = .wrNonapu a d) ∨ (∃ a, i = .rd a) ∨ i = .tick ∨ i = .drain ∨ i = .push ∨ i = .render
      ∨ i = .sinkw ∨ (∃ k, i = .devadv k) ∨ i = .stop := by
  cases i
  case wrP1Ctrl d =>
    exact .inl ⟨_, d, _, rfl, rfl, rfl, channelEffect_withP1 _, fun x => channelKept_withP1 x _ rfl id⟩
  case wrP1Sweep d =>
    exact .inl ⟨_, d, _, rfl, rfl, rfl, channelEffect_withP1 _, fun x => channelKept_withP1 x _ rfl id⟩
  case wrP1Lo d =>
    exact .inl ⟨_, d, _, rfl, rfl, rfl, channelEffect_withP1 _, fun x => channelKept_withP1 x _ rfl id⟩
  case wrP1Hi d =>
    exact .inl ⟨_, d, _, rfl, rfl, rfl, channelEffect_withP1 _,
      fun x => channelKept_withP1 x _ rfl (lenRequest_gated _ _ _)⟩
  case wrP2Ctrl d =>
    exact .inl ⟨_, d, _, rfl, rfl, rfl, channelEffect_withP2 _, fun x => channelKept_withP2 x _ rfl id⟩
  case wrP2Sweep d =>
    exact .inl ⟨_, d, _, rfl, rfl, rfl, channelEffect_withP2 _, fun x => channelKept_withP2 x _ rfl id⟩
  case wrP2Lo d =>
    exact .inl ⟨_, d, _, rfl, rfl, rfl, channelEffect_withP2 _, fun x => channelKept_withP2 x _ rfl id⟩
  case wrP2Hi d =>
    exact .inl ⟨_, d, _, rfl, rfl, rfl, channelEffect_withP2 _,
      fun x => channelKept_withP2 x _ rfl (lenRequest_gated _ _ _)⟩
  case wrTriLinear d =>
    exact .inl ⟨_, d, _, rfl, rfl, rfl, channelEffect_withTri _, fun x => channelKept_withTri x _ id⟩
  case wrTriLo d =>
    exact .inl ⟨_, d, _, rfl, rfl, rfl, channelEffect_withTri _, fun x => channelKept_withTri x _ id⟩
  case wrTriHi d =>
    exact .inl ⟨_, d, _, rfl, rfl, rfl, channelEffect_withTri _,
      fun x => channelKept_withTri x _ (lenRequest_gated _ _ _)⟩
  case wrNoiCtrl d =>
    exact .inl ⟨_, d, _, rfl, rfl, rfl, channelEffect_withNoise _, fun x => channelKept_withNoise x _ rfl id⟩
  case wrNoiPeriod d =>
    exact .inl ⟨_, d, _, rfl, rfl, rfl, channelEffect_withNoise _, fun x => channelKept_withNoise x _ rfl id⟩
  case wrNoiLen d =>
    exact .inl ⟨_, d, _, rfl, rfl, rfl, channelEffect_withNoise _,
      fun x => channelKept_withNoise x _ rfl (lenRequest_gated _ _ _)⟩
  case wrStatus d => exact .inl ⟨_, d, _, rfl, rfl, rfl, channelEffect_status d, channelKept_status d⟩
  case wrTriUnused d => exact .inl ⟨_, d, _, rfl, rfl, rfl, channelEffect_id, channelKept_refl⟩
  case wrNoiUnused d => exact .inl ⟨_, d, _, rfl, rfl, rfl, channelEffect_id, channelKept_refl⟩
  case wrDmc0 d => exact .inl ⟨_, d, _, rfl, rfl, rfl, channelEffect_id, channelKept_refl⟩
  case wrDmc1 d => exact .inl ⟨_, d, _, rfl, rfl, rfl, channelEffect_id, channelKept_refl⟩
  case wrDmc2 d => exact .inl ⟨_, d, _, rfl, rfl, rfl, channelEffect_id, channelKept_refl⟩
  case wrDmc3 d => exact .inl ⟨_, d, _, rfl, rfl, rfl, channelEffect_id, channelKept_refl⟩
  case wrFrame d => exact .inl ⟨_, d, _, rfl, rfl, rfl, channelEffect_id, channelKept_refl⟩
  all_goals simp

/-- A period that agrees with its register bytes still does (30_encoding.md R144). -/
structure PeriodsKept (s t : State) : Prop where
  p1 : PeriodFromBytes s.reg 0x4000#16 s.p1.period → PeriodFromBytes t.reg 0x4000#16 t.p1.period
  p2 : PeriodFromBytes s.reg 0x4004#16 s.p2.period → PeriodFromBytes t.reg 0x4004#16 t.p2.period
  tri : PeriodFromBytes s.reg 0x4008#16 s.tri.period → PeriodFromBytes t.reg 0x4008#16 t.tri.period

theorem periodsKept_refl (s : State) : PeriodsKept s s := ⟨id, id, id⟩

/-- A register write keeps the agreement where its effect does. -/
theorem apuWrite_periodsKept {f : State → State} (hf : ChannelEffect f) (a : Addr) (d : Byte) (s : State)
    (h : PeriodsKept s (f (s.withReg (s.reg.write a d)))) : PeriodsKept s (apuWrite a d f s) := by
  have hr := hf.reg (s.withReg (s.reg.write a d))
  refine ⟨fun k => ?_, fun k => ?_, fun k => ?_⟩
  · have := h.p1 k; rw [hr] at this; rw [apuWrite_reg hf]; exact this
  · have := h.p2 k; rw [hr] at this; rw [apuWrite_reg hf]; exact this
  · have := h.tri k; rw [hr] at this; rw [apuWrite_reg hf]; exact this

/-- A command other than TICK keeps the agreement of the periods with their bytes. -/
theorem exec_periodsKept (i : Instr) (s t : State) (hi : i ≠ .tick) (h : exec i s = .next t) : PeriodsKept s t := by
  have o1 : ∀ a d, 0x4003#16 ≠ a → 0x4002#16 ≠ a → PeriodFromBytes s.reg 0x4000#16 s.p1.period →
      PeriodFromBytes (s.reg.write a d) 0x4000#16 s.p1.period := fun _ _ h3 h2 => periodFromBytes_write_other h3 h2
  have o2 : ∀ a d, 0x4007#16 ≠ a → 0x4006#16 ≠ a → PeriodFromBytes s.reg 0x4004#16 s.p2.period →
      PeriodFromBytes (s.reg.write a d) 0x4004#16 s.p2.period := fun _ _ h3 h2 => periodFromBytes_write_other h3 h2
  have o3 : ∀ a d, 0x400B#16 ≠ a → 0x400A#16 ≠ a → PeriodFromBytes s.reg 0x4008#16 s.tri.period →
      PeriodFromBytes (s.reg.write a d) 0x4008#16 s.tri.period := fun _ _ h3 h2 => periodFromBytes_write_other h3 h2
  cases i
  case tick => exact absurd rfl hi
  case rd a =>
    simp only [exec, execRd] at h
    split at h <;> (obtain rfl := Host.Outcome.next.inj h; exact ⟨id, id, id⟩)
  case render =>
    simp only [exec, execRender] at h
    split at h <;> (obtain rfl := Host.Outcome.next.inj h; exact ⟨id, id, id⟩)
  case push =>
    obtain rfl := Host.Outcome.next.inj h
    have k := pushEvents_sameAudio (pushOperand s.host) s
    exact ⟨fun q => by rw [← k.reg, ← k.p1] at q; exact q, fun q => by rw [← k.reg, ← k.p2] at q; exact q,
      fun q => by rw [← k.reg, ← k.tri] at q; exact q⟩
  all_goals obtain rfl := Host.Outcome.next.inj h
  case wrNonapu => exact ⟨id, id, id⟩
  case drain => exact ⟨id, id, id⟩
  case sinkw => exact ⟨id, id, id⟩
  case devadv => exact ⟨id, id, id⟩
  case stop => exact ⟨id, id, id⟩
  case wrP1Lo =>
    exact apuWrite_periodsKept (channelEffect_withP1 _) _ _ _
      ⟨periodFromBytes_write_low (by decide), o2 _ _ (by decide) (by decide), o3 _ _ (by decide) (by decide)⟩
  case wrP1Hi =>
    exact apuWrite_periodsKept (channelEffect_withP1 _) _ _ _
      ⟨periodFromBytes_write_high (by decide), o2 _ _ (by decide) (by decide), o3 _ _ (by decide) (by decide)⟩
  case wrP2Lo =>
    exact apuWrite_periodsKept (channelEffect_withP2 _) _ _ _
      ⟨o1 _ _ (by decide) (by decide), periodFromBytes_write_low (by decide), o3 _ _ (by decide) (by decide)⟩
  case wrP2Hi =>
    exact apuWrite_periodsKept (channelEffect_withP2 _) _ _ _
      ⟨o1 _ _ (by decide) (by decide), periodFromBytes_write_high (by decide), o3 _ _ (by decide) (by decide)⟩
  case wrTriLo =>
    exact apuWrite_periodsKept (channelEffect_withTri _) _ _ _
      ⟨o1 _ _ (by decide) (by decide), o2 _ _ (by decide) (by decide), periodFromBytes_write_low (by decide)⟩
  case wrTriHi =>
    exact apuWrite_periodsKept (channelEffect_withTri _) _ _ _
      ⟨o1 _ _ (by decide) (by decide), o2 _ _ (by decide) (by decide), periodFromBytes_write_high (by decide)⟩
  case wrStatus => exact apuWrite_periodsKept (channelEffect_status _) _ _ _ ⟨o1 _ _ (by decide) (by decide), o2 _ _ (by decide) (by decide), o3 _ _ (by decide) (by decide)⟩
  all_goals first
    | exact apuWrite_periodsKept (channelEffect_withP1 _) _ _ _
        ⟨o1 _ _ (by decide) (by decide), o2 _ _ (by decide) (by decide), o3 _ _ (by decide) (by decide)⟩
    | exact apuWrite_periodsKept (channelEffect_withP2 _) _ _ _
        ⟨o1 _ _ (by decide) (by decide), o2 _ _ (by decide) (by decide), o3 _ _ (by decide) (by decide)⟩
    | exact apuWrite_periodsKept (channelEffect_withTri _) _ _ _
        ⟨o1 _ _ (by decide) (by decide), o2 _ _ (by decide) (by decide), o3 _ _ (by decide) (by decide)⟩
    | exact apuWrite_periodsKept (channelEffect_withNoise _) _ _ _
        ⟨o1 _ _ (by decide) (by decide), o2 _ _ (by decide) (by decide), o3 _ _ (by decide) (by decide)⟩

end Sys2Proof.Machine
end

