-- ==== Sys2Proof/Laws/Kernel.lean ====
section
/-! SUPPORT. The kernel over the reals: evenness, integrability, where it is 0 and where it is positive
(47_resampler.md R481). -/

namespace Sys2Proof.Machine

open MeasureTheory

theorem lanczos_even (r : Nat) (x : ℝ) : lanczos r (-x) = lanczos r x := by
  unfold lanczos
  rw [abs_neg, mul_neg, neg_div, mul_neg, Real.sinc_neg, Real.sinc_neg]

/-- The antiderivative is odd. -/
theorem lanczosIntegral_odd (r : Nat) (x : ℝ) : lanczosIntegral r (-x) = -lanczosIntegral r x := by
  unfold lanczosIntegral
  have h := intervalIntegral.integral_comp_neg (a := 0) (b := x) (fun u => lanczos r u)
  simp only [lanczos_even, neg_zero] at h
  rw [h, intervalIntegral.integral_symm]

theorem lanczos_integrable (r : Nat) (a b : ℝ) : IntervalIntegrable (lanczos r) volume a b := by
  have hi : lanczos r = Set.indicator {x | |x| < (r : ℝ)}
      (fun x => Real.sinc (Real.pi * x) * Real.sinc (Real.pi * (x / r))) := by
    funext x
    unfold lanczos
    rw [Set.indicator_apply]
    rfl
  have hc : Continuous (fun x : ℝ => Real.sinc (Real.pi * x) * Real.sinc (Real.pi * (x / r))) := by
    have := Real.continuous_sinc
    fun_prop
  have h := hc.intervalIntegrable (μ := volume) a b
  rw [intervalIntegrable_iff] at h
  rw [hi, intervalIntegrable_iff]
  exact h.indicator (measurableSet_lt (by fun_prop) measurable_const)

/-- A difference of the antiderivative is the integral between. -/
theorem lanczosIntegral_sub (r : Nat) (a b : ℝ) :
    lanczosIntegral r b - lanczosIntegral r a = ∫ u in a..b, lanczos r u := by
  unfold lanczosIntegral
  rw [intervalIntegral.integral_interval_sub_left (lanczos_integrable _ _ _) (lanczos_integrable _ _ _)]

/-- The kernel is 0 below its support. -/
theorem lanczosIntegral_below (r : Nat) : lanczosIntegral r (-(r : ℝ)) = lanczosIntegral r (-(r : ℝ) - 1) := by
  rw [← sub_eq_zero, lanczosIntegral_sub]
  apply intervalIntegral.integral_zero_ae
  filter_upwards with x hx
  rw [Set.uIoc_of_le (by linarith)] at hx
  have : (0 : ℝ) ≤ r := Nat.cast_nonneg r
  unfold lanczos
  rw [if_neg]
  rw [abs_of_nonpos (by linarith [hx.2])]
  linarith [hx.2]

/-- The first two points of row `Pc/2` both lie at or below the support. -/
theorem kernelPoint_last_row (r m : Nat) (h : 1 ≤ m) : kernelPoint r (2 * m) m 1 = kernelPoint r (2 * m) m 0 := by
  have hm : (m : ℝ) / ((2 * m : Nat) : ℝ) = 1 / 2 := by
    have : (m : ℝ) ≠ 0 := by positivity
    push_cast
    field_simp
  unfold kernelPoint
  rw [hm]
  push_cast
  rw [show (1 : ℝ) - r - 1 / 2 - 1 / 2 = -(r : ℝ) by ring, show (0 : ℝ) - r - 1 / 2 - 1 / 2 = -(r : ℝ) - 1 by ring,
    lanczosIntegral_below]

/-- With radius 1 the kernel is positive inside its support. -/
theorem lanczos_one_pos (u : ℝ) (h1 : -1 < u) (h2 : u < 1) : 0 < lanczos 1 u := by
  unfold lanczos
  rw [if_pos (by rw [abs_lt]; constructor <;> push_cast <;> linarith)]
  have hs : Real.sinc (Real.pi * u) ≠ 0 := by
    by_cases h0 : u = 0
    · simp [h0]
    · rw [Real.sinc_of_ne_zero (by positivity)]
      apply div_ne_zero _ (by positivity)
      intro hz
      obtain ⟨n, hn⟩ := Real.sin_eq_zero_iff.mp hz
      have hun : (n : ℝ) = u := by
        have hpi := Real.pi_pos
        have h3 : Real.pi * ((n : ℝ) - u) = 0 := by linarith
        rcases mul_eq_zero.mp h3 with h3 | h3 <;> linarith
      have hlt : n < 1 := by exact_mod_cast (hun ▸ h2 : (n : ℝ) < 1)
      have hgt : -1 < n := by exact_mod_cast (by rw [hun]; exact h1 : (-1 : ℝ) < n)
      have hn0 : n = 0 := by omega
      subst hn0
      exact h0 (by rw [← hun]; simp)
  simp only [Nat.cast_one, div_one]
  exact lt_of_le_of_ne (mul_self_nonneg _) (mul_ne_zero hs hs).symm

@[simp] theorem kernelValuation_zero (c : Cfg) (given : Nat → ℝ) : kernelValuation c given 0 = 1 := by
  simp [kernelValuation]

/-- A given sample stands for the given real, under every configuration. -/
@[simp] theorem Sample.real_given (c : Cfg) (given : Nat → ℝ) (n : Nat) : (Sample.given n).real c given = given n := by
  rw [Sample.real, Sample.value_given, kernelValuation, if_neg (by omega), if_pos (by omega)]
  congr 1
  omega

/-- A kernel term stands for the kernel's running sum. -/
theorem kernelValuation_step (c : Cfg) (given : Nat → ℝ) (p i : Nat) (h0 : 0 < i) (hi : i < 2 * c.radius.toNat) :
    kernelValuation c given (2 * (p * (2 * c.radius.toNat) + i))
      = kernelStep c.radius.toNat c.phaseCount.toNat p i := by
  have h2 : 2 * (p * (2 * c.radius.toNat) + i) / 2 = p * (2 * c.radius.toNat) + i := by omega
  rw [kernelValuation, if_neg (by omega), if_neg (by omega), h2, Nat.mul_comm p, Nat.mul_add_div (by omega),
    Nat.div_eq_of_lt hi, Nat.mul_add_mod, Nat.mod_eq_of_lt hi, Nat.add_zero]

end Sys2Proof.Machine
end

