-- ==== Sys2Proof/Laws/PerInstr.lean ====
section
/-! SUPPORT. The per-instruction family: every word the encoder makes has its reserved bits 0 and a class of the table
(30_encoding.md R140, R141). -/

namespace Sys2Proof.Laws.ReservedBitsZero

/-- The word of a command has `RSV` 0 and a class from 0 to 8. -/
def Statement (i : Instr) : Prop := rsvOf (encode i) = 0#4 ∧ classOf (encode i) ≤ 8#4

theorem of_encodeWr (a : Addr) (d : Byte) : rsvOf (encodeWr a d) = 0#4 ∧ classOf (encodeWr a d) ≤ 8#4 := by
  obtain ⟨h1, h2, -⟩ := encodeWr_fields a d
  exact ⟨h2, by rw [h1]; decide⟩

theorem wrP1Ctrl (d : Byte) : Statement (.wrP1Ctrl d) := of_encodeWr _ d
theorem wrP1Sweep (d : Byte) : Statement (.wrP1Sweep d) := of_encodeWr _ d
theorem wrP1Lo (d : Byte) : Statement (.wrP1Lo d) := of_encodeWr _ d
theorem wrP1Hi (d : Byte) : Statement (.wrP1Hi d) := of_encodeWr _ d
theorem wrP2Ctrl (d : Byte) : Statement (.wrP2Ctrl d) := of_encodeWr _ d
theorem wrP2Sweep (d : Byte) : Statement (.wrP2Sweep d) := of_encodeWr _ d
theorem wrP2Lo (d : Byte) : Statement (.wrP2Lo d) := of_encodeWr _ d
theorem wrP2Hi (d : Byte) : Statement (.wrP2Hi d) := of_encodeWr _ d
theorem wrTriLinear (d : Byte) : Statement (.wrTriLinear d) := of_encodeWr _ d
theorem wrTriUnused (d : Byte) : Statement (.wrTriUnused d) := of_encodeWr _ d
theorem wrTriLo (d : Byte) : Statement (.wrTriLo d) := of_encodeWr _ d
theorem wrTriHi (d : Byte) : Statement (.wrTriHi d) := of_encodeWr _ d
theorem wrNoiCtrl (d : Byte) : Statement (.wrNoiCtrl d) := of_encodeWr _ d
theorem wrNoiUnused (d : Byte) : Statement (.wrNoiUnused d) := of_encodeWr _ d
theorem wrNoiPeriod (d : Byte) : Statement (.wrNoiPeriod d) := of_encodeWr _ d
theorem wrNoiLen (d : Byte) : Statement (.wrNoiLen d) := of_encodeWr _ d
theorem wrDmc0 (d : Byte) : Statement (.wrDmc0 d) := of_encodeWr _ d
theorem wrDmc1 (d : Byte) : Statement (.wrDmc1 d) := of_encodeWr _ d
theorem wrDmc2 (d : Byte) : Statement (.wrDmc2 d) := of_encodeWr _ d
theorem wrDmc3 (d : Byte) : Statement (.wrDmc3 d) := of_encodeWr _ d
theorem wrStatus (d : Byte) : Statement (.wrStatus d) := of_encodeWr _ d
theorem wrFrame (d : Byte) : Statement (.wrFrame d) := of_encodeWr _ d
theorem wrNonapu (a : Addr) (d : Byte) : Statement (.wrNonapu a d) := of_encodeWr a d
theorem rd (a : Addr) : Statement (.rd a) := by
  obtain ⟨h1, h2, -⟩ := rd_fields a
  exact ⟨h2, by rw [show encode (.rd a) = 0x10#8 ++ a ++ 0x00#8 from rfl, h1]; decide⟩
theorem tick : Statement .tick := by unfold Statement; decide
theorem drain : Statement .drain := by unfold Statement; decide
theorem push : Statement .push := by unfold Statement; decide
theorem render : Statement .render := by unfold Statement; decide
theorem sinkw : Statement .sinkw := by unfold Statement; decide
theorem devadv (k : BitVec 24) : Statement (.devadv k) := by
  obtain ⟨h1, h2, -⟩ := devadv_fields k
  exact ⟨h2, by rw [show encode (.devadv k) = 0x70#8 ++ k from rfl, h1]; decide⟩
theorem stop : Statement .stop := by unfold Statement; decide

end Sys2Proof.Laws.ReservedBitsZero
end

