-- ==== Sys2Proof/Laws/Sink.lean ====
section
/-! SUPPORT. What the sink's operations do: writing frames, one commit over the whole queue (48_sink.md R531). -/

namespace Sys2Proof.Machine

/-- Writing a joined list of samples. -/
theorem putFrames_append (cap : Nat) (buf : List (Nat × Frame)) (w : Nat) (l m : List Sample) :
    putFrames cap buf w (l ++ m) = putFrames cap (putFrames cap buf w l) (w + l.length) m := by
  induction l generalizing buf w with
  | nil => rfl
  | cons x l ih => simp only [List.cons_append, putFrames, ih, List.length_cons]; rw [Nat.add_assoc, Nat.add_comm 1]

/-- A slot no written frame falls on is as before. -/
theorem putFrames_read_other (cap : Nat) (buf : List (Nat × Frame)) (w : Nat) (l : List Sample) (slot : Nat)
    (h : ∀ i, i < l.length → slot ≠ (w + i) % cap) : slotRead (putFrames cap buf w l) slot = slotRead buf slot := by
  induction l generalizing buf w with
  | nil => rfl
  | cons x l ih =>
    rw [putFrames, ih]
    · rw [slotRead_write, if_neg]
      exact h 0 (by simp)
    · intro i hi
      have := h (i + 1) (by simpa using hi)
      rwa [show w + 1 + i = w + (i + 1) by omega]

/-- Two stream frames fewer than `cap` apart lie in different slots. -/
theorem slot_ne {cap a b : Nat} (h : a < b) (hb : b - a < cap) : a % cap ≠ b % cap := by
  intro he
  have h1 : cap ∣ b - a := (Nat.modEq_iff_dvd' h.le).mp he
  exact absurd (Nat.le_of_dvd (by omega) h1) (by omega)

/-- Every written frame stands in its slot, where they all fit. -/
theorem putFrames_read (cap : Nat) (buf : List (Nat × Frame)) (w : Nat) (l : List Sample) (hl : l.length ≤ cap) (i : Nat)
    (x : Sample) (hx : l[i]? = some x) : slotRead (putFrames cap buf w l) ((w + i) % cap) = ⟨x, x⟩ := by
  induction l generalizing buf w i with
  | nil => simp at hx
  | cons y l ih =>
    simp only [List.length_cons] at hl
    rw [putFrames]
    cases i with
    | zero =>
      simp at hx
      subst hx
      rw [putFrames_read_other]
      · simp [slotRead_write]
      · intro j hj
        exact slot_ne (by omega) (by omega)
    | succ i =>
      have := ih (slotWrite buf (w % cap) ⟨y, y⟩) (w + 1) (by omega) i (by simpa using hx)
      rwa [show w + 1 + i = w + (i + 1) by omega] at this

/-- Writing frames keeps the canonical form. -/
theorem putFrames_wf (cap : Nat) (buf : List (Nat × Frame)) (w : Nat) (l : List Sample) (h : storeWf silence buf = true) :
    storeWf silence (putFrames cap buf w l) = true := by
  induction l generalizing buf w with
  | nil => exact h
  | cons x l ih => exact ih _ _ (slotWrite_wf _ _ _ h)

/-- Writing frames touches the buffer's own slots only. -/
theorem putFrames_slots (cap : Nat) (hc : 0 < cap) (buf : List (Nat × Frame)) (w : Nat) (l : List Sample)
    (h : ∀ kv ∈ buf, kv.1 < cap) : ∀ kv ∈ putFrames cap buf w l, kv.1 < cap := by
  induction l generalizing buf w with
  | nil => exact h
  | cons x l ih =>
    refine ih _ _ ?_
    intro kv hkv
    rcases mem_storeWrite _ _ _ _ _ hkv with rfl | hkv
    · exact Nat.mod_lt _ hc
    · exact h kv hkv

theorem catchUp_of_le {k : Sink} (h : k.p ≤ k.w) : catchUp k = k := by
  unfold catchUp
  rw [if_neg (by omega)]

/-- What catching up leaves: `W = max(W, P)`, nothing else changed. -/
theorem catchUp_eq (k : Sink) : catchUp k = { k with w := max k.w k.p } := by
  unfold catchUp
  split
  · next h => rw [Nat.max_eq_right h.le]
  · next h => rw [Nat.max_eq_left (by omega)]

/-- A commit over a queue that is not empty begins by catching up. -/
theorem commitQueue_catchUp (cfg : Cfg) (r : Request) (rest : List Request) (k : Sink) :
    commitQueue cfg (r :: rest) k = commitQueue cfg (r :: rest) (catchUp k) := by
  have h : catchUp (catchUp k) = catchUp k := catchUp_of_le (by rw [catchUp_eq]; exact le_max_right _ _)
  simp only [commitQueue, h]

/-- The fields one commit of `n` frames leaves. -/
theorem commitFrames_fields (cfg : Cfg) (n : Nat) (l : List Sample) (k : Sink) :
    (commitFrames cfg n l k).w = k.w + n ∧ (commitFrames cfg n l k).p = k.p
      ∧ (commitFrames cfg n l k).nextId = k.nextId ∧ (commitFrames cfg n l k).completed = k.completed
      ∧ (commitFrames cfg n l k).buf = putFrames (capacity cfg).toNat k.buf k.w (l.take n)
      ∧ (commitFrames cfg n l k).wdArmed = (decide (0 < n) || k.wdArmed)
      ∧ (commitFrames cfg n l k).wdDeadline = (if n = 0 then k.wdDeadline else k.w + n + cfg.underrunGrace.toNat) := by
  unfold commitFrames
  by_cases h : n = 0
  · simp [h]
  · simp [h, Nat.pos_of_ne_zero h]

/-- What one commit over a queue does (R531): the queued samples are one stream; as many as fit are committed. -/
structure CommitResult (cfg : Cfg) (q : List Request) (k k' : Sink) (n : Nat) : Prop where
  count : n = min ((highWm cfg).toNat - (k.w - k.p)) (q.flatMap (fun r => r.rem)).length
  w : k'.w = k.w + n
  p : k'.p = k.p
  nextId : k'.nextId = k.nextId
  rest : k'.queue.flatMap (fun r => r.rem) = (q.flatMap (fun r => r.rem)).drop n
  buf : k'.buf = putFrames (capacity cfg).toNat k.buf k.w ((q.flatMap (fun r => r.rem)).take n)
  idle : n = 0 → k'.wdArmed = k.wdArmed ∧ k'.wdDeadline = k.wdDeadline
  armed : 0 < n → k'.wdArmed = true ∧ k'.wdDeadline = k.w + n + cfg.underrunGrace.toNat
  records : ∃ m, k'.completed
      = k.completed ++ (q.take m).map (fun r => (⟨r.id, .completed (r.done + r.rem.length)⟩ : Completion))
    ∧ k'.queue.map (fun r => (r.id, r.len)) = (q.drop m).map (fun r => (r.id, r.len))
    ∧ (q.drop m = [] ∧ k'.queue = []
      ∨ ∃ r l j, q.drop m = r :: l ∧ k'.queue = { r with rem := r.rem.drop j, done := r.done + j } :: l)
  counts : (∀ r ∈ q, r.done + r.rem.length = r.len) → ∀ r ∈ k'.queue, r.done + r.rem.length = r.len
  head : ∀ r l, k'.queue = r :: l → r.rem ≠ []

theorem commitQueue_result (cfg : Cfg) (q : List Request) (k : Sink) (hk : k.p ≤ k.w) :
    ∃ n, CommitResult cfg q k (commitQueue cfg q k) n := by
  induction q generalizing k with
  | nil =>
    refine ⟨0, ⟨by simp, rfl, rfl, rfl, rfl, rfl, fun _ => ⟨rfl, rfl⟩, fun h => absurd h (by omega), ⟨0, ?_, rfl, ?_⟩, ?_, ?_⟩⟩
    · simp [commitQueue]
    · exact .inl ⟨rfl, rfl⟩
    · intro _ r hr
      simp [commitQueue] at hr
    · intro r l h
      simp [commitQueue] at h
  | cons r rest ih =>
    simp only [commitQueue, catchUp_of_le hk]
    obtain ⟨hw, hp, hi, hc, hb, ha, hd⟩ := commitFrames_fields cfg (min (room cfg k) r.rem.length) r.rem k
    by_cases hfit : r.rem.length ≤ room cfg k
    · have hn : min (room cfg k) r.rem.length = r.rem.length := Nat.min_eq_right hfit
      rw [hn] at hw hp hi hc hb ha hd ⊢
      rw [if_pos (le_refl _)]
      generalize hk2 : commitFrames cfg r.rem.length r.rem k = k2 at *
      obtain ⟨n, hr⟩ := ih { k2 with
        completed := k2.completed ++ [⟨r.id, .completed (r.done + r.rem.length)⟩] } (by simp only [hp, hw]; omega)
      obtain ⟨m, hm1, hm2, hm3⟩ := hr.records
      have hroom : room cfg k = (highWm cfg).toNat - (k.w - k.p) := rfl
      have hcount := hr.count
      simp only [hp, hw] at hcount
      refine ⟨r.rem.length + n, ⟨?_, ?_, ?_, ?_, ?_, ?_, ?_, ?_, ⟨m + 1, ?_, ?_, hm3⟩, ?_, hr.head⟩⟩
      · rw [hcount]
        simp only [List.flatMap_cons, List.length_append]
        omega
      · rw [hr.w]
        simp only [hw]
        omega
      · rw [hr.p]
        simp only [hp]
      · rw [hr.nextId]
        simp only [hi]
      · rw [hr.rest, List.flatMap_cons, List.drop_append]
        simp
      · rw [hr.buf]
        simp only [hb, hw, List.flatMap_cons, List.take_append, List.take_length]
        rw [List.take_of_length_le (l := r.rem) (by omega), putFrames_append]
        congr 2
        omega
      · intro h0
        have h1 : n = 0 := by omega
        have h2 : r.rem.length = 0 := by omega
        obtain ⟨x1, x2⟩ := hr.idle h1
        rw [x1, x2]
        simp only [ha, hd, h2]
        simp
      · intro h0
        by_cases h1 : n = 0
        · obtain ⟨x1, x2⟩ := hr.idle h1
          have h2 : r.rem.length ≠ 0 := by omega
          rw [x1, x2]
          simp only [ha, hd, h2, h1]
          simp [Nat.pos_of_ne_zero h2]
        · obtain ⟨x1, x2⟩ := hr.armed (by omega)
          rw [x1, x2]
          simp only [hw]
          exact ⟨trivial, by omega⟩
      · rw [hm1]
        simp only [hc, List.take_succ_cons, List.map_cons, List.append_assoc, List.cons_append, List.nil_append]
      · rw [hm2]
        simp
      · intro h
        exact hr.counts (fun r hr => h r (List.mem_cons_of_mem _ hr))
    · have hn : min (room cfg k) r.rem.length = room cfg k := Nat.min_eq_left (by omega)
      rw [hn] at hw hp hi hc hb ha hd ⊢
      rw [if_neg (by omega)]
      generalize hk2 : commitFrames cfg (room cfg k) r.rem k = k2 at *
      refine ⟨room cfg k, ⟨?_, hw, hp, hi, ?_, ?_, ?_, ?_, ⟨0, by simp [hc], by simp, .inr ⟨r, rest, _, rfl, rfl⟩⟩, ?_, ?_⟩⟩
      · simp only [List.flatMap_cons, List.length_append]
        unfold room fullness at *
        omega
      · simp only [List.flatMap_cons]
        rw [List.drop_append_of_le_length (by omega)]
      · simp only [hb, List.flatMap_cons]
        rw [List.take_append_of_le_length (by omega)]
      · intro h0
        simp [ha, hd, h0]
      · intro h0
        simp only [ha, hd]
        simp [h0]
        omega
      · intro h x hx
        rcases List.mem_cons.mp hx with rfl | hx
        · have := h r (by simp)
          simp only [List.length_drop]
          omega
        · exact h x (List.mem_cons_of_mem _ hx)
      · intro x l hx
        simp only [List.cons.injEq] at hx
        obtain ⟨rfl, -⟩ := hx
        simp only [ne_eq, List.drop_eq_nil_iff]
        omega

/-- What a commit of a queue that is not empty does (R531). -/
theorem commit_result (cfg : Cfg) (k : Sink) (hq : k.queue ≠ []) :
    ∃ n, CommitResult cfg k.queue { k with w := max k.w k.p } (commit cfg k) n := by
  obtain ⟨r, rest, h⟩ := List.exists_cons_of_ne_nil hq
  have h1 := commitQueue_result cfg k.queue (catchUp k) (by rw [catchUp_eq]; exact le_max_right _ _)
  rw [h, ← commitQueue_catchUp, ← h, catchUp_eq] at h1
  exact h1

/-- A commit of an empty queue changes nothing. -/
theorem commit_nil (cfg : Cfg) (k : Sink) (hq : k.queue = []) : commit cfg k = k := by
  unfold commit
  rw [hq]
  simp only [commitQueue]
  cases k
  simp only at hq
  simp [hq]

/-- How many samples a queue still holds. -/
def pendingSamples (q : List Request) : Nat := (q.flatMap (fun r => r.rem)).length

theorem pendingSamples_append (a b : List Request) : pendingSamples (a ++ b) = pendingSamples a + pendingSamples b := by
  simp [pendingSamples]

theorem pendingSamples_cons (r : Request) (b : List Request) :
    pendingSamples (r :: b) = r.rem.length + pendingSamples b := by simp [pendingSamples]

/-- The request `id` of `len` samples is queued, with at most `bound` samples to commit up to its end. -/
def Queued (k : Sink) (id len bound : Nat) : Prop :=
  ∃ a b r, k.queue = a ++ r :: b ∧ r.id = id ∧ r.len = len ∧ pendingSamples (a ++ [r]) ≤ bound

/-- What a commit does to a queued request (R531, R532): it completes it, or brings it nearer by the frames committed. -/
theorem commit_queued (c : Cfg) (k : Sink) (id len bound : Nat) (hc : ∀ r ∈ k.queue, r.done + r.rem.length = r.len)
    (h : Queued k id len bound) : (⟨id, .completed len⟩ : Completion) ∈ (commit c k).completed
      ∨ Queued (commit c k) id len (bound - ((commit c k).w - max k.w k.p)) := by
  obtain ⟨a, b, r, hq, rfl, rfl, hb⟩ := h
  obtain ⟨n, R⟩ := commit_result c k (by rw [hq]; simp)
  obtain ⟨m, m1, -, m3⟩ := R.records
  have hn : (commit c k).w - max k.w k.p = n := by rw [R.w]; simp
  rw [hn]
  by_cases hm : a.length < m
  · left
    have hr : r ∈ k.queue := by rw [hq]; simp
    rw [m1]
    refine List.mem_append_right _ (List.mem_map.mpr ⟨r, ?_, by rw [hc r hr]⟩)
    obtain ⟨j, hj⟩ : ∃ j, m - a.length = j + 1 := ⟨m - a.length - 1, by omega⟩
    rw [hq, List.take_append, hj]
    simp
  · right
    have hd : k.queue.drop m = a.drop m ++ r :: b := by rw [hq, List.drop_append_of_le_length (by omega)]
    have hrest : pendingSamples (commit c k).queue = pendingSamples k.queue - n := by
      have := congrArg List.length R.rest
      rwa [List.length_drop] at this
    have hcnt : n ≤ pendingSamples k.queue := by
      rw [R.count]
      exact Nat.min_le_right _ _
    rw [hq, pendingSamples_append, pendingSamples_cons] at hrest hcnt
    rw [pendingSamples_append, pendingSamples_cons] at hb
    have h0 : pendingSamples [] = 0 := rfl
    rcases m3 with ⟨e, -⟩ | ⟨r0, l, j, e, e2⟩
    · simp [hd] at e
    · rw [hd] at e
      cases ha : a.drop m with
      | nil =>
        simp only [ha, List.nil_append, List.cons.injEq] at e
        obtain ⟨rfl, rfl⟩ := e
        refine ⟨[], b, _, e2, rfl, rfl, ?_⟩
        rw [e2, pendingSamples_cons] at hrest
        simp only [List.nil_append, pendingSamples_cons] at hrest ⊢
        omega
      | cons x a2 =>
        simp only [ha, List.cons_append, List.cons.injEq] at e
        obtain ⟨rfl, rfl⟩ := e
        refine ⟨_ :: a2, b, r, e2, rfl, rfl, ?_⟩
        rw [e2, pendingSamples_cons, pendingSamples_append, pendingSamples_cons] at hrest
        simp only [List.cons_append, pendingSamples_cons, pendingSamples_append] at hrest ⊢
        omega

end Sys2Proof.Machine
end

