-- ==== Sys2Proof/Laws/Tick.lean ====
section
/-! SUPPORT. What the stages of a tick do, field by field (45_frame_sequencer.md R400, R403). -/

namespace Sys2Proof.Machine

@[simp] theorem timerStage_cfg (s : State) : (timerStage s).cfg = s.cfg := by unfold timerStage; split <;> rfl
@[simp] theorem timerStage_cyc (s : State) : (timerStage s).cyc = s.cyc := by unfold timerStage; split <;> rfl
@[simp] theorem timerStage_reg (s : State) : (timerStage s).reg = s.reg := by unfold timerStage; split <;> rfl
@[simp] theorem timerStage_fs (s : State) : (timerStage s).fs = s.fs := by unfold timerStage; split <;> rfl
@[simp] theorem timerStage_events (s : State) : (timerStage s).events = s.events := by unfold timerStage; split <;> rfl
@[simp] theorem timerStage_lastAmp (s : State) : (timerStage s).lastAmp = s.lastAmp := by unfold timerStage; split <;> rfl
@[simp] theorem timerStage_rs (s : State) : (timerStage s).rs = s.rs := by unfold timerStage; split <;> rfl
@[simp] theorem timerStage_sink (s : State) : (timerStage s).sink = s.sink := by unfold timerStage; split <;> rfl
@[simp] theorem timerStage_diag (s : State) : (timerStage s).diag = s.diag := by unfold timerStage; split <;> rfl
@[simp] theorem timerStage_host (s : State) : (timerStage s).host = s.host := by unfold timerStage; split <;> rfl
theorem timerStage_p1 (s : State) : (timerStage s).p1 = if s.cyc % 2 = 0 then pulseTimerClock s.p1 else s.p1 := by
  unfold timerStage; split <;> rfl
theorem timerStage_p2 (s : State) : (timerStage s).p2 = if s.cyc % 2 = 0 then pulseTimerClock s.p2 else s.p2 := by
  unfold timerStage; split <;> rfl
theorem timerStage_tri (s : State) : (timerStage s).tri = if s.cyc % 2 = 0 then triTimerClock s.tri else s.tri := by
  unfold timerStage; split <;> rfl
theorem timerStage_noise (s : State) : (timerStage s).noise = if s.cyc % 2 = 0 then noiseTimerClock s.noise else s.noise := by
  unfold timerStage; split <;> rfl

@[simp] theorem quarterClocks_cfg (s : State) : (quarterClocks s).cfg = s.cfg := rfl
@[simp] theorem quarterClocks_cyc (s : State) : (quarterClocks s).cyc = s.cyc := rfl
@[simp] theorem quarterClocks_reg (s : State) : (quarterClocks s).reg = s.reg := rfl
@[simp] theorem quarterClocks_fs (s : State) : (quarterClocks s).fs = s.fs := rfl
@[simp] theorem quarterClocks_events (s : State) : (quarterClocks s).events = s.events := rfl
@[simp] theorem quarterClocks_lastAmp (s : State) : (quarterClocks s).lastAmp = s.lastAmp := rfl
@[simp] theorem quarterClocks_rs (s : State) : (quarterClocks s).rs = s.rs := rfl
@[simp] theorem quarterClocks_sink (s : State) : (quarterClocks s).sink = s.sink := rfl
@[simp] theorem quarterClocks_diag (s : State) : (quarterClocks s).diag = s.diag := rfl
@[simp] theorem quarterClocks_host (s : State) : (quarterClocks s).host = s.host := rfl
@[simp] theorem quarterClocks_p1 (s : State) : (quarterClocks s).p1 = { s.p1 with env := envClock s.p1.env } := rfl
@[simp] theorem quarterClocks_p2 (s : State) : (quarterClocks s).p2 = { s.p2 with env := envClock s.p2.env } := rfl
@[simp] theorem quarterClocks_tri (s : State) : (quarterClocks s).tri = linClock s.tri := rfl
@[simp] theorem quarterClocks_noise (s : State) : (quarterClocks s).noise = { s.noise with env := envClock s.noise.env } := rfl

@[simp] theorem halfClocks_cfg (s : State) : (halfClocks s).cfg = s.cfg := by simp [halfClocks]
@[simp] theorem halfClocks_cyc (s : State) : (halfClocks s).cyc = s.cyc := by simp [halfClocks]
@[simp] theorem halfClocks_reg (s : State) : (halfClocks s).reg = s.reg := by simp [halfClocks]
@[simp] theorem halfClocks_fs (s : State) : (halfClocks s).fs = s.fs := by simp [halfClocks]
@[simp] theorem halfClocks_events (s : State) : (halfClocks s).events = s.events := by simp [halfClocks]
@[simp] theorem halfClocks_lastAmp (s : State) : (halfClocks s).lastAmp = s.lastAmp := by simp [halfClocks]
@[simp] theorem halfClocks_rs (s : State) : (halfClocks s).rs = s.rs := by simp [halfClocks]
@[simp] theorem halfClocks_sink (s : State) : (halfClocks s).sink = s.sink := by simp [halfClocks]
@[simp] theorem halfClocks_diag (s : State) : (halfClocks s).diag = s.diag := by simp [halfClocks]
@[simp] theorem halfClocks_host (s : State) : (halfClocks s).host = s.host := by simp [halfClocks]
@[simp] theorem halfClocks_p1 (s : State) : (halfClocks s).p1 = pulseHalfClock s.p1 := rfl
@[simp] theorem halfClocks_p2 (s : State) : (halfClocks s).p2 = pulseHalfClock s.p2 := rfl
@[simp] theorem halfClocks_tri (s : State) : (halfClocks s).tri = { s.tri with len := lenClock s.tri.len (triHalt s.tri) } := rfl
@[simp] theorem halfClocks_noise (s : State) : (halfClocks s).noise = { s.noise with len := lenClock s.noise.len (noiseHalt s.noise) } := rfl

@[simp] theorem lengthLoads_cfg (s : State) : (lengthLoads s).cfg = s.cfg := rfl
@[simp] theorem lengthLoads_cyc (s : State) : (lengthLoads s).cyc = s.cyc := rfl
@[simp] theorem lengthLoads_reg (s : State) : (lengthLoads s).reg = s.reg := rfl
@[simp] theorem lengthLoads_fs (s : State) : (lengthLoads s).fs = s.fs := rfl
@[simp] theorem lengthLoads_events (s : State) : (lengthLoads s).events = s.events := rfl
@[simp] theorem lengthLoads_lastAmp (s : State) : (lengthLoads s).lastAmp = s.lastAmp := rfl
@[simp] theorem lengthLoads_rs (s : State) : (lengthLoads s).rs = s.rs := rfl
@[simp] theorem lengthLoads_sink (s : State) : (lengthLoads s).sink = s.sink := rfl
@[simp] theorem lengthLoads_diag (s : State) : (lengthLoads s).diag = s.diag := rfl
@[simp] theorem lengthLoads_host (s : State) : (lengthLoads s).host = s.host := rfl
@[simp] theorem lengthLoads_p1 (s : State) : (lengthLoads s).p1 = { s.p1 with len := lenLoad s.cfg s.p1.len } := rfl
@[simp] theorem lengthLoads_p2 (s : State) : (lengthLoads s).p2 = { s.p2 with len := lenLoad s.cfg s.p2.len } := rfl
@[simp] theorem lengthLoads_tri (s : State) : (lengthLoads s).tri = { s.tri with len := lenLoad s.cfg s.tri.len } := rfl
@[simp] theorem lengthLoads_noise (s : State) : (lengthLoads s).noise = { s.noise with len := lenLoad s.cfg s.noise.len } := rfl

@[simp] theorem frameClock_cfg (b : Bool) (s : State) : (frameClock b s).cfg = s.cfg := by
  unfold frameClock; split <;> simp
@[simp] theorem frameClock_cyc (b : Bool) (s : State) : (frameClock b s).cyc = s.cyc := by
  unfold frameClock; split <;> simp
@[simp] theorem frameClock_reg (b : Bool) (s : State) : (frameClock b s).reg = s.reg := by
  unfold frameClock; split <;> simp
@[simp] theorem frameClock_fs (b : Bool) (s : State) : (frameClock b s).fs = s.fs := by
  unfold frameClock; split <;> simp
@[simp] theorem frameClock_events (b : Bool) (s : State) : (frameClock b s).events = s.events := by
  unfold frameClock; split <;> simp
@[simp] theorem frameClock_lastAmp (b : Bool) (s : State) : (frameClock b s).lastAmp = s.lastAmp := by
  unfold frameClock; split <;> simp
@[simp] theorem frameClock_rs (b : Bool) (s : State) : (frameClock b s).rs = s.rs := by
  unfold frameClock; split <;> simp
@[simp] theorem frameClock_sink (b : Bool) (s : State) : (frameClock b s).sink = s.sink := by
  unfold frameClock; split <;> simp
@[simp] theorem frameClock_diag (b : Bool) (s : State) : (frameClock b s).diag = s.diag := by
  unfold frameClock; split <;> simp
@[simp] theorem frameClock_host (b : Bool) (s : State) : (frameClock b s).host = s.host := by
  unfold frameClock; split <;> simp

/-- The frame stage taken apart: the sequencer advances, the clocks run at a quarter-frame point, the counter wraps. -/
theorem frameStage_eq (s : State) :
    frameStage s =
      let s1 := if s.fs + 1 ∈ s.cfg.frameSteps then frameClock (decide (s.fs + 1 ∈ s.cfg.halfSteps)) (s.withFs (s.fs + 1))
        else s.withFs (s.fs + 1)
      if s.fs + 1 = s.cfg.framePeriod then s1.withFs 0 else s1 := by
  simp only [frameStage, State.withFs_cfg, State.withFs_fs, List.contains_eq_mem]
  by_cases h : s.fs + 1 ∈ s.cfg.frameSteps <;> simp [h]

@[simp] theorem frameStage_cfg (s : State) : (frameStage s).cfg = s.cfg := by
  rw [frameStage_eq]; simp only; split_ifs <;> simp
@[simp] theorem frameStage_cyc (s : State) : (frameStage s).cyc = s.cyc := by
  rw [frameStage_eq]; simp only; split_ifs <;> simp
@[simp] theorem frameStage_reg (s : State) : (frameStage s).reg = s.reg := by
  rw [frameStage_eq]; simp only; split_ifs <;> simp
@[simp] theorem frameStage_events (s : State) : (frameStage s).events = s.events := by
  rw [frameStage_eq]; simp only; split_ifs <;> simp
@[simp] theorem frameStage_lastAmp (s : State) : (frameStage s).lastAmp = s.lastAmp := by
  rw [frameStage_eq]; simp only; split_ifs <;> simp
@[simp] theorem frameStage_rs (s : State) : (frameStage s).rs = s.rs := by
  rw [frameStage_eq]; simp only; split_ifs <;> simp
@[simp] theorem frameStage_sink (s : State) : (frameStage s).sink = s.sink := by
  rw [frameStage_eq]; simp only; split_ifs <;> simp
@[simp] theorem frameStage_diag (s : State) : (frameStage s).diag = s.diag := by
  rw [frameStage_eq]; simp only; split_ifs <;> simp
@[simp] theorem frameStage_host (s : State) : (frameStage s).host = s.host := by
  rw [frameStage_eq]; simp only; split_ifs <;> simp
/-- The record of one channel after the timer and frame stages of a tick. -/
theorem tick_p1 (s : State) :
    (frameStage (timerStage s)).p1 = tickPulse s.cfg s.cyc (s.fs + 1) s.p1 := by
  rw [frameStage_eq]
  unfold frameClock tickPulse
  by_cases h1 : s.fs + 1 ∈ s.cfg.frameSteps <;> by_cases h2 : s.fs + 1 ∈ s.cfg.halfSteps <;>
    simp [timerStage_p1, apply_ite State.p1, h1, h2, pulseHalfClock, pulseHalt]
/-- The record of one channel after the timer and frame stages of a tick. -/
theorem tick_p2 (s : State) :
    (frameStage (timerStage s)).p2 = tickPulse s.cfg s.cyc (s.fs + 1) s.p2 := by
  rw [frameStage_eq]
  unfold frameClock tickPulse
  by_cases h1 : s.fs + 1 ∈ s.cfg.frameSteps <;> by_cases h2 : s.fs + 1 ∈ s.cfg.halfSteps <;>
    simp [timerStage_p2, apply_ite State.p2, h1, h2, pulseHalfClock, pulseHalt]
/-- The record of one channel after the timer and frame stages of a tick. -/
theorem tick_tri (s : State) :
    (frameStage (timerStage s)).tri = tickTri s.cfg s.cyc (s.fs + 1) s.tri := by
  rw [frameStage_eq]
  unfold frameClock tickTri
  by_cases h1 : s.fs + 1 ∈ s.cfg.frameSteps <;> by_cases h2 : s.fs + 1 ∈ s.cfg.halfSteps <;>
    simp [timerStage_tri, apply_ite State.tri, h1, h2, triHalt]
/-- The record of one channel after the timer and frame stages of a tick. -/
theorem tick_noise (s : State) :
    (frameStage (timerStage s)).noise = tickNoise s.cfg s.cyc (s.fs + 1) s.noise := by
  rw [frameStage_eq]
  unfold frameClock tickNoise
  by_cases h1 : s.fs + 1 ∈ s.cfg.frameSteps <;> by_cases h2 : s.fs + 1 ∈ s.cfg.halfSteps <;>
    simp [timerStage_noise, apply_ite State.noise, h1, h2, noiseHalt]
/-- The sequencer's counter advances and wraps (R402). -/
theorem frameStage_fs (s : State) :
    (frameStage s).fs = if s.fs + 1 = s.cfg.framePeriod then 0 else s.fs + 1 := by
  rw [frameStage_eq]
  simp only; split_ifs <;> simp

end Sys2Proof.Machine
end

