-- ==== Sys2Proof/Laws/Run.lean ====
section
/-! SUPPORT. What one turn can do to the sink, and endless runs (48_sink.md R537, R538, R540). -/

namespace Sys2Proof.Machine

/-- When RETRY is enabled (48_sink.md R537). -/
theorem retryEnabled_iff (s : State) :
    retryEnabled s = true ↔ s.sink.queue ≠ [] ∧ (fullness s.sink : Int) ≤ lowWm s.cfg := by
  simp [retryEnabled]

/-- A pushed batch leaves the sink. -/
theorem pushEvents_sink (l : List Event) (s : State) : (l.foldl pushEvent s).sink = s.sink := by
  induction l generalizing s with
  | nil => rfl
  | cons e l ih => exact (ih _).trans (pushEvent_sink s e)

/-- What one command can do to the configuration and the sink. -/
inductive SinkChange (i : Instr) (s t : State) : Prop where
  | same (h : t.sink = s.sink)
  | write (hi : i = .sinkw) (h : t.sink = (let k := enqueue (sinkOperand s.host) s.sink
      if s.sink.queue.isEmpty then commit s.cfg k else k))
  | advance (k : BitVec 24) (hi : i = .devadv k) (h : t.sink = { s.sink with p := s.sink.p + k.toNat })
  | stop (hi : i = .stop) (h : t.sink = stopSink s.sink)

theorem exec_sinkChange (i : Instr) (s t : State) (h : exec i s = .next t) : t.cfg = s.cfg ∧ SinkChange i s t := by
  rcases exec_cases i s with ⟨a, d, f, he, -, -, hf, -⟩ | ⟨a, d, rfl⟩ | ⟨a, rfl⟩ | rfl | rfl | rfl | rfl | rfl | ⟨k, rfl⟩ | rfl
  · rw [he] at h
    obtain rfl := Host.Outcome.next.inj h
    have w := apuWrite_writeFrame hf a d s
    exact ⟨w.cfg, .same w.sink⟩
  · obtain rfl := Host.Outcome.next.inj h
    exact ⟨rfl, .same rfl⟩
  · simp only [exec, execRd] at h
    split at h <;> (obtain rfl := Host.Outcome.next.inj h; exact ⟨rfl, .same rfl⟩)
  · obtain rfl := Host.Outcome.next.inj h
    exact ⟨by simp, .same (by simp)⟩
  · obtain rfl := Host.Outcome.next.inj h
    exact ⟨rfl, .same rfl⟩
  · obtain rfl := Host.Outcome.next.inj h
    exact ⟨(pushEvents_sameAudio _ s).cfg, .same (pushEvents_sink _ s)⟩
  · simp only [exec, execRender] at h
    split at h <;> (obtain rfl := Host.Outcome.next.inj h; exact ⟨rfl, .same rfl⟩)
  · obtain rfl := Host.Outcome.next.inj h
    exact ⟨rfl, .write rfl rfl⟩
  · obtain rfl := Host.Outcome.next.inj h
    exact ⟨rfl, .advance k rfl rfl⟩
  · obtain rfl := Host.Outcome.next.inj h
    exact ⟨rfl, .stop rfl rfl⟩

/-- Taking the turn in front of a schedule: the turn's own effect on the state as it was. -/
theorem step_withTurn (s : State) (tn : Turn) :
    step (s.withTurn tn) =
      match tn with
      | .retry => .next (offerRetry s)
      | .underrun => .next (offerUnderrun s)
      | .command w op =>
        match decode w with
        | .ok i => exec i (setOperand (operandFor i op) s)
        | .error _ => .next (refuseWord s) := by
  cases tn <;> rfl

/-- What one turn can do to the configuration and the sink. -/
theorem step_withTurn_sink (s t : State) (tn : Turn) (h : step (s.withTurn tn) = .next t) :
    t.cfg = s.cfg ∧
      (t.sink = s.sink
        ∨ (tn = .retry ∧ retryEnabled s = true ∧ t.sink = commit s.cfg s.sink)
        ∨ (tn = .underrun ∧ underrunEnabled s = true
            ∧ t.sink = { s.sink with buf := [], w := s.sink.p, wdArmed := false })
        ∨ (∃ w op, tn = .command w op ∧ decode w = .ok .sinkw
            ∧ t.sink = (let k := enqueue (sinkOperand { s.host with operand := operandFor .sinkw op }) s.sink
                if s.sink.queue.isEmpty then commit s.cfg k else k))
        ∨ (∃ k, tn.runs (.devadv k) ∧ t.sink = { s.sink with p := s.sink.p + k.toNat })
        ∨ (tn.runs .stop ∧ t.sink = stopSink s.sink)) := by
  rw [step_withTurn] at h
  cases tn with
  | retry =>
    obtain rfl := Host.Outcome.next.inj h
    unfold offerRetry
    split
    · next he => exact ⟨rfl, .inr (.inl ⟨rfl, he, rfl⟩)⟩
    · exact ⟨rfl, .inl rfl⟩
  | underrun =>
    obtain rfl := Host.Outcome.next.inj h
    unfold offerUnderrun
    split
    · next he => exact ⟨rfl, .inr (.inr (.inl ⟨rfl, he, rfl⟩))⟩
    · exact ⟨rfl, .inl rfl⟩
  | command w op =>
    cases hd : decode w with
    | error e =>
      simp only [hd] at h
      obtain rfl := Host.Outcome.next.inj h
      exact ⟨rfl, .inl rfl⟩
    | ok i =>
      simp only [hd] at h
      obtain ⟨hc, hs⟩ := exec_sinkChange i _ t h
      refine ⟨hc, ?_⟩
      cases hs with
      | same hs => exact .inl hs
      | write hi hs => subst hi; exact .inr (.inr (.inr (.inl ⟨w, op, rfl, hd, hs⟩)))
      | advance k hi hs => subst hi; exact .inr (.inr (.inr (.inr (.inl ⟨k, ⟨w, op, rfl, hd⟩, hs⟩))))
      | stop hi hs => subst hi; exact .inr (.inr (.inr (.inr (.inr ⟨⟨w, op, rfl, hd⟩, hs⟩))))

/-- A queued request stays as near its end, and the fullness does not rise, in any turn but STOP and an enabled RETRY. -/
theorem queued_kept (s t : State) (tn : Turn) (id len bound : Nat) (h : step (s.withTurn tn) = .next t)
    (hs : ¬tn.runs .stop) (hr : ¬(tn = .retry ∧ retryEnabled s = true)) (hq : Queued s.sink id len bound) :
    Queued t.sink id len bound ∧ fullness t.sink ≤ fullness s.sink := by
  obtain ⟨a, b, r, e, h1, h2, h3⟩ := hq
  have hne : s.sink.queue.isEmpty = false := by rw [e]; simp
  unfold fullness
  rcases (step_withTurn_sink s t tn h).2 with
    c | ⟨c, d, -⟩ | ⟨-, -, c⟩ | ⟨w, op, -, -, c⟩ | ⟨k, -, c⟩ | ⟨c, -⟩
  · rw [c]
    exact ⟨⟨a, b, r, e, h1, h2, h3⟩, le_refl _⟩
  · exact absurd ⟨c, d⟩ hr
  · rw [c]
    exact ⟨⟨a, b, r, e, h1, h2, h3⟩, by simp⟩
  · simp only [hne] at c
    rw [c]
    exact ⟨⟨a, b ++ [_], r, by simp [enqueue, e]; rfl, h1, h2, h3⟩, by simp [enqueue]⟩
  · rw [c]
    exact ⟨⟨a, b, r, e, h1, h2, h3⟩, by simp only; omega⟩
  · exact absurd c hs

/-- The run of an endless schedule from a state. -/
def runFrom (turn : Nat → Turn) (s : State) : Nat → State
  | 0 => s
  | n + 1 =>
    match step ((runFrom turn s n).withTurn (turn n)) with
    | .next t => t
    | .fault _ => runFrom turn s n
    | .refused _ => runFrom turn s n

/-- A command always completes (60_exceptions.md R601). -/
theorem exec_answers (i : Instr) (s : State) : ∃ t, exec i s = .next t := by
  cases i
  case rd a => simp only [exec, execRd]; split <;> exact ⟨_, rfl⟩
  case render => simp only [exec, execRender]; split <;> exact ⟨_, rfl⟩
  all_goals exact ⟨_, rfl⟩

/-- A turn offered to the machine is always taken (R601). -/
theorem step_withTurn_answers (s : State) (tn : Turn) : ∃ t, step (s.withTurn tn) = .next t := by
  rw [step_withTurn]
  cases tn with
  | retry => exact ⟨_, rfl⟩
  | underrun => exact ⟨_, rfl⟩
  | command w op =>
    cases hd : decode w with
    | error e => simp only [hd]; exact ⟨_, rfl⟩
    | ok i => simp only [hd]; exact exec_answers i _

/-- Every endless schedule has its run from every state. -/
theorem isRun_runFrom (turn : Nat → Turn) (s : State) : IsRun turn (runFrom turn s) := by
  intro n
  obtain ⟨t, ht⟩ := step_withTurn_answers (runFrom turn s n) (turn n)
  simp only [runFrom, ht]

end Sys2Proof.Machine
end

