-- ==== Sys2Proof/Tests/Slice0.lean ====
section
/-! SUPPORT. Tests of the model on the spec's own vectors (95_test_vectors.md), and a witness for the hypotheses of every
statement that has some. -/

open Sys2Proof Sys2Proof.Machine

namespace Sys2Proof.Tests

set_option Elab.async false

/-! ## Helpers -/

/-- The state a command leaves. -/
def after (i : Instr) (s : State) : State :=
  match exec i s with
  | .next t => t
  | _ => s

/-- The state a step leaves. -/
def stepped (s : State) : State :=
  match step s with
  | .next t => t
  | _ => s

/-- The reset state with the cycle count and the sequencer at `n`. -/
def at_ (n : Nat) : State := { State.reset with cyc := n, fs := n }

/-- The reset state with a schedule. -/
def withTurns (l : List Turn) : State := State.reset.withHost { State.reset.host with turns := l }

/-- The construction parameters of 95_test_vectors.md section 7. -/
def cfg7 : Cfg := { defaultCfg .ntsc with radius := 2, phaseCount := 4 }

/-- The sink geometry of 95_test_vectors.md section 6: `C = 16`, `HWM = 12`, `LWM = 4`. -/
def cfg6 : Cfg := { cfg7 with sinkSeconds := 16 / 44100, highWmFrac := 3 / 4, lowWmFrac := 1 / 4 }

/-- The resampler parameters of 95_test_vectors.md section 5.3. -/
def cfg5 : Cfg := { cfg7 with sampleRate := 4, clockHz := 1 }

/-- The number 1 as a sample. -/
def one : Sample := Sample.ofRat 1

/-- A sink of section 6 with a write of `n` samples still to come. -/
def sink6 (n : Nat) : State := (State.ofCfg cfg6).withHost { State.reset.host with lastRender := List.replicate n one }

/-- The sink of section 6 after the write of 20 samples. -/
def sink6After : State := after .sinkw (sink6 20)

/-- Pulse 1 of section 1.4, sounding. -/
def sounding : Pulse :=
  { Pulse.zero true with
    duty := 2#2, phase := 1#3, period := 0x100#11
    env := { Envelope.zero with isConst := true, vol := 8#4 }
    len := { Length.zero with counter := 254#8, enabled := true } }

/-! ## Well-formedness: a term each check refuses -/

theorem test_wf_refuses_rd_outside : (Instr.rd 0x4014#16).wf = false ∧ (Instr.rd 0x0000#16).wf = false := by decide
theorem test_wf_refuses_nonapu_inside : (Instr.wrNonapu 0x4000#16 0x00#8).wf = false ∧ (Instr.wrNonapu 0x4017#16 0x00#8).wf = false := by
  decide
theorem test_wf_accepts : (Instr.rd 0x4015#16).wf = true ∧ (Instr.wrNonapu 0x4016#16 0x01#8).wf = true := by decide

/-! ## Decoding: one word of every row, its fields `CLASS`, `RSV`, `ADDR`, `DATA` (or `ARG`) written out from
30_encoding.md R140 to R142 -/

theorem test_decode_wrP1Ctrl : decode (0b0000#4 ++ 0b0000#4 ++ 0x4000#16 ++ 0x98#8) = .ok (.wrP1Ctrl 0x98#8) := by decide
theorem test_decode_wrP1Sweep : decode (0b0000#4 ++ 0b0000#4 ++ 0x4001#16 ++ 0xBD#8) = .ok (.wrP1Sweep 0xBD#8) := by decide
theorem test_decode_wrP1Lo : decode (0b0000#4 ++ 0b0000#4 ++ 0x4002#16 ++ 0xE2#8) = .ok (.wrP1Lo 0xE2#8) := by decide
theorem test_decode_wrP1Hi : decode (0b0000#4 ++ 0b0000#4 ++ 0x4003#16 ++ 0x07#8) = .ok (.wrP1Hi 0x07#8) := by decide
theorem test_decode_wrP2Ctrl : decode (0b0000#4 ++ 0b0000#4 ++ 0x4004#16 ++ 0x2C#8) = .ok (.wrP2Ctrl 0x2C#8) := by decide
theorem test_decode_wrP2Sweep : decode (0b0000#4 ++ 0b0000#4 ++ 0x4005#16 ++ 0x51#8) = .ok (.wrP2Sweep 0x51#8) := by decide
theorem test_decode_wrP2Lo : decode (0b0000#4 ++ 0b0000#4 ++ 0x4006#16 ++ 0x76#8) = .ok (.wrP2Lo 0x76#8) := by decide
theorem test_decode_wrP2Hi : decode (0b0000#4 ++ 0b0000#4 ++ 0x4007#16 ++ 0x9B#8) = .ok (.wrP2Hi 0x9B#8) := by decide
theorem test_decode_wrTriLinear : decode (0b0000#4 ++ 0b0000#4 ++ 0x4008#16 ++ 0xC0#8) = .ok (.wrTriLinear 0xC0#8) := by decide
theorem test_decode_wrTriUnused : decode (0b0000#4 ++ 0b0000#4 ++ 0x4009#16 ++ 0xE5#8) = .ok (.wrTriUnused 0xE5#8) := by decide
theorem test_decode_wrTriLo : decode (0b0000#4 ++ 0b0000#4 ++ 0x400A#16 ++ 0x0A#8) = .ok (.wrTriLo 0x0A#8) := by decide
theorem test_decode_wrTriHi : decode (0b0000#4 ++ 0b0000#4 ++ 0x400B#16 ++ 0x2F#8) = .ok (.wrTriHi 0x2F#8) := by decide
theorem test_decode_wrNoiCtrl : decode (0b0000#4 ++ 0b0000#4 ++ 0x400C#16 ++ 0x54#8) = .ok (.wrNoiCtrl 0x54#8) := by decide
theorem test_decode_wrNoiUnused : decode (0b0000#4 ++ 0b0000#4 ++ 0x400D#16 ++ 0x79#8) = .ok (.wrNoiUnused 0x79#8) := by decide
theorem test_decode_wrNoiPeriod : decode (0b0000#4 ++ 0b0000#4 ++ 0x400E#16 ++ 0x9E#8) = .ok (.wrNoiPeriod 0x9E#8) := by decide
theorem test_decode_wrNoiLen : decode (0b0000#4 ++ 0b0000#4 ++ 0x400F#16 ++ 0xC3#8) = .ok (.wrNoiLen 0xC3#8) := by decide
theorem test_decode_wrDmc0 : decode (0b0000#4 ++ 0b0000#4 ++ 0x4010#16 ++ 0xE8#8) = .ok (.wrDmc0 0xE8#8) := by decide
theorem test_decode_wrDmc1 : decode (0b0000#4 ++ 0b0000#4 ++ 0x4011#16 ++ 0x0D#8) = .ok (.wrDmc1 0x0D#8) := by decide
theorem test_decode_wrDmc2 : decode (0b0000#4 ++ 0b0000#4 ++ 0x4012#16 ++ 0x32#8) = .ok (.wrDmc2 0x32#8) := by decide
theorem test_decode_wrDmc3 : decode (0b0000#4 ++ 0b0000#4 ++ 0x4013#16 ++ 0x57#8) = .ok (.wrDmc3 0x57#8) := by decide
theorem test_decode_wrStatus : decode (0b0000#4 ++ 0b0000#4 ++ 0x4015#16 ++ 0x7C#8) = .ok (.wrStatus 0x7C#8) := by decide
theorem test_decode_wrFrame : decode (0b0000#4 ++ 0b0000#4 ++ 0x4017#16 ++ 0xA1#8) = .ok (.wrFrame 0xA1#8) := by decide
theorem test_decode_wrNonapu : decode (0b0000#4 ++ 0b0000#4 ++ 0x4016#16 ++ 0x01#8) = .ok (.wrNonapu 0x4016#16 0x01#8) := by
  decide
theorem test_decode_rd : decode (0b0001#4 ++ 0b0000#4 ++ 0x4015#16 ++ 0x00#8) = .ok (.rd 0x4015#16) := by decide
theorem test_decode_tick : decode (0b0010#4 ++ 0b0000#4 ++ 0x000000#24) = .ok .tick := by decide
theorem test_decode_drain : decode (0b0011#4 ++ 0b0000#4 ++ 0x000000#24) = .ok .drain := by decide
theorem test_decode_push : decode (0b0100#4 ++ 0b0000#4 ++ 0x000000#24) = .ok .push := by decide
theorem test_decode_render : decode (0b0101#4 ++ 0b0000#4 ++ 0x000000#24) = .ok .render := by decide
theorem test_decode_sinkw : decode (0b0110#4 ++ 0b0000#4 ++ 0x000000#24) = .ok .sinkw := by decide
theorem test_decode_devadv : decode (0b0111#4 ++ 0b0000#4 ++ 0x000188#24) = .ok (.devadv 392#24) := by decide
theorem test_decode_stop : decode (0b1000#4 ++ 0b0000#4 ++ 0x000000#24) = .ok .stop := by decide

/-- The refused words of section 7. -/
theorem test_decode_refuses :
    decode 0x90000000#32 = .error .reservedClass ∧ decode 0xF0000000#32 = .error .reservedClass
      ∧ decode 0x01400000#32 = .error .reservedBits ∧ decode 0x20000001#32 = .error .argNotZero
      ∧ decode 0x30000100#32 = .error .argNotZero ∧ decode 0x80800000#32 = .error .argNotZero
      ∧ decode 0x10401501#32 = .error .argNotZero ∧ decode 0x10401400#32 = .error .rdNonApu
      ∧ decode 0x10401600#32 = .error .rdNonApu ∧ decode 0x10000000#32 = .error .rdNonApu := by decide

/-- Every address is some `WR` row's (R146): an address far outside takes the catch-all row. -/
theorem test_decode_far_address : decode 0x00FFFF00#32 = .ok (.wrNonapu 0xFFFF#16 0x00#8) := by decide

/-- The assembler lines of section 7 (R150, R151). -/
theorem test_assemble :
    assembleText "WR $4000, #$98".toList = some [0x00400098#32] ∧ assembleText "RD $4015".toList = some [0x10401500#32]
      ∧ assembleText "DEVADV #392".toList = some [0x70000188#32]
      ∧ assembleText "NOTE P1, #$100, #1".toList = some [0x00400200#32, 0x00400309#32]
      ∧ assembleText "NOTE TRI, #$003, #1".toList = some [0x00400A03#32, 0x00400B08#32] := by decide +kernel

/-! ## The commands, on the vectors of sections 1 to 6 -/

theorem test_wrP1Ctrl : (after (.wrP1Ctrl 0x98#8) State.reset).p1.duty = 2#2
    ∧ (after (.wrP1Ctrl 0x98#8) State.reset).p1.env = { Envelope.zero with isConst := true, vol := 8#4 } := by decide
/-- Two writes at one time append two events of that time (section 1.4). -/
theorem test_wrP1Ctrl_same_time :
    (after (.wrP1Ctrl 0x90#8) (after (.wrP1Ctrl 0x9F#8)
        { at_ 8226 with p1 := sounding, lastAmp := 799 / 9300 })).events
      = [⟨8226 / 1789773, 7191 / 48140⟩, ⟨8226 / 1789773, 0⟩] := by decide +kernel
theorem test_wrP1Sweep : (after (.wrP1Sweep 0x7F#8) State.reset).p1.sw = ⟨false, 7#3, true, 7#3, true, 0#3⟩ := by decide
theorem test_wrP1Lo : (after (.wrP1Lo 0xFD#8) { State.reset with p1 := { sounding with silenced := true } }).p1
    = { sounding with period := 0x1FD#11 } := by decide
theorem test_wrP1Hi : (after (.wrP1Hi 0x09#8) State.reset).p1
    = { Pulse.zero true with
        period := 0x100#11
        env := { Envelope.zero with start := true }
        len := { Length.zero with pending := true, index := 1#5 } } := by decide
theorem test_wrP1Hi_halted :
    (after (.wrP1Hi 0x0F#8) { State.reset with p1 := { sounding with env := { Envelope.zero with loop := true } } }).p1
      = { sounding with
          period := 0x700#11
          phase := 0#3
          env := { Envelope.zero with loop := true, start := true } } := by decide
theorem test_wrP2Ctrl : (after (.wrP2Ctrl 0xFF#8) State.reset).p2.duty = 3#2
    ∧ (after (.wrP2Ctrl 0xFF#8) State.reset).p2.env = ⟨false, true, true, 15#4, 0#4, 0#4⟩ := by decide
theorem test_wrP2Sweep : (after (.wrP2Sweep 0x89#8) { State.reset with p2 := { Pulse.zero false with silenced := true } }).p2
    = { Pulse.zero false with sw := ⟨true, 0#3, true, 1#3, true, 0#3⟩, silenced := true } := by decide
theorem test_wrP2Lo : (after (.wrP2Lo 0x08#8) State.reset).p2.period = 8#11 := by decide
theorem test_wrP2Hi : (after (.wrP2Hi 0x08#8) State.reset).p2.len = ⟨0#8, false, true, 1#5⟩
    ∧ (after (.wrP2Hi 0x08#8) State.reset).p2.env.start = true := by decide
theorem test_wrTriLinear : (after (.wrTriLinear 0x81#8) State.reset).tri.control = true
    ∧ (after (.wrTriLinear 0x81#8) State.reset).tri.lin = ⟨1#7, 0#7, true⟩ := by decide
/-- Section 4: `$4009` is stored, no event. -/
theorem test_wrTriUnused : (after (.wrTriUnused 0xFF#8) State.reset).reg = [(0x4009, 0xFF#8)]
    ∧ (after (.wrTriUnused 0xFF#8) State.reset).events = [] := by decide +kernel
theorem test_wrTriLo : (after (.wrTriLo 0x03#8) State.reset).tri.period = 3#11 := by decide
theorem test_wrTriHi :
    (after (.wrTriHi 0x08#8) { State.reset with tri := { Triangle.zero with phase := 4#5, lin := ⟨5#7, 0#7, true⟩ } }).tri
      = { Triangle.zero with phase := 4#5, lin := ⟨5#7, 0#7, true⟩, len := ⟨0#8, false, true, 1#5⟩ } := by decide
theorem test_wrNoiCtrl : (after (.wrNoiCtrl 0x1F#8) State.reset).noise.env = ⟨false, false, true, 15#4, 0#4, 0#4⟩ := by decide
theorem test_wrNoiUnused : (after (.wrNoiUnused 0x12#8) State.reset).reg = [(0x400D, 0x12#8)] := by decide
theorem test_wrNoiPeriod : (after (.wrNoiPeriod 0x0F#8) State.reset).noise.period = 4068#12
    ∧ (after (.wrNoiPeriod 0x0F#8) (State.ofCfg (defaultCfg .pal))).noise.period = 3778#12 := by decide
theorem test_wrNoiPeriod_short : (after (.wrNoiPeriod 0x80#8) State.reset).noise.short = true
    ∧ (after (.wrNoiPeriod 0x80#8) State.reset).noise.period = 4#12 := by decide
theorem test_wrNoiLen : (after (.wrNoiLen 0x08#8) State.reset).noise
    = { Noise.zero with len := ⟨0#8, false, true, 1#5⟩, env := { Envelope.zero with start := true } } := by decide
theorem test_wrDmc0 : (after (.wrDmc0 0xA5#8) State.reset).reg = [(0x4010, 0xA5#8)] := by decide
theorem test_wrDmc1 : (after (.wrDmc1 0x7F#8) State.reset).reg = [(0x4011, 0x7F#8)] := by decide
theorem test_wrDmc2 : (after (.wrDmc2 0x01#8) State.reset).reg = [(0x4012, 0x01#8)] := by decide
theorem test_wrDmc3 : (after (.wrDmc3 0x02#8) State.reset).reg = [(0x4013, 0x02#8)] := by decide
/-- Section 0 S1: clearing the bit of a sounding channel appends a silent event in the same command. -/
theorem test_wrStatus_silences :
    (after (.wrStatus 0x00#8) { at_ 8226 with p1 := sounding, lastAmp := 799 / 9300 }).events = [⟨8226 / 1789773, 0⟩]
      ∧ (after (.wrStatus 0x00#8) { at_ 8226 with p1 := sounding }).p1.len = ⟨0#8, false, false, 0#5⟩ := by decide +kernel
theorem test_wrStatus_enables : (after (.wrStatus 0x05#8) State.reset).p1.len.enabled = true
    ∧ (after (.wrStatus 0x05#8) State.reset).p2.len.enabled = false
    ∧ (after (.wrStatus 0x05#8) State.reset).tri.len.enabled = true
    ∧ (after (.wrStatus 0x05#8) State.reset).noise.len.enabled = false := by decide
/-- Section 2: `$4017` is stored, the sequencer is unchanged. -/
theorem test_wrFrame : (after (.wrFrame 0xC0#8) (at_ 100)).fs = 100
    ∧ (after (.wrFrame 0xC0#8) (at_ 100)).reg = [(0x4017, 0xC0#8)] := by decide
theorem test_wrNonapu : after (.wrNonapu 0x4016#16 0x01#8) State.reset = State.reset := by decide +kernel
/-- Program N: `RD` returns the byte last written, `$00` where none was. -/
theorem test_rd : (after (.rd 0x4009#16) (after (.rd 0x4017#16) (after (.wrFrame 0xC0#8) State.reset))).host.trace
    = [.readByte 0x4017#16 0xC0#8, .readByte 0x4009#16 0x00#8] := by decide
/-- Section 2: no timer clock at tick 1, the first at tick 2 (the triangle's period-0 timer advances its phase). -/
theorem test_tick_timers : (after .tick State.reset).tri.phase = 0#5 ∧ (after .tick (at_ 1)).tri.phase = 1#5 := by decide
/-- Sections 1.3 and 2: at the half frame `T = 14913` `LenClock` runs before `LenLoad`; period 0 silences; then the wrap. -/
theorem test_tick_half_frame :
    (after .tick { at_ 14912 with p1 := { Pulse.zero true with len := ⟨7#8, true, true, 1#5⟩ } }).p1.len = ⟨254#8, true, false, 1#5⟩
      ∧ (after .tick (at_ 14912)).p1.silenced = true ∧ (after .tick (at_ 7456)).p1.silenced = false
      ∧ (after .tick (at_ 29828)).fs = 29829 ∧ (after .tick (at_ 29829)).fs = 0 := by decide +kernel
/-- Section 4: `DRAIN` from reset, and again. -/
theorem test_drain : (after .drain State.reset).host.lastDrain = [⟨0, 0⟩]
    ∧ (after .drain (after .drain State.reset)).host.lastDrain = [⟨0, 0⟩]
    ∧ (after .drain (at_ 100)).host.lastDrain = [⟨100 / 1789773, 0⟩] := by decide +kernel
/-- Section 5.3 vector 4: a late event becomes one weight at the horizon, and is counted. -/
theorem test_push_late :
    (after .push { State.ofCfg cfg5 with rs := ⟨6, one, 1, []⟩, host := ⟨[], .events [⟨3 / 2, 0⟩], [], [], [], 0⟩ }).rs
        = ⟨6, one, 0, [[(6, Sample.ofRat (-1))]]⟩
      ∧ (after .push { State.ofCfg cfg5 with rs := ⟨6, one, 1, []⟩, host := ⟨[], .events [⟨3 / 2, 0⟩], [], [], [], 0⟩ }).diag.late = 1 := by
  decide +kernel
/-- Section 5.3 vector 3: the window of an event is folded to the horizon. -/
theorem test_push_folds :
    ((after .push { State.ofCfg cfg5 with rs := ⟨6, one, 1 / 2, []⟩, host := ⟨[], .events [⟨7 / 4, 1⟩], [], [], [], 0⟩ }).rs.pend.map
      (fun l => l.map Prod.fst)) = [[6, 6, 7, 8]] := by decide +kernel
/-- R143: a list given beside PUSH is used once and leaves the latch; beside TICK it does nothing. -/
theorem test_step_operand :
    (stepped (withTurns [.command 0x40000000#32 (.events [⟨1, 1 / 2⟩])])).rs.baseline = 1 / 2
      ∧ (stepped (withTurns [.command 0x40000000#32 (.events [⟨1, 1 / 2⟩])])).host = ⟨[], .latched, [], [], [], 0⟩
      ∧ (stepped (withTurns [.command 0x20000000#32 (.events [⟨1, 1 / 2⟩])])).host = ⟨[], .latched, [], [], [], 0⟩
      ∧ (stepped (withTurns [.command 0x60000000#32 (.samples [.given 0])])).sink.completed = [⟨0, .completed 1⟩]
      ∧ slotRead (stepped (withTurns [.command 0x60000000#32 (.samples [.given 0])])).sink.buf 0 = ⟨.given 0, .given 0⟩ := by
  decide +kernel
/-- Section 5.3 vectors 2 and 7: `E = 6` at time 2, with a last sample of exactly the baseline; nothing at time 0. -/
theorem test_render :
    (after .render { after .push { State.ofCfg cfg5 with host := ⟨[], .latched, [⟨1, 1 / 2⟩], [], [], 0⟩ } with cyc := 2 }).rs
        = ⟨6, Sample.ofRat (1 / 2), 1 / 2, []⟩
      ∧ (after .render (State.ofCfg cfg5)).host.lastRender = [] := by decide +kernel
/-- Section 6, row 1. -/
theorem test_sinkw : sink6After.sink.w = 12 ∧ sink6After.sink.queue = [⟨0, 20, List.replicate 8 one, 12⟩]
    ∧ sink6After.sink.wdArmed = true ∧ sink6After.sink.wdDeadline = 12
    ∧ slotRead sink6After.sink.buf 11 = ⟨one, one⟩ ∧ slotRead sink6After.sink.buf 12 = silence := by decide +kernel
/-- Section 6: an empty write completes at once and does not arm the watchdog. -/
theorem test_sinkw_empty : (after .sinkw (sink6 0)).sink.completed = [⟨0, .completed 0⟩]
    ∧ (after .sinkw (sink6 0)).sink.wdArmed = false := by decide +kernel
/-- Section 6: `DEVADV #2` returns the first two frames; `DEVADV #0` nothing. -/
theorem test_devadv :
    (after (.devadv 2#24) sink6After).host.trace.getLast? = some (.played [⟨one, one⟩, ⟨one, one⟩])
      ∧ (after (.devadv 2#24) sink6After).sink.p = 2
      ∧ (after (.devadv 0#24) sink6After).host.trace.getLast? = some (.played []) := by decide +kernel
/-- Section 6: `STOP` aborts the queue. -/
theorem test_stop : (after .stop sink6After).sink.completed = [⟨0, .aborted 12⟩] ∧ (after .stop sink6After).sink.w = 0
    ∧ (after .stop sink6After).sink.buf = [] ∧ (after .stop sink6After).sink.wdArmed = false := by decide +kernel
/-- Section 6, rows 2 and 3: after `DEVADV #8` a `RETRY` commits the 8 samples left. -/
theorem test_retry :
    (stepped ((after (.devadv 8#24) sink6After).withHost { State.reset.host with turns := [.retry] })).sink.w = 20
      ∧ (stepped ((after (.devadv 8#24) sink6After).withHost { State.reset.host with turns := [.retry] })).sink.completed
          = [⟨0, .completed 20⟩] := by decide +kernel
/-- Section 6: an enabled `UNDERRUN` clears the buffer and counts; a disabled one passes. -/
theorem test_underrun :
    (stepped ((after (.devadv 12#24) sink6After).withHost { State.reset.host with turns := [.underrun] })).diag.underrun = 1
      ∧ (stepped (sink6After.withHost { State.reset.host with turns := [.underrun] })).diag.underrun = 0 := by decide +kernel
/-- Section 7: the construction checks, with their order. -/
theorem test_construct :
    checkCfg cfg7 = none ∧ checkCfg { cfg7 with phaseCount := 1 } = some .configOddPhaseCount
      ∧ checkCfg { cfg7 with phaseCount := 3, radius := 0 } = some .configOddPhaseCount
      ∧ checkCfg { cfg7 with phaseCount := 0 } = some .configBadParam
      ∧ checkCfg { cfg7 with sinkSeconds := 1 / 88200 } = some .configBadParam
      ∧ checkCfg { cfg7 with highWmFrac := 1 / 4, lowWmFrac := 1 / 2 } = some .configBadParam
      ∧ checkCfg { cfg7 with frameSteps := [7457, 7457, 22371, 29829] } = some .configBadParam
      ∧ checkCfg { cfg7 with kernel := some [[0, 0, 1, 0], [0, 0, 1, 0]] } = some .configNonRectangular
      ∧ checkCfg { cfg7 with lengthTable := lengthTable.drop 1 } = some .configNonRectangular := by decide +kernel

/-! ## Shared operations, on the spec's tables -/

/-- Section 1.4: the sweep targets. -/
theorem test_sweepTarget :
    sweepTarget { Pulse.zero true with period := 0x200#11, sw := { Sweep.zero with neg := true, shift := 1#3 } } = 255
      ∧ sweepTarget { Pulse.zero false with period := 0x200#11, sw := { Sweep.zero with neg := true, shift := 1#3 } } = 256
      ∧ sweepTarget { Pulse.zero true with period := 0x7FF#11, sw := { Sweep.zero with shift := 7#3 } } = 2062 := by decide
/-- Section 1.4: one sweep clock with its reload flag set. -/
theorem test_sweepClock :
    sweepClock { Pulse.zero true with period := 0x100#11, sw := ⟨true, 1#3, false, 1#3, true, 0#3⟩ }
      = { Pulse.zero true with period := 0x180#11, sw := ⟨true, 1#3, false, 1#3, false, 1#3⟩ } := by decide
/-- Section 1.6: the LFSR after 16 steps in each mode. -/
theorem test_lfsr : lfsrAfter false 16 1#15 = 0x6000#15 ∧ lfsrAfter true 16 1#15 = 0x4100#15 := by decide
/-- Section 3: the mixer. -/
theorem test_mix : mix 8 0 0 0 = 799 / 9300 ∧ mix 3 5 7 9 = 330593373203 / 1085121275100
    ∧ mix 15 15 15 15 = 2309773763793 / 3655790228740 := by decide +kernel
/-- Section 5.2: placing. -/
theorem test_locate : locate cfg5 (5 / 8) = ⟨5 / 2, 3, 2, true⟩ ∧ locate cfg5 (29 / 40) = ⟨29 / 10, 3, 0, false⟩
    ∧ locate cfg5 (11 / 16) = ⟨11 / 4, 3, 1, true⟩ ∧ locate cfg5 (9 / 16) = ⟨9 / 4, 2, 1, false⟩ := by decide +kernel
/-- A store keeps its one form: writing what an unlisted key reads as removes the entry. -/
theorem test_store : Memory.write (Memory.write (Memory.write [] 0x4003#16 5#8) 0x4000#16 7#8) 0x4003#16 0#8 = [(0x4000, 7#8)] := by
  decide

/-! ## Witnesses: a state and operands that meet each statement's hypotheses -/

theorem witness_DecodeOfEncode :
    (Instr.rd 0x4013#16).wf = true ∧ (Instr.wrNonapu 0x4014#16 0xFF#8).wf = true ∧ Instr.stop.wf = true := by decide
theorem witness_EncodeOfDecode : decode 0x004017C0#32 = .ok (.wrFrame 0xC0#8) := by decide
theorem witness_DecoderFollowsOpcodeTable : decode 0x10401500#32 = .ok (.rd 0x4015#16) ∧ rowMnemonic 0x90000000#32 = none := by
  decide
theorem witness_StepRunsDecodedCommand :
    (withTurns [.command 0x20000000#32 .latched]).host.turns = .command 0x20000000#32 .latched :: []
      ∧ decode 0x20000000#32 = .ok .tick ∧ decode 0x40000000#32 = .ok .push ∧ decode 0x60000000#32 = .ok .sinkw := by decide
theorem witness_RefusedWordOnlySetsMark_refused :
    (withTurns [.command 0x20000001#32 .latched]).host.turns = .command 0x20000001#32 .latched :: []
      ∧ decode 0x20000001#32 = .error .argNotZero := by decide
theorem witness_RefusedWordOnlySetsMark_sticky :
    step { State.reset with diag := ⟨0, 0, true⟩ } = .next (idleStep { State.reset with diag := ⟨0, 0, true⟩ })
      ∧ ({ State.reset with diag := ⟨0, 0, true⟩ } : State).diag.refused = true := ⟨rfl, rfl⟩
theorem witness_SinkAgentTurns_retry : (withTurns [.retry]).host.turns = .retry :: [] := by decide
theorem witness_SinkAgentTurns_underrun : (withTurns [.underrun]).host.turns = .underrun :: [] := by decide
theorem witness_ExhaustedScheduleStep_ended : State.reset.host.turns = [] ∧ runEnded State.reset = true := by decide +kernel
/-- A deferred request that waits for the device: the run is not over and no agent step is enabled. -/
theorem witness_ExhaustedScheduleStep_waiting :
    sink6After.host.turns = [] ∧ sink6After.sink.queue ≠ [] ∧ retryEnabled sink6After = false
      ∧ underrunEnabled sink6After = false ∧ runEnded sink6After = false := by decide +kernel
/-- At `P = 8` only `RETRY` is enabled; at `P = 12` both are; with the queue gone only `UNDERRUN`. -/
theorem witness_ExhaustedScheduleStep_enabled :
    (after (.devadv 8#24) sink6After).host.turns = []
      ∧ retryEnabled (after (.devadv 8#24) sink6After) = true ∧ underrunEnabled (after (.devadv 8#24) sink6After) = false
      ∧ (after (.devadv 12#24) sink6After).host.turns = []
      ∧ retryEnabled (after (.devadv 12#24) sink6After) = true ∧ underrunEnabled (after (.devadv 12#24) sink6After) = true
      ∧ (after (.devadv 4#24) (after .sinkw (sink6 4))).host.turns = []
      ∧ retryEnabled (after (.devadv 4#24) (after .sinkw (sink6 4))) = false
      ∧ underrunEnabled (after (.devadv 4#24) (after .sinkw (sink6 4))) = true := by decide +kernel
theorem witness_NoisePeriodWrite : checkCfg State.reset.cfg = none ∧ checkCfg (defaultCfg .pal) = none := by decide +kernel
theorem witness_StatusWrite :
    (0xF0#8).getLsbD 0 = false ∧ (0xF0#8).getLsbD 1 = false ∧ (0xF0#8).getLsbD 2 = false ∧ (0xF0#8).getLsbD 3 = false
      ∧ (0xF0#8).toNat % 16 = 0 := by decide
theorem witness_StoredOnlyWrites :
    (0x4017#16, Instr.wrFrame 0xC0#8) ∈ [(0x4009#16, Instr.wrTriUnused 0xC0#8), (0x400D#16, Instr.wrNoiUnused 0xC0#8),
        (0x4010#16, Instr.wrDmc0 0xC0#8), (0x4011#16, Instr.wrDmc1 0xC0#8), (0x4012#16, Instr.wrDmc2 0xC0#8),
        (0x4013#16, Instr.wrDmc3 0xC0#8), (0x4017#16, Instr.wrFrame 0xC0#8)]
      ∧ State.reset.lastAmp = mixNow State.reset := by decide +kernel
theorem witness_RegisterRead :
    isApuAddr 0x4000#16 = true ∧ isApuAddr 0x4013#16 = true ∧ isApuAddr 0x4015#16 = true ∧ isApuAddr 0x4017#16 = true := by
  decide
theorem witness_ReadReturnsLatestWrite : isApuAddr 0x4000#16 = true ∧ (0x4001#16 : Addr) ≠ 0x4000#16 := by decide
theorem witness_EnvelopeDecay :
    ({ Envelope.zero with start := true, vol := 1#4 } : Envelope).start = true
      ∧ (⟨false, true, false, 2#4, 7#4, 0#4⟩ : Envelope).div ≠ 0#4 ∧ (⟨false, true, false, 2#4, 0#4, 0#4⟩ : Envelope).div = 0#4
      ∧ (envClock ⟨false, true, false, 2#4, 7#4, 0#4⟩).div = 6#4 ∧ (envClock ⟨false, true, false, 2#4, 0#4, 0#4⟩).decay = 15#4
      ∧ (envAfter 32 { Envelope.zero with start := true, loop := true, vol := 1#4 }).decay = 0#4
      ∧ (envAfter 33 { Envelope.zero with start := true, loop := true, vol := 1#4 }).decay = 15#4
      ∧ (envAfter 33 { Envelope.zero with start := true, vol := 1#4 }).decay = 0#4 := by decide
theorem witness_NegateAtShiftZeroSilences :
    ({ sounding with sw := { Sweep.zero with neg := true } } : Pulse).sw.neg = true
      ∧ ({ sounding with sw := { Sweep.zero with neg := true } } : Pulse).sw.shift = 0#3 := by decide
theorem witness_LfsrStep : (1#15 : BitVec 15) ≠ 0#15 ∧ 13 < 14 ∧ 92 < 93 := by decide
theorem witness_ChannelAmplitudes :
    checkCfg State.reset.cfg = none ∧ pulseAmp State.reset.cfg sounding = 8
      ∧ triAmp State.reset.cfg { Triangle.zero with len := sounding.len, lin := ⟨0#7, 127#7, false⟩, phase := 4#5 } = 11
      ∧ noiseAmp { Noise.zero with len := sounding.len, env := { Envelope.zero with decay := 15#4 }, lfsr := 0x4000#15 } = 15 := by
  decide +kernel
theorem witness_TimerClocks :
    ((at_ 1).cyc + 1) % 2 = 0 ∧ (at_ 1).p1.tdiv = 0#11 ∧ (State.reset.cyc + 1) % 2 = 1
      ∧ ({ at_ 1 with tri := { Triangle.zero with tdiv := 5#11 } } : State).tri.tdiv ≠ 0#11 := by decide
theorem witness_LengthCountersAtQuarterFrame :
    checkCfg (at_ 7456).cfg = none
      ∧ (at_ 7456).fs + 1 ∈ (at_ 7456).cfg.frameSteps ∧ (at_ 29828).fs + 1 ∈ (at_ 29828).cfg.frameSteps
      ∧ (at_ 29828).fs + 1 ∈ (at_ 29828).cfg.halfSteps
      ∧ (⟨0#8, true, true, 1#5⟩ : Length).pending = true ∧ (⟨0#8, true, true, 1#5⟩ : Length).enabled = true
      ∧ ¬((⟨0#8, false, true, 1#5⟩ : Length).pending = true ∧ (⟨0#8, false, true, 1#5⟩ : Length).enabled = true) := by
  decide +kernel
theorem witness_LinearCounterAtQuarterFrame :
    (at_ 7456).fs + 1 ∈ (at_ 7456).cfg.frameSteps ∧ (at_ 7456).tri.lin.reload = false
      ∧ ({ at_ 7456 with tri := { Triangle.zero with lin := ⟨127#7, 0#7, true⟩ } } : State).tri.lin.reload = true := by decide
theorem witness_MixerShapeAndRange : checkCfg (at_ 8226).cfg = none := by decide +kernel
theorem witness_LocateEvent : checkCfg cfg5 = none := by decide +kernel

/-- A kernel table whose rows sum to 1. -/
def cfgTable : Cfg := { cfg5 with kernel := some [[0, 0, 1, 0], [0, 1 / 2, 1 / 2, 0], [1, 0, 0, 0]] }

theorem witness_ContributionsSumToStep :
    (checkCfg cfg5 = none ∧ kernelSumsToOne cfg5) ∧ (checkCfg cfgTable = none ∧ kernelSumsToOne cfgTable)
      ∧ (fun _ : Nat => (1 : Rat)) 0 = 1 := by
  refine ⟨⟨by decide +kernel, trivial⟩, ⟨by decide +kernel, ?_⟩, rfl⟩
  intro row hrow
  simp only [List.mem_cons, List.not_mem_nil, or_false] at hrow
  rcases hrow with rfl | rfl | rfl <;> norm_num

/-- `E ≤ H` right after construction, `H < E` after 16000 ticks. -/
theorem witness_RenderCommand :
    ((State.reset.cyc : Rat) * (State.reset.cfg.sampleRate : Rat) / (State.reset.cfg.clockHz : Rat)).floor
        - State.reset.cfg.radius ≤ (State.reset.rs.h : Int)
      ∧ ((at_ 16000).rs.h : Int)
        < (((at_ 16000).cyc : Rat) * ((at_ 16000).cfg.sampleRate : Rat) / ((at_ 16000).cfg.clockHz : Rat)).floor
          - (at_ 16000).cfg.radius
      ∧ ((after .render (at_ 16000)).host.lastRender)[0]? = some Sample.zero := by decide +kernel

theorem reset_balanced (c : Cfg) : ResamplerBalanced (State.ofCfg c) := by
  intro g _
  simp [State.ofCfg]

theorem witness_StepKeepsResamplerBalanced :
    checkCfg State.reset.cfg = none ∧ kernelSumsToOne State.reset.cfg ∧ ResamplerBalanced State.reset
      ∧ ∃ t, step State.reset = .next t :=
  ⟨by decide +kernel, trivial, reset_balanced _, _, rfl⟩
theorem witness_RoundTrip :
    ResamplerBalanced State.reset ∧ (∀ nw ∈ State.reset.rs.pend.flatten, nw.1 < State.reset.rs.h)
      ∧ (fun _ : Nat => (1 : Rat)) 0 = 1 := ⟨reset_balanced _, by decide, rfl⟩
theorem witness_RoundTrip_render :
    ResamplerBalanced (at_ 16000) ∧ ((at_ 16000).rs.h : Int) < renderEnd (at_ 16000)
      ∧ ∀ nw ∈ (at_ 16000).rs.pend.flatten, (nw.1 : Int) < renderEnd (at_ 16000) :=
  ⟨reset_balanced (defaultCfg .ntsc), by decide +kernel, by intro nw h; exact absurd h (by show nw ∉ ([] : List (Nat × Sample)); simp)⟩
/-- One event at time 1 (`c = 4`, `r = 2`), rendered at time 3 (`E = 10`). -/
theorem witness_RoundTrip_single :
    checkCfg cfg5 = none ∧ kernelSumsToOne cfg5 ∧ (0 : Rat) ≤ 1
      ∧ (State.ofCfg cfg5).rs = ⟨0, Sample.zero, 0, []⟩
      ∧ (setOperand (.events [⟨1, 1 / 2⟩]) (State.ofCfg cfg5)).host.operand = .events [⟨1, 1 / 2⟩]
      ∧ (locate cfg5 1).c + cfg5.radius < renderEnd { State.ofCfg cfg5 with cyc := 3 } :=
  ⟨by decide +kernel, trivial, by norm_num, rfl, rfl, by decide +kernel⟩
theorem witness_RenderInStages : (0 : Nat) < 1 ∧ (1 : Nat) ≤ 1 ∧ (1 : Nat) ≤ 2 := by decide
theorem witness_PumpingIsNeverLate_ready : checkCfg (at_ 1).cfg = none ∧ PumpReady (at_ 1) := by
  refine ⟨by decide +kernel, rfl, ?_, fun e he => ?_⟩
  · show ((0 : Nat) : Rat) < ((1 : Nat) : Rat) / ((1789773 : Int) : Rat) * ((44100 : Int) : Rat)
    norm_num
  · exact absurd he (by show e ∉ ([] : List Event); simp)
theorem witness_PumpingIsNeverLate_kept : (Instr.tick ≠ Instr.render) ∧ ∃ t, exec .tick (at_ 1) = .next t :=
  ⟨by decide, _, rfl⟩
theorem witness_PumpingIsNeverLate_first :
    checkCfg State.reset.cfg = none ∧ State.reset.rs.h = 0 ∧ State.reset.events = [] ∧ State.reset.host.operand = .latched
      ∧ ∃ t, exec .tick State.reset = .next t := ⟨by decide +kernel, rfl, rfl, rfl, _, rfl⟩
/-- A busy sink; an idle one with all, none and some of the samples fitting. -/
theorem witness_SinkWriteCommand :
    checkCfg sink6After.cfg = none ∧ sink6After.sink.queue ≠ []
      ∧ (sink6 12).sink.queue = [] ∧ min ((highWm (sink6 12).cfg).toNat - 0) (sink6 12).host.lastRender.length = 12
      ∧ (sink6 13).host.lastRender.length = 13 ∧ min ((highWm (sink6 13).cfg).toNat - 0) (sink6 13).host.lastRender.length = 12
      ∧ min ((highWm (sink6 0).cfg).toNat - 0) (sink6 0).host.lastRender.length = 0
      ∧ (sink6 12).host.lastRender[11]? = some one := by decide +kernel
theorem witness_CommitSerializesRequests :
    checkCfg cfg6 = none ∧ sink6After.sink.queue ≠ []
      ∧ (sink6After.sink.queue.flatMap (fun r => r.rem))[0]? = some one
      ∧ min ((highWm cfg6).toNat - (max 12 8 - 8)) (sink6After.sink.queue.flatMap (fun r => r.rem)).length = 8
      ∧ min ((highWm cfg6).toNat - (max 12 0 - 0)) (sink6After.sink.queue.flatMap (fun r => r.rem)).length = 0
      ∧ (∀ r ∈ sink6After.sink.queue, r.done + r.rem.length = r.len) ∧ (commit cfg6 sink6After.sink).queue ≠ [] := by
  decide +kernel
theorem witness_CommitKeepsUnplayedFrames :
    checkCfg cfg6 = none ∧ (fullness sink6After.sink : Int) ≤ highWm cfg6 ∧ sink6After.sink.p ≤ 11 ∧ 11 < sink6After.sink.w := by
  decide +kernel
theorem witness_RetryMakesProgress :
    checkCfg (after (.devadv 8#24) sink6After).cfg = none
      ∧ (after (.devadv 8#24) sink6After).sink.queue = (⟨0, 20, List.replicate 8 one, 12⟩ : Request) :: []
      ∧ List.replicate 8 one ≠ [] ∧ retryEnabled (after (.devadv 8#24) sink6After) = true := by decide +kernel
theorem witness_RetryMakesProgress_kept :
    retryEnabled (after (.devadv 8#24) sink6After) = true ∧ Turn.underrun ≠ .retry ∧ ¬Turn.underrun.runs .stop
      ∧ ∃ t, step ((after (.devadv 8#24) sink6After).withTurn .underrun) = .next t := by
  refine ⟨witness_RetryMakesProgress.2.2.2, by decide, ?_, step_withTurn_answers _ _⟩
  rintro ⟨w, op, h, -⟩
  cases h
theorem witness_DeviceAdvanceCommand : 0 < (8#24).toNat ∧ 7 < (8#24).toNat := by decide
theorem witness_ConstructedState : construct (defaultCfg .pal) = .ok (State.ofCfg (defaultCfg .pal)) := by decide +kernel
theorem witness_ConstructionChecks :
    (∃ s, construct cfg7 = .ok s) ∧ construct { cfg7 with phaseCount := 3 } = .error .configOddPhaseCount
      ∧ construct { cfg7 with radius := 0 } = .error .configBadParam
      ∧ construct { cfg7 with lengthTable := [] } = .error .configNonRectangular := by
  refine ⟨⟨State.ofCfg cfg7, by decide +kernel⟩, by decide +kernel, by decide +kernel, by decide +kernel⟩
theorem reset_invariant : Invariant State.reset where
  cfg := by decide +kernel
  operand := rfl
  frame := by show (0 : Nat) = 0 % 29830; decide
  lfsr := by decide
  first := by decide
  registers := ⟨by decide, by decide⟩
  triPeriod := by unfold PeriodFromBytes; decide
  buffer := ⟨by decide +kernel, fun kv h => absurd h (by show kv ∉ ([] : List (Nat × Frame)); simp)⟩
  gated := ⟨fun _ => rfl, fun _ => rfl, fun _ => rfl, fun _ => rfl⟩
  events := ⟨by decide +kernel, List.IsChain.nil, fun e h => absurd h (by show e ∉ ([] : List Event); simp),
    fun e h => absurd h (by show ([] : List Event).getLast? ≠ some e; simp)⟩
  sink := ⟨by decide +kernel, by decide, fun r l h => absurd h (by show ([] : List Request) ≠ r :: l; simp), by decide, by decide⟩
/-- A state with one deferred sample, and the endless schedule that offers every turn the sink knows in a circle. -/
def waiting : State := State.reset.withSink ⟨[], 0, 0, [⟨0, 1, [Sample.zero], 0⟩], false, 0, 1, []⟩
def roundRobin (n : Nat) : Turn :=
  if n % 4 = 0 then .retry
  else if n % 4 = 1 then .underrun
  else .command (if n % 4 = 2 then 0x70000001#32 else 0x60000000#32) .latched
theorem witness_RetryMakesProgress_run :
    Invariant (runFrom roundRobin waiting 0) ∧ IsRun roundRobin (runFrom roundRobin waiting)
      ∧ DeviceAdvances roundRobin ∧ SinkAgentFair roundRobin (runFrom roundRobin waiting) ∧ NeverStopped roundRobin
      ∧ (⟨0, 1, [Sample.zero], 0⟩ : Request) ∈ (runFrom roundRobin waiting 0).sink.queue
      ∧ roundRobin 3 = .command 0x60000000#32 .latched ∧ decode 0x60000000#32 = .ok .sinkw := by
  have h := reset_invariant
  refine ⟨⟨h.cfg, h.operand, h.frame, h.lfsr, h.first, h.registers, h.triPeriod, h.buffer, h.gated,
      ⟨h.events.current, h.events.chain, h.events.past, h.events.last⟩, ?_⟩, isRun_runFrom _ _, ?_,
    ⟨fun n _ => ⟨4 * n, by omega, ?_⟩, fun n _ => ⟨4 * n + 1, by omega, ?_⟩⟩, ?_, ?_, by decide, by decide⟩
  · exact ⟨by decide +kernel, by decide, by simp [runFrom, waiting], by decide, by decide⟩
  · exact fun n => ⟨4 * n + 2, 1#24, by omega, by decide, 0x70000001#32, .latched, by simp [roundRobin, Nat.add_mod],
      by decide⟩
  · simp [roundRobin]
  · simp [roundRobin, Nat.add_mod]
  · rintro n ⟨w, op, h, hd⟩
    unfold roundRobin at h
    split at h
    · cases h
    · split at h
      · cases h
      · obtain ⟨rfl, -⟩ := Turn.command.inj h
        split at hd <;> revert hd <;> decide
  · simp [runFrom, waiting]
theorem witness_StepKeepsInvariant : Invariant State.reset ∧ ∃ t, step State.reset = .next t := ⟨reset_invariant, _, rfl⟩
theorem witness_ConfigurationIsImmutable : ∃ t, step State.reset = .next t := ⟨_, rfl⟩
theorem witness_WhoChangesWhat :
    (∃ t, exec (.devadv 8#24) State.reset = .next t) ∧ classOf (encode (.devadv 8#24)) ≠ 0x0#4
      ∧ (Instr.devadv 8#24 ≠ .tick ∧ Instr.devadv 8#24 ≠ .drain ∧ Instr.devadv 8#24 ≠ .push ∧ Instr.devadv 8#24 ≠ .render)
      ∧ (Instr.tick ≠ .sinkw ∧ Instr.tick ≠ .stop ∧ ∀ k, Instr.tick ≠ .devadv k)
      ∧ PeriodFromBytes State.reset.reg 0x4000#16 State.reset.p1.period
      ∧ PeriodFromBytes State.reset.reg 0x4004#16 State.reset.p2.period :=
  ⟨⟨_, rfl⟩, by decide, by decide, ⟨by decide, by decide, fun k h => by cases h⟩, by unfold PeriodFromBytes; decide,
    by unfold PeriodFromBytes; decide⟩
theorem witness_FormalKernelIsTheKernel_symmetric : (1 : Nat) ≤ 2 ∧ (1 : Nat) ≤ 4 ∧ (1 : Nat) < 2 := by decide

/-- The parameters of the smallest kernel: radius 1, two phases. -/
def cfgSmall : Cfg := { cfg7 with radius := 1, phaseCount := 2 }

theorem witness_FormalKernelIsTheKernel_share :
    checkCfg cfgSmall = none ∧ cfgSmall.kernel = none ∧ 2 * ((0 : Nat) : Int) ≤ cfgSmall.phaseCount
      ∧ ((1 : Nat) : Int) < 2 * cfgSmall.radius
      ∧ kernelPoint cfgSmall.radius.toNat cfgSmall.phaseCount.toNat 0 (2 * cfgSmall.radius.toNat)
          ≠ kernelPoint cfgSmall.radius.toNat cfgSmall.phaseCount.toNat 0 0 := by
  refine ⟨by decide +kernel, rfl, by decide, by decide, ?_⟩
  show kernelPoint 1 2 0 2 ≠ kernelPoint 1 2 0 0
  rw [← sub_ne_zero]
  unfold kernelPoint
  rw [lanczosIntegral_sub,
    ← intervalIntegral.integral_add_adjacent_intervals (lanczos_integrable 1 _ (-1)) (lanczos_integrable 1 _ _)]
  have h1 : 0 ≤ ∫ u in ((0 : Nat) : ℝ) - ((1 : Nat) : ℝ) - 1 / 2 - ((0 : Nat) : ℝ) / ((2 : Nat) : ℝ)..(-1), lanczos 1 u := by
    apply intervalIntegral.integral_nonneg (by norm_num)
    intro u _
    unfold lanczos
    split
    · simpa using mul_self_nonneg _
    · rfl
  have h2 : 0 < ∫ u in (-1)..((2 : Nat) : ℝ) - ((1 : Nat) : ℝ) - 1 / 2 - ((0 : Nat) : ℝ) / ((2 : Nat) : ℝ), lanczos 1 u := by
    apply intervalIntegral.intervalIntegral_pos_of_pos_on (lanczos_integrable _ _ _) _ (by norm_num)
    intro u hu
    refine lanczos_one_pos u hu.1 ?_
    have h3 := hu.2
    norm_num at h3
    linarith
  linarith
theorem witness_FetchedWordRunsNext : decodeTableWord 32 0x00400098 = some (.wrP1Ctrl 0x98#8) := by decide

end Sys2Proof.Tests
end

/-! ## The step of the next turn (00_scope.md R15, 20_memory.md R103, 30_encoding.md R143) -/

section ScopeProofs

namespace Sys2Proof.Machine

/-- A schedule that begins with a turn is the rest of the schedule with that turn put in front. -/
theorem withHost_rest_withTurn {s : State} {tn : Turn} {rest : List Turn} (h : s.host.turns = tn :: rest) :
    (s.withHost { s.host with turns := rest }).withTurn tn = s := by
  unfold State.withTurn
  rw [State.withHost_host, ← h]
  rfl

/-- The step on a command word put in front of the schedule runs the command it decodes to, on the state as it was. -/
theorem step_withTurn_command (s : State) {w : Word} {i : Instr} (op : Operand) (hd : decode w = .ok i) :
    step (s.withTurn (.command w op)) = exec i (setOperand (operandFor i op) s) := by
  simp only [step_withTurn, hd]

/-- The step on a schedule that begins with a command word runs the command it decodes to, with the turn taken off. -/
theorem step_command {s : State} {w : Word} {op : Operand} {rest : List Turn} {i : Instr}
    (h : s.host.turns = .command w op :: rest) (hd : decode w = .ok i) :
    step s = exec i (setOperand (operandFor i op) (s.withHost { s.host with turns := rest })) := by
  rw [← step_withTurn_command _ op hd, withHost_rest_withTurn h]

/-- A word of the opcode table, no longer than a command, is the command its low bits decode to. -/
theorem decodeTableWord_eq_some {nbits w : Nat} {i : Instr} (hn : nbits ≤ 32) :
    decodeTableWord nbits w = some i ↔ decode (BitVec.ofNat 32 (w % 2 ^ nbits)) = .ok i := by
  unfold decodeTableWord
  rw [if_neg (Nat.not_lt.mpr hn)]
  cases decode (BitVec.ofNat 32 (w % 2 ^ nbits)) with
  | ok j => simp
  | error e => simp

/-- Settles O6: the schedule's first turn is a turn put in front of its rest, and `operandFor` is the statement's choice of
the list operand. -/
theorem stepRunsDecodedCommand : Obligations.StepRunsDecodedCommand := by
  unfold Obligations.StepRunsDecodedCommand
  intro s w op rest i hturns hdecode
  rw [step_command hturns hdecode]
  rfl

/-- Settles O60: the fetched word is a turn in front of the schedule, and its list operand is the latch for every
command. -/
theorem fetchedWordRunsNext : Obligations.FetchedWordRunsNext := by
  unfold Obligations.FetchedWordRunsNext
  intro s w i htable
  have hdecode := (decodeTableWord_eq_some le_rfl).mp htable
  rw [State.withFetchWord, step_withTurn_command s .latched hdecode, operandFor_latched]
  rfl

end Sys2Proof.Machine

end ScopeProofs

/-! ## The state: construction, the invariant, and who changes what (10_state.md) -/

section StateProofs

namespace Sys2Proof.Machine

/-! ### Construction (10_state.md R45, 70_reset_and_hazards.md R700) -/

theorem construct_eq_ok {c : Cfg} {s : State} : construct c = .ok s ↔ checkCfg c = none ∧ s = State.ofCfg c := by
  unfold construct
  cases checkCfg c with
  | none => simp [eq_comm]
  | some k => simp

theorem checkCfg_defaultCfg_ntsc : checkCfg (defaultCfg .ntsc) = none := by decide +kernel

/-- Every length counter starts at 0, so every channel is silent (R45). -/
theorem mixNow_ofCfg (c : Cfg) : mixNow (State.ofCfg c) = 0 := by
  have hp (first : Bool) : pulseAmp c (Pulse.zero first) = 0 := if_pos (.inl rfl)
  have ht : triAmp c Triangle.zero = 0 := if_pos (.inl rfl)
  have hn : noiseAmp Noise.zero = 0 := if_pos (.inl rfl)
  simp [mixNow, State.ofCfg, hp, ht, hn, mix, mixPulse, mixTnd]

/-- Settles O52: a construction that succeeds answers `State.ofCfg`, whose fields are the values of R45; the mixer's
output is `mixNow_ofCfg`. -/
theorem constructedState : Obligations.ConstructedState := by
  unfold Obligations.ConstructedState
  refine ⟨construct_eq_ok.mpr ⟨checkCfg_defaultCfg_ntsc, rfl⟩, fun c s h => ?_⟩
  obtain ⟨-, rfl⟩ := construct_eq_ok.mp h
  simp only [mixNow_ofCfg]
  simp [State.ofCfg, Noise.zero, Memory.read, slotRead, storeRead, silence]

theorem ofCfg_eventsOrdered (c : Cfg) : EventsOrdered (State.ofCfg c) where
  current := (mixNow_ofCfg c).symm
  chain := .nil
  past _ he := nomatch he
  last _ he := nomatch he

theorem highWm_pos {c : Cfg} (hc : CfgParams c) : 0 < highWm c := lt_of_le_of_lt hc.low hc.lowHigh

theorem ofCfg_sinkSafe {c : Cfg} (hc : CfgParams c) : SinkSafe c (State.ofCfg c).sink where
  full := (highWm_pos hc).le
  counts _ hr := nomatch hr
  deferred _ _ hq := nomatch hq
  ids := .nil
  fresh _ hn := nomatch hn

/-- The base case of the invariant: the reset state of a configuration that passes the checks. -/
theorem ofCfg_invariant {c : Cfg} (hc : checkCfg c = none) : Invariant (State.ofCfg c) where
  cfg := hc
  operand := rfl
  frame := (Nat.zero_mod _).symm
  lfsr := (by decide : 1#15 ≠ 0#15)
  first := ⟨rfl, rfl⟩
  registers := ⟨rfl, fun _ h => nomatch h⟩
  triPeriod := (by decide : 0#11 = periodOfBytes [] 0x4008#16)
  buffer := ⟨rfl, fun _ h => nomatch h⟩
  gated := ⟨fun _ => rfl, fun _ => rfl, fun _ => rfl, fun _ => rfl⟩
  events := ofCfg_eventsOrdered c
  sink := ofCfg_sinkSafe (checkCfg_ok hc).1

/-- Settles O54: a constructed state is the reset state of a checked configuration. -/
theorem constructionGivesInvariant : Obligations.ConstructionGivesInvariant := by
  unfold Obligations.ConstructionGivesInvariant
  refine ⟨ofCfg_invariant checkCfg_defaultCfg_ntsc, fun c s h => ?_⟩
  obtain ⟨hc, rfl⟩ := construct_eq_ok.mp h
  exact ofCfg_invariant hc

/-! ### What one command can do

`ExecNext` says once, row by row, which state a command answers. The frames below are read off it. -/

/-- The state `t` a command `i` makes of `s`: a register write with its channel effect, or one of the other rows. -/
inductive ExecNext (s : State) : Instr → State → Prop where
  | write {i : Instr} {a : Addr} (d : Byte) {f : State → State} (hi : classOf (encode i) = 0x0#4)
      (ha : isApuAddr a = true) (hf : ChannelEffect f) (hk : ∀ x, ChannelKept x (f x)) :
      ExecNext s i (apuWrite a d f s)
  | nonapu (a : Addr) (d : Byte) : ExecNext s (.wrNonapu a d) s
  | rd (a : Addr) : ExecNext s (.rd a) (observe (.readByte a (s.reg.read a)) s)
  | rdRefused (a : Addr) : ExecNext s (.rd a) (raiseCondition .reservedCommand s)
  | tick : ExecNext s .tick (update (frameStage (timerStage (s.withCyc (s.cyc + 1)))))
  | drain : ExecNext s .drain (observe (.drained (drainResult s)) (latchEvents (drainResult s) (s.withEvents [])))
  | push : ExecNext s .push (setOperand .latched ((pushOperand s.host).foldl pushEvent s))
  | renderNothing : ExecNext s .render (observe (.rendered []) (latchSamples [] s))
  | render : ExecNext s .render
      (observe (.rendered (renderSamples s)) (latchSamples (renderSamples s) (s.withRs (renderAdvance s))))
  | sinkw : ExecNext s .sinkw (observe (.sinkId s.sink.nextId) (setOperand .latched (s.withSink
      (if s.sink.queue.isEmpty then commit s.cfg (enqueue (sinkOperand s.host) s.sink)
        else enqueue (sinkOperand s.host) s.sink))))
  | devadv (k : BitVec 24) : ExecNext s (.devadv k)
      (observe (.played (playedFrames s.cfg s.sink k.toNat)) (s.withSink { s.sink with p := s.sink.p + k.toNat }))
  | stop : ExecNext s .stop (s.withSink (stopSink s.sink))

theorem execNext_of_exec {i : Instr} {s t : State} (h : exec i s = .next t) : ExecNext s i t := by
  rcases exec_cases i s with ⟨a, d, f, he, ha, hi, hf, hk⟩ | ⟨a, d, rfl⟩ | ⟨a, rfl⟩ | rfl | rfl | rfl | rfl | rfl
    | ⟨k, rfl⟩ | rfl
  · obtain rfl := Host.Outcome.next.inj (he.symm.trans h)
    exact .write d (hi ▸ (encodeWr_fields a d).1) ha hf hk
  · obtain rfl := Host.Outcome.next.inj h
    exact .nonapu a d
  · simp only [exec, execRd] at h
    split at h <;> obtain rfl := Host.Outcome.next.inj h
    · exact .rd a
    · exact .rdRefused a
  · obtain rfl := Host.Outcome.next.inj h
    exact .tick
  · obtain rfl := Host.Outcome.next.inj h
    exact .drain
  · obtain rfl := Host.Outcome.next.inj h
    exact .push
  · simp only [exec, execRender] at h
    split at h <;> obtain rfl := Host.Outcome.next.inj h
    · exact .renderNothing
    · exact .render
  · obtain rfl := Host.Outcome.next.inj h
    exact .sinkw
  · obtain rfl := Host.Outcome.next.inj h
    exact .devadv k
  · obtain rfl := Host.Outcome.next.inj h
    exact .stop

theorem pushEvents_host (l : List Event) (s : State) : (l.foldl pushEvent s).host = s.host := by
  induction l generalizing s with
  | nil => rfl
  | cons e l ih => exact (ih _).trans (pushEvent_host s e)

/-- What one command can do to the emulated audio state. -/
inductive AudioChange (i : Instr) (s t : State) : Prop where
  | same (hi : i ≠ .tick) (h : SameAudio s t)
  | write (a : Addr) (d : Byte) (f : State → State) (hi : classOf (encode i) = 0x0#4) (ha : isApuAddr a = true)
      (hf : ChannelEffect f) (hk : ∀ x, ChannelKept x (f x)) (h : t = apuWrite a d f s)
  | tick (hi : i = .tick) (h : t = update (frameStage (timerStage (s.withCyc (s.cyc + 1)))))
  | drain (hi : i = .drain) (h : SameAudio (s.withEvents []) t)

theorem exec_audioChange {i : Instr} {s t : State} (h : exec i s = .next t) : AudioChange i s t := by
  cases execNext_of_exec h with
  | write d hi ha hf hk => exact .write _ d _ hi ha hf hk rfl
  | nonapu a d => exact .same nofun (sameAudio_refl s)
  | rdRefused a => exact .same nofun (raiseCondition_sameAudio _ s)
  | tick => exact .tick rfl rfl
  | drain => exact .drain rfl ⟨⟨rfl, rfl, rfl, rfl⟩, rfl, rfl, rfl, rfl, rfl, rfl⟩
  | push => exact .same nofun (sameAudio_trans (pushEvents_sameAudio _ s) (setOperand_sameBlock _ _).toSameAudio)
  | rd | renderNothing | render | sinkw | devadv | stop =>
    exact .same nofun ⟨⟨rfl, rfl, rfl, rfl⟩, rfl, rfl, rfl, rfl, rfl, rfl⟩

/-- Only PUSH and RENDER change the resampler. -/
theorem exec_rs {i : Instr} {s t : State} (h : exec i s = .next t) (hp : i ≠ .push) (hr : i ≠ .render) :
    t.rs = s.rs := by
  cases execNext_of_exec h with
  | push => exact absurd rfl hp
  | renderNothing | render => exact absurd rfl hr
  | write d hi ha hf hk => exact (apuWrite_writeFrame hf _ d s).rs
  | rdRefused a => exact raiseCondition_rs _ s
  | tick => simp
  | nonapu | rd | drain | sinkw | devadv | stop => rfl

/-- What one command can do to the host's side: the observation grows, the schedule stays, and a command that takes a
list operand uses it up. -/
structure HostChange (i : Instr) (s t : State) : Prop where
  trace : s.host.trace <+: t.host.trace
  turns : t.host.turns = s.host.turns
  operand : t.host.operand = if i = .push ∨ i = .sinkw then .latched else s.host.operand

theorem hostChange_of_host_eq {i : Instr} {s t : State} (h : t.host = s.host) (hi : ¬(i = .push ∨ i = .sinkw)) :
    HostChange i s t :=
  ⟨h ▸ List.prefix_refl _, h ▸ rfl, by rw [h, if_neg hi]⟩

theorem exec_hostChange {i : Instr} {s t : State} (h : exec i s = .next t) : HostChange i s t := by
  cases execNext_of_exec h with
  | write d hi ha hf hk =>
    refine hostChange_of_host_eq (apuWrite_writeFrame hf _ d s).host ?_
    rintro (rfl | rfl) <;> exact absurd hi (by decide)
  | nonapu | stop => exact hostChange_of_host_eq rfl (by simp)
  | rdRefused a => exact hostChange_of_host_eq (raiseCondition_host _ s) (by simp)
  | tick => exact hostChange_of_host_eq (by simp) (by simp)
  | push =>
    simp only [setOperand, pushEvents_host]
    exact ⟨List.prefix_refl _, rfl, rfl⟩
  | rd | drain | renderNothing | render | devadv | sinkw => exact ⟨List.prefix_append _ _, rfl, rfl⟩

/-! ### The sink's records under a commit (48_sink.md R531, R532) -/

/-- A commit does nothing to an empty queue, else what R531 says. -/
theorem commit_cases (c : Cfg) (k : Sink) : (k.queue = [] ∧ commit c k = k)
    ∨ ∃ n, CommitResult c k.queue { k with w := max k.w k.p } (commit c k) n := by
  by_cases hq : k.queue = []
  · exact .inl ⟨hq, commit_nil c k hq⟩
  · exact .inr (commit_result c k hq)

theorem commit_p (c : Cfg) (k : Sink) : (commit c k).p = k.p := by
  rcases commit_cases c k with ⟨-, e⟩ | ⟨n, R⟩
  · rw [e]
  · exact R.p

theorem commit_nextId (c : Cfg) (k : Sink) : (commit c k).nextId = k.nextId := by
  rcases commit_cases c k with ⟨-, e⟩ | ⟨n, R⟩
  · rw [e]
  · exact R.nextId

theorem commit_completed_prefix (c : Cfg) (k : Sink) : k.completed <+: (commit c k).completed := by
  rcases commit_cases c k with ⟨-, e⟩ | ⟨n, R⟩
  · rw [e]
  · obtain ⟨m, hm, -, -⟩ := R.records
    exact hm ▸ List.prefix_append _ _

/-! ### Who changes what (10_state.md R30, R31, R42) -/

theorem ne_of_class_wr {i j : Instr} (hi : classOf (encode i) = 0x0#4) (hj : classOf (encode j) ≠ 0x0#4) : i ≠ j := by
  rintro rfl
  exact hj hi

/-- `Update()` appends at most one event (46_mixer_events.md R445). -/
theorem update_events_grow (s : State) :
    s.events <+: (update s).events ∧ (update s).events.length ≤ s.events.length + 1 := by
  rw [update_events]
  split
  · exact ⟨List.prefix_refl _, Nat.le_succ _⟩
  · exact ⟨List.prefix_append _ _, by simp⟩

/-- The frame of one command on the emulated audio state. -/
structure AudioFrame (i : Instr) (s t : State) : Prop where
  cyc_tick : i = .tick → t.cyc = s.cyc + 1
  cyc_fs : i ≠ .tick → t.cyc = s.cyc ∧ t.fs = s.fs
  reg : classOf (encode i) ≠ 0x0#4 → t.reg = s.reg
  channels : classOf (encode i) ≠ 0x0#4 → i ≠ .tick → SameChannels s t ∧ t.lastAmp = s.lastAmp
  events_grow : i ≠ .drain → s.events <+: t.events ∧ t.events.length ≤ s.events.length + 1
  events_same : classOf (encode i) ≠ 0x0#4 → i ≠ .tick → i ≠ .drain → t.events = s.events

theorem exec_audioFrame {i : Instr} {s t : State} (h : exec i s = .next t) : AudioFrame i s t := by
  cases exec_audioChange h with
  | same hi k =>
    exact ⟨fun e => absurd e hi, fun _ => ⟨k.cyc, k.fs⟩, fun _ => k.reg, fun _ _ => ⟨k.toSameChannels, k.lastAmp⟩,
      fun _ => k.events ▸ ⟨List.prefix_refl _, Nat.le_succ _⟩, fun _ _ _ => k.events⟩
  | write a d f hi _ hf _ ht =>
    subst ht
    have w := apuWrite_writeFrame hf a d s
    have hgrow := update_events_grow (f (s.withReg (s.reg.write a d)))
    rw [hf.events] at hgrow
    exact ⟨fun e => absurd e (ne_of_class_wr hi (by decide)), fun _ => ⟨w.cyc, w.fs⟩, fun hc => absurd hi hc,
      fun hc => absurd hi hc, fun _ => hgrow, fun hc => absurd hi hc⟩
  | tick hi ht =>
    subst hi ht
    have hgrow := update_events_grow (frameStage (timerStage (s.withCyc (s.cyc + 1))))
    simp only [frameStage_events, timerStage_events, State.withCyc_events] at hgrow
    exact ⟨fun _ => by simp, fun hn => absurd rfl hn, fun _ => by simp, fun _ hn => absurd rfl hn, fun _ => hgrow,
      fun _ hn => absurd rfl hn⟩
  | drain hi k =>
    subst hi
    exact ⟨nofun, fun _ => ⟨k.cyc, k.fs⟩, fun _ => k.reg, fun _ _ => ⟨⟨k.p1, k.p2, k.tri, k.noise⟩, k.lastAmp⟩,
      fun hn => absurd rfl hn, fun _ _ hn => absurd rfl hn⟩

/-- The frame of one command on the sink (R42). -/
structure SinkFrame (i : Instr) (k k' : Sink) : Prop where
  same : i ≠ .sinkw → i ≠ .stop → (∀ n, i ≠ .devadv n) → k' = k
  played : (∀ n, i ≠ .devadv n) → k'.p = k.p
  completed : k.completed <+: k'.completed

theorem exec_sinkFrame {i : Instr} {s t : State} (h : exec i s = .next t) : SinkFrame i s.sink t.sink := by
  cases (exec_sinkChange i s t h).2 with
  | same ht => exact ht ▸ ⟨fun _ _ _ => rfl, fun _ => rfl, List.prefix_refl _⟩
  | write hi ht =>
    rw [ht]
    refine ⟨fun hn => absurd hi hn, fun _ => ?_, ?_⟩ <;> simp only <;> split
    · exact commit_p _ _
    · rfl
    · exact commit_completed_prefix _ (enqueue _ s.sink)
    · exact List.prefix_refl _
  | advance n hi ht => exact ht ▸ ⟨fun _ _ hn => absurd hi (hn n), fun hn => absurd hi (hn n), List.prefix_refl _⟩
  | stop hi ht => exact ht ▸ ⟨fun _ hn => absurd hi hn, fun _ => rfl, List.prefix_append _ _⟩

/-- Settles O57: the frames of one command on the audio state, the resampler, the sink and the host's side, and the
agreement of the pulse periods with their bytes, which every command but TICK keeps. -/
theorem whoChangesWhat : Obligations.WhoChangesWhat := by
  unfold Obligations.WhoChangesWhat
  intro i s t h
  have audio := exec_audioFrame h
  have sink := exec_sinkFrame h
  have host := exec_hostChange h
  have periods (hi : i ≠ .tick) := exec_periodsKept i s t hi h
  exact ⟨(exec_sinkChange i s t h).1, audio.cyc_tick, audio.cyc_fs, audio.reg, audio.channels, audio.events_grow,
    audio.events_same, exec_rs h, sink.same, sink.played, fun hi => (periods hi).p1, fun hi => (periods hi).p2,
    sink.completed, host.trace, host.turns⟩

/-! ### The sink's part of the invariant (48_sink.md R537, R539)

The invariant of the sink is cut in two: the accounts, which every operation of the sink keeps, and the samples left at the
queue's head, which a request of no samples has not until its commit. -/

/-- The ids of every request a sink has seen, the completed ones first. -/
def sinkIds (k : Sink) : List Nat := k.completed.map (fun x => x.id) ++ k.queue.map (fun r => r.id)

/-- The buffer's form and the accounts of a sink. -/
structure SinkAccounted (c : Cfg) (k : Sink) : Prop where
  wf : storeWf silence k.buf = true
  slots : ∀ kv ∈ k.buf, (kv.1 : Int) < capacity c
  full : (fullness k : Int) ≤ highWm c
  counts : ∀ r ∈ k.queue, r.done + r.rem.length = r.len
  ids : (sinkIds k).Nodup
  fresh : ∀ n ∈ sinkIds k, n < k.nextId

/-- The queue's head has samples left. -/
def HeadDeferred (k : Sink) : Prop := ∀ r rest, k.queue = r :: rest → r.rem ≠ []

theorem commit_sinkIds (c : Cfg) (k : Sink) : sinkIds (commit c k) = sinkIds k := by
  rcases commit_cases c k with ⟨-, e⟩ | ⟨n, R⟩
  · rw [e]
  · obtain ⟨m, hcompleted, hqueue, -⟩ := R.records
    have hrest : (commit c k).queue.map (fun r => r.id) = (k.queue.drop m).map (fun r => r.id) := by
      simpa [Function.comp_def] using congrArg (List.map Prod.fst) hqueue
    rw [sinkIds, hcompleted, hrest, sinkIds]
    simp [Function.comp_def, List.take_append_drop]

theorem stopSink_sinkIds (k : Sink) : sinkIds (stopSink k) = sinkIds k := by simp [sinkIds, stopSink]

theorem enqueue_sinkIds (l : List Sample) (k : Sink) : sinkIds (enqueue l k) = sinkIds k ++ [k.nextId] := by
  simp [sinkIds, enqueue]

/-- Catching up and committing what there is room for stays at or below the high watermark (R531). -/
theorem commit_fullness {c : Cfg} (hc : CfgParams c) {k : Sink} (h : (fullness k : Int) ≤ highWm c) :
    (fullness (commit c k) : Int) ≤ highWm c := by
  rcases commit_cases c k with ⟨-, e⟩ | ⟨n, R⟩
  · rwa [e]
  · have hpos := highWm_pos hc
    have hn : n ≤ (highWm c).toNat - (max k.w k.p - k.p) := R.count.trans_le (Nat.min_le_left _ _)
    have hw : (commit c k).w = max k.w k.p + n := R.w
    rw [fullness] at h
    rw [fullness, hw, commit_p]
    omega

theorem commit_counts (c : Cfg) {k : Sink} (h : ∀ r ∈ k.queue, r.done + r.rem.length = r.len) :
    ∀ r ∈ (commit c k).queue, r.done + r.rem.length = r.len := by
  rcases commit_cases c k with ⟨-, e⟩ | ⟨n, R⟩
  · rwa [e]
  · exact R.counts h

theorem commit_headDeferred (c : Cfg) (k : Sink) : HeadDeferred (commit c k) := by
  rcases commit_cases c k with ⟨hq, e⟩ | ⟨n, R⟩
  · rw [e]
    exact fun r rest h => absurd (hq.symm.trans h) (List.cons_ne_nil _ _).symm
  · exact R.head

theorem commit_buf_wf (c : Cfg) {k : Sink} (h : storeWf silence k.buf = true) :
    storeWf silence (commit c k).buf = true := by
  rcases commit_cases c k with ⟨-, e⟩ | ⟨n, R⟩
  · rwa [e]
  · rw [R.buf]
    exact putFrames_wf _ _ _ _ h

theorem commit_buf_slots {c : Cfg} (hc : CfgParams c) {k : Sink} (h : ∀ kv ∈ k.buf, (kv.1 : Int) < capacity c) :
    ∀ kv ∈ (commit c k).buf, (kv.1 : Int) < capacity c := by
  rcases commit_cases c k with ⟨-, e⟩ | ⟨n, R⟩
  · rwa [e]
  · have hcap := hc.capacity
    intro kv hkv
    rw [R.buf] at hkv
    have := putFrames_slots _ (by omega) _ _ _ (fun kv' hkv' => Int.lt_toNat.mpr (h kv' hkv')) kv hkv
    exact Int.lt_toNat.mp this

theorem commit_accounted {c : Cfg} (hc : CfgParams c) {k : Sink} (h : SinkAccounted c k) :
    SinkAccounted c (commit c k) where
  wf := commit_buf_wf c h.wf
  slots := commit_buf_slots hc h.slots
  full := commit_fullness hc h.full
  counts := commit_counts c h.counts
  ids := (commit_sinkIds c k).symm ▸ h.ids
  fresh := by
    rw [commit_sinkIds, commit_nextId]
    exact h.fresh

theorem enqueue_accounted {c : Cfg} (l : List Sample) {k : Sink} (h : SinkAccounted c k) :
    SinkAccounted c (enqueue l k) where
  wf := h.wf
  slots := h.slots
  full := h.full
  counts r hr := by
    rcases List.mem_append.mp hr with hr | hr
    · exact h.counts r hr
    · obtain rfl := List.mem_singleton.mp hr
      exact Nat.zero_add _
  ids := by
    rw [enqueue_sinkIds]
    exact h.ids.append (List.nodup_singleton _)
      (List.disjoint_singleton.mpr fun hn => absurd (h.fresh _ hn) (Nat.lt_irrefl _))
  fresh n hn := by
    rw [enqueue_sinkIds] at hn
    rcases List.mem_append.mp hn with hn | hn
    · exact Nat.lt_succ_of_lt (h.fresh n hn)
    · exact List.mem_singleton.mp hn ▸ Nat.lt_succ_self _

theorem enqueue_headDeferred (l : List Sample) {k : Sink} (hq : k.queue ≠ []) (h : HeadDeferred k) :
    HeadDeferred (enqueue l k) := by
  obtain ⟨x, xs, hx⟩ := List.exists_cons_of_ne_nil hq
  intro r rest hr
  obtain ⟨rfl, -⟩ : x = r ∧ _ := by simpa [enqueue, hx] using hr
  exact h x xs hx

theorem advance_accounted {c : Cfg} (n : Nat) {k : Sink} (h : SinkAccounted c k) :
    SinkAccounted c { k with p := k.p + n } where
  wf := h.wf
  slots := h.slots
  full := by
    have := h.full
    unfold fullness at this ⊢
    simp only
    omega
  counts := h.counts
  ids := h.ids
  fresh := h.fresh

/-- STOP and UNDERRUN leave an empty buffer with `W = P` (R535, R538). -/
theorem silenced_fullness {c : Cfg} (hc : CfgParams c) {k : Sink} (h : k.w = k.p) : (fullness k : Int) ≤ highWm c := by
  have := highWm_pos hc
  unfold fullness
  omega

theorem stopSink_accounted {c : Cfg} (hc : CfgParams c) {k : Sink} (h : SinkAccounted c k) :
    SinkAccounted c (stopSink k) where
  wf := rfl
  slots _ hkv := nomatch hkv
  full := silenced_fullness hc rfl
  counts _ hr := nomatch hr
  ids := (stopSink_sinkIds k).symm ▸ h.ids
  fresh := (stopSink_sinkIds k).symm ▸ h.fresh

theorem underrun_accounted {c : Cfg} (hc : CfgParams c) {k : Sink} (h : SinkAccounted c k) :
    SinkAccounted c { k with buf := [], w := k.p, wdArmed := false } where
  wf := rfl
  slots _ hkv := nomatch hkv
  full := silenced_fullness hc rfl
  counts := h.counts
  ids := h.ids
  fresh := h.fresh

/-- The sink's part of the invariant. -/
structure SinkInvariant (c : Cfg) (k : Sink) : Prop where
  accounted : SinkAccounted c k
  deferred : HeadDeferred k

theorem exec_sinkInvariant {i : Instr} {s t : State} (hc : CfgParams s.cfg) (h : exec i s = .next t)
    (hs : SinkInvariant s.cfg s.sink) : SinkInvariant s.cfg t.sink := by
  obtain ⟨haccounted, hdeferred⟩ := hs
  cases (exec_sinkChange i s t h).2 with
  | same ht => exact ht ▸ ⟨haccounted, hdeferred⟩
  | write _ ht =>
    rw [ht]
    simp only
    split
    · exact ⟨commit_accounted hc (enqueue_accounted _ haccounted), commit_headDeferred _ _⟩
    · next hq =>
      exact ⟨enqueue_accounted _ haccounted, enqueue_headDeferred _ (by simpa using hq) hdeferred⟩
  | advance n _ ht => exact ht ▸ ⟨advance_accounted _ haccounted, hdeferred⟩
  | stop _ ht => exact ht ▸ ⟨stopSink_accounted hc haccounted, fun _ _ hr => nomatch hr⟩

/-! ### The audio part of the invariant -/

/-- The event stream keeps its order through an `Update()` at a time no earlier than before (46_mixer_events.md R441,
R442): `s` is the state before, `u` the state `Update()` runs on. -/
theorem update_eventsOrdered {s u : State} (h : EventsOrdered s) (hevents : u.events = s.events)
    (hlast : u.lastAmp = s.lastAmp) (hnow : now s ≤ now u) : EventsOrdered (update u) := by
  have hpast : ∀ e ∈ s.events, e.time ≤ now u := fun e he => (h.past e he).trans hnow
  have hnow' : now (update u) = now u := rfl
  by_cases hm : mixNow u = s.lastAmp
  · have he : (update u).events = s.events := by rw [update_events, hevents, hlast, if_pos hm]
    refine ⟨by rw [mixNow_update, update_lastAmp], he ▸ h.chain, he ▸ hnow' ▸ hpast, fun e hl => ?_⟩
    rw [update_lastAmp, hm]
    exact h.last e (he ▸ hl)
  · have he : (update u).events = s.events ++ [⟨now u, mixNow u⟩] := by
      rw [update_events, hevents, hlast, if_neg hm]
    refine ⟨by rw [mixNow_update, update_lastAmp], ?_, ?_, ?_⟩
    · rw [he, List.isChain_append]
      refine ⟨h.chain, .singleton _, fun a ha b hb => ?_⟩
      obtain rfl : _ = b := by simpa using hb
      have hamp : a.amp = s.lastAmp := h.last a ha
      exact ⟨hpast a (List.mem_of_getLast? ha), fun hab => hm (hab.symm.trans hamp)⟩
    · intro e hmem
      rw [he] at hmem
      rcases List.mem_append.mp hmem with hmem | hmem
      · exact hpast e hmem
      · exact (List.mem_singleton.mp hmem ▸ le_rfl : e.time ≤ now u)
    · intro e hl
      rw [he] at hl
      obtain rfl : _ = e := by simpa using hl
      exact (update_lastAmp u).symm

/-- Every length counter is gated by its enable flag (40_bus.md R206). -/
def LengthsGated (s : State) : Prop :=
  LengthGated s.p1.len ∧ LengthGated s.p2.len ∧ LengthGated s.tri.len ∧ LengthGated s.noise.len

/-- The part of the invariant that speaks of the emulated audio state. -/
structure AudioInvariant (s : State) : Prop where
  frame : FrameTracksCycle s
  lfsr : s.noise.lfsr ≠ 0#15
  first : s.p1.first = true ∧ s.p2.first = false
  registers : RegistersCanonical s
  triPeriod : PeriodFromBytes s.reg 0x4008#16 s.tri.period
  gated : LengthsGated s
  events : EventsOrdered s

theorem now_congr {s t : State} (h : SameAudio s t) : now t = now s := by rw [now, now, h.cyc, h.cfg]

theorem audioInvariant_of_sameAudio {s t : State} (k : SameAudio s t) (h : AudioInvariant s) : AudioInvariant t where
  frame := by
    rw [FrameTracksCycle, k.fs, k.cyc, k.cfg]
    exact h.frame
  lfsr := k.noise ▸ h.lfsr
  first := k.p1 ▸ k.p2 ▸ h.first
  registers := by
    rw [RegistersCanonical, k.reg]
    exact h.registers
  triPeriod := k.reg ▸ k.tri ▸ h.triPeriod
  gated := by
    rw [LengthsGated, k.p1, k.p2, k.tri, k.noise]
    exact h.gated
  events := by
    obtain ⟨current, chain, past, last⟩ := h.events
    refine ⟨?_, ?_, ?_, ?_⟩
    · rw [k.lastAmp, current, mixNow_congr k.cfg k.toSameChannels]
    · rwa [k.events]
    · rwa [k.events, now_congr k]
    · rwa [k.events, k.lastAmp]

/-- A stream of no events is in order when the last amplitude is the mixer's output. -/
theorem withEvents_nil_audioInvariant {s : State} (h : AudioInvariant s) : AudioInvariant (s.withEvents []) where
  frame := h.frame
  lfsr := h.lfsr
  first := h.first
  registers := h.registers
  triPeriod := h.triPeriod
  gated := h.gated
  events := ⟨h.events.current, .nil, nofun, nofun⟩

/-! A register write. -/

theorem write_registersCanonical {s t : State} {a : Addr} {d : Byte} (ha : isApuAddr a = true)
    (ht : t.reg = s.reg.write a d) (h : RegistersCanonical s) : RegistersCanonical t := by
  obtain ⟨hwf, haddr⟩ := h
  rw [RegistersCanonical, ht]
  refine ⟨Memory.write_wf _ _ _ hwf, fun kv hkv => ?_⟩
  rcases mem_storeWrite _ _ _ _ _ hkv with rfl | hkv
  · exact ⟨a.isLt, by simpa using ha⟩
  · exact haddr kv hkv

/-- A register write keeps the audio invariant where it keeps the triangle's period. -/
theorem apuWrite_audioInvariant {s : State} {a : Addr} {d : Byte} {f : State → State} (ha : isApuAddr a = true)
    (hf : ChannelEffect f) (hk : ∀ x, ChannelKept x (f x)) (h : AudioInvariant s)
    (hperiod : PeriodFromBytes (apuWrite a d f s).reg 0x4008#16 (apuWrite a d f s).tri.period) :
    AudioInvariant (apuWrite a d f s) where
  frame := by
    have w := apuWrite_writeFrame hf a d s
    rw [FrameTracksCycle, w.fs, w.cyc, w.cfg]
    exact h.frame
  lfsr := by
    have k := hk (s.withReg (s.reg.write a d))
    exact fun e => h.lfsr (k.lfsr.symm.trans e)
  first := by
    have k := hk (s.withReg (s.reg.write a d))
    exact ⟨k.first1.trans h.first.1, k.first2.trans h.first.2⟩
  registers := write_registersCanonical ha (apuWrite_reg hf a d s) h.registers
  triPeriod := hperiod
  gated := by
    have k := hk (s.withReg (s.reg.write a d))
    obtain ⟨h1, h2, h3, h4⟩ := h.gated
    exact ⟨k.gated1 h1, k.gated2 h2, k.gatedT h3, k.gatedN h4⟩
  events := by
    refine update_eventsOrdered h.events (hf.events _) (hf.lastAmp _) (le_of_eq ?_)
    rw [now, now, hf.cyc, hf.cfg]
    rfl

/-! A tick (45_frame_sequencer.md R400, R403). -/

/-- The feedback bit of the LFSR (44_noise.md R374). -/
def lfsrFeedback (short : Bool) (r : BitVec 15) : Bool :=
  Bool.xor (r.getLsbD 0) (if short then r.getLsbD 6 else r.getLsbD 1)

/-- One step shifts the register down and puts the feedback bit on top (R374). -/
theorem lfsrStep_getLsbD (short : Bool) (r : BitVec 15) {i : Nat} (hi : i < 15) :
    (lfsrStep short r).getLsbD i = if i = 14 then lfsrFeedback short r else r.getLsbD (i + 1) := by
  have hstep : lfsrStep short r = (r >>> 1) ||| (BitVec.ofBool (lfsrFeedback short r)).zeroExtend 15 <<< 14 := rfl
  rw [hstep, BitVec.getLsbD_or, BitVec.getLsbD_ushiftRight, BitVec.getLsbD_shiftLeft, Nat.add_comm 1 i]
  by_cases h : i = 14
  · subst h
    simp
  · simp [h, hi, show i < 14 by omega]

/-- The new top bit is 1 when the register is 1, and some other bit stays when it is not (44_noise.md R374). -/
theorem lfsrStep_ne_zero (short : Bool) {r : BitVec 15} (h : r ≠ 0#15) : lfsrStep short r ≠ 0#15 := by
  intro h0
  have hbit {i : Nat} (hi : i < 15) : (if i = 14 then lfsrFeedback short r else r.getLsbD (i + 1)) = false := by
    rw [← lfsrStep_getLsbD short r hi, h0, BitVec.getLsbD_zero]
  have hhigh {i : Nat} (hi : i < 14) : r.getLsbD (i + 1) = false := by
    simpa [show i ≠ 14 by omega] using hbit (show i < 15 by omega)
  have hlow : r.getLsbD 0 = false := by
    have hfeedback : lfsrFeedback short r = false := hbit (i := 14) (by decide)
    rwa [lfsrFeedback, hhigh (i := 0) (by decide), hhigh (i := 5) (by decide), ite_self, Bool.xor_false] at hfeedback
  refine h (BitVec.eq_of_getLsbD_eq fun i hi => ?_)
  rw [BitVec.getLsbD_zero]
  cases i with
  | zero => exact hlow
  | succ i => exact hhigh (by omega)

theorem noiseTimerClock_lfsr_ne_zero {n : Noise} (h : n.lfsr ≠ 0#15) : (noiseTimerClock n).lfsr ≠ 0#15 := by
  unfold noiseTimerClock
  simp only
  split
  · exact lfsrStep_ne_zero _ h
  · exact h

theorem linClock_len (x : Triangle) : (linClock x).len = x.len := by
  unfold linClock
  split_ifs <;> rfl

theorem linClock_control (x : Triangle) : (linClock x).control = x.control := by
  unfold linClock
  split_ifs <;> rfl

theorem linClock_period (x : Triangle) : (linClock x).period = x.period := by
  unfold linClock
  split_ifs <;> rfl

theorem tickPulse_first (c : Cfg) (cyc fs : Nat) (x : Pulse) : (tickPulse c cyc fs x).first = x.first := by
  unfold tickPulse
  simp only
  split_ifs <;> rfl

theorem tickTri_period (c : Cfg) (cyc fs : Nat) (x : Triangle) : (tickTri c cyc fs x).period = x.period := by
  have htimer : (triTimerClock x).period = x.period := rfl
  unfold tickTri
  simp only
  split_ifs <;> simp only [linClock_period, htimer]

/-- Of the clocks of a TICK only the timer moves the LFSR. -/
theorem tickNoise_lfsr (c : Cfg) (cyc fs : Nat) (x : Noise) :
    (tickNoise c cyc fs x).lfsr = (if cyc % 2 = 0 then noiseTimerClock x else x).lfsr := by
  unfold tickNoise
  simp only
  split_ifs <;> rfl

theorem tickNoise_lfsr_ne_zero (c : Cfg) (cyc fs : Nat) {x : Noise} (h : x.lfsr ≠ 0#15) :
    (tickNoise c cyc fs x).lfsr ≠ 0#15 := by
  rw [tickNoise_lfsr]
  split
  · exact noiseTimerClock_lfsr_ne_zero h
  · exact h

/-- A length counter after a TICK: at a frame point it is clocked on a half frame, and then its pending load is taken
(45_frame_sequencer.md R403). -/
def tickLength (c : Cfg) (fs : Nat) (halt : Bool) (l : Length) : Length :=
  if fs ∈ c.frameSteps then lenLoad c (if fs ∈ c.halfSteps then lenClock l halt else l) else l

theorem tickLength_gated (c : Cfg) (fs : Nat) (halt : Bool) {l : Length} (h : LengthGated l) :
    LengthGated (tickLength c fs halt l) := by
  unfold tickLength
  split_ifs
  · exact lenLoad_gated _ _ (lenClock_gated _ _ h)
  · exact lenLoad_gated _ _ h
  · exact h

theorem envClock_loop (e : Envelope) : (envClock e).loop = e.loop := by
  unfold envClock
  simp only
  split_ifs <;> rfl

theorem tickPulse_len (c : Cfg) (cyc fs : Nat) (x : Pulse) :
    (tickPulse c cyc fs x).len = tickLength c fs x.env.loop x.len := by
  have hlen : (pulseTimerClock x).len = x.len := rfl
  have henv : (pulseTimerClock x).env = x.env := rfl
  unfold tickPulse tickLength
  simp only
  split_ifs <;> simp only [envClock_loop, hlen, henv]

theorem tickTri_len (c : Cfg) (cyc fs : Nat) (x : Triangle) :
    (tickTri c cyc fs x).len = tickLength c fs x.control x.len := by
  have hlen : (triTimerClock x).len = x.len := rfl
  have hcontrol : (triTimerClock x).control = x.control := rfl
  unfold tickTri tickLength
  simp only
  split_ifs <;> simp only [linClock_len, linClock_control, hlen, hcontrol]

theorem tickNoise_len (c : Cfg) (cyc fs : Nat) (x : Noise) :
    (tickNoise c cyc fs x).len = tickLength c fs x.env.loop x.len := by
  have hlen : (noiseTimerClock x).len = x.len := rfl
  have henv : (noiseTimerClock x).env = x.env := rfl
  unfold tickNoise tickLength
  simp only
  split_ifs <;> simp only [envClock_loop, hlen, henv]

/-- A counter that wraps at a period counts modulo it (45_frame_sequencer.md R402, R404). -/
theorem wrapping_count (cyc period : Nat) :
    (if cyc % period + 1 = period then 0 else cyc % period + 1) = (cyc + 1) % period := by
  rcases Nat.eq_zero_or_pos period with rfl | hp
  · simp
  · have hlt := Nat.mod_lt cyc hp
    rw [← Nat.mod_add_mod cyc period 1]
    split
    · next hwrap => rw [hwrap, Nat.mod_self]
    · exact (Nat.mod_eq_of_lt (by omega)).symm

/-- A TICK keeps the audio invariant; the clock's rate is positive, so time does not go back. -/
theorem tick_audioInvariant {s : State} (hc : CfgParams s.cfg) (h : AudioInvariant s) :
    AudioInvariant (update (frameStage (timerStage (s.withCyc (s.cyc + 1))))) where
  frame := by
    have hfs : s.fs = s.cyc % s.cfg.framePeriod := h.frame
    simp [FrameTracksCycle, frameStage_fs, hfs, wrapping_count]
  lfsr := by
    rw [update_noise, tick_noise]
    exact tickNoise_lfsr_ne_zero _ _ _ h.lfsr
  first := by
    rw [update_p1, update_p2, tick_p1, tick_p2, tickPulse_first, tickPulse_first]
    exact h.first
  registers := by
    simpa [RegistersCanonical] using h.registers
  triPeriod := by
    rw [update_tri, tick_tri, tickTri_period]
    simpa using h.triPeriod
  gated := by
    obtain ⟨h1, h2, h3, h4⟩ := h.gated
    rw [LengthsGated, update_p1, update_p2, update_tri, update_noise, tick_p1, tick_p2, tick_tri, tick_noise,
      tickPulse_len, tickPulse_len, tickTri_len, tickNoise_len]
    exact ⟨tickLength_gated _ _ _ h1, tickLength_gated _ _ _ h2, tickLength_gated _ _ _ h3, tickLength_gated _ _ _ h4⟩
  events := by
    refine update_eventsOrdered h.events (by simp) (by simp) ?_
    have hclock : (0 : Rat) < s.cfg.clockHz := by exact_mod_cast hc.clock
    simp only [now, frameStage_cyc, frameStage_cfg, timerStage_cyc, timerStage_cfg, State.withCyc_cyc,
      State.withCyc_cfg]
    gcongr
    exact Nat.le_succ _

/-- Every command keeps the audio invariant. -/
theorem exec_audioInvariant {i : Instr} {s t : State} (hc : CfgParams s.cfg) (h : exec i s = .next t)
    (hs : AudioInvariant s) : AudioInvariant t := by
  cases exec_audioChange h with
  | same _ k => exact audioInvariant_of_sameAudio k hs
  | write a d f hi ha hf hk ht =>
    have periods := exec_periodsKept i s t (ne_of_class_wr hi (by decide)) h
    subst ht
    exact apuWrite_audioInvariant ha hf hk hs (periods.tri hs.triPeriod)
  | tick _ ht => exact ht ▸ tick_audioInvariant hc hs
  | drain _ k => exact audioInvariant_of_sameAudio k (withEvents_nil_audioInvariant hs)

/-! ### One step (60_exceptions.md R612) -/

/-- The invariant without the list operand: what it says of the configuration and of the block. -/
structure BlockInvariant (s : State) : Prop where
  cfg : checkCfg s.cfg = none
  audio : AudioInvariant s
  sink : SinkInvariant s.cfg s.sink

theorem invariant_iff (s : State) : Invariant s ↔ s.host.operand = .latched ∧ BlockInvariant s := by
  constructor
  · intro h
    exact ⟨h.operand, h.cfg, ⟨h.frame, h.lfsr, h.first, h.registers, h.triPeriod, h.gated, h.events⟩,
      ⟨h.buffer.1, h.buffer.2, h.sink.full, h.sink.counts, h.sink.ids, h.sink.fresh⟩, h.sink.deferred⟩
  · rintro ⟨hoperand, hcfg, a, k, hdeferred⟩
    exact ⟨hcfg, hoperand, a.frame, a.lfsr, a.first, a.registers, a.triPeriod, ⟨k.wf, k.slots⟩, a.gated, a.events,
      ⟨k.full, k.counts, hdeferred, k.ids, k.fresh⟩⟩

theorem withHost_sameAudio (s : State) (x : HostSide) : SameAudio s (s.withHost x) :=
  ⟨⟨rfl, rfl, rfl, rfl⟩, rfl, rfl, rfl, rfl, rfl, rfl⟩

theorem withHost_blockInvariant {s : State} (x : HostSide) (h : BlockInvariant s) : BlockInvariant (s.withHost x) :=
  ⟨h.cfg, audioInvariant_of_sameAudio (withHost_sameAudio s x) h.audio, h.sink⟩

/-- Every command keeps the invariant of the block. -/
theorem exec_blockInvariant {i : Instr} {s t : State} (h : exec i s = .next t) (hs : BlockInvariant s) :
    BlockInvariant t := by
  have hc := (checkCfg_ok hs.cfg).1
  have hcfg : t.cfg = s.cfg := (exec_sinkChange i s t h).1
  exact ⟨hcfg ▸ hs.cfg, exec_audioInvariant hc h hs.audio, hcfg ▸ exec_sinkInvariant hc h hs.sink⟩

/-- What a step other than a command's can do: the sink's agent commits or silences the sink, or nothing of it changes
(48_sink.md R537, R538). -/
structure AgentChange (s t : State) : Prop where
  audio : SameAudio s t
  operand : t.host.operand = s.host.operand
  sink : t.sink = s.sink ∨ t.sink = commit s.cfg s.sink
    ∨ t.sink = { s.sink with buf := [], w := s.sink.p, wdArmed := false }

theorem agentChange_refl (s : State) : AgentChange s s := ⟨sameAudio_refl s, rfl, .inl rfl⟩

theorem agentChange_retryStep (s : State) : AgentChange s (retryStep s) :=
  ⟨⟨⟨rfl, rfl, rfl, rfl⟩, rfl, rfl, rfl, rfl, rfl, rfl⟩, rfl, .inr (.inl rfl)⟩

theorem agentChange_underrunStep (s : State) : AgentChange s (underrunStep s) :=
  ⟨⟨⟨rfl, rfl, rfl, rfl⟩, rfl, rfl, rfl, rfl, rfl, rfl⟩, rfl, .inr (.inr rfl)⟩

theorem agentChange_refuseWord (s : State) : AgentChange s (refuseWord s) :=
  ⟨raiseCondition_sameAudio _ s, by rw [refuseWord, raiseCondition_host], .inl (raiseCondition_sink _ s)⟩

theorem agentChange_offerRetry (s : State) : AgentChange s (offerRetry s) := by
  unfold offerRetry
  split
  · exact agentChange_retryStep s
  · exact agentChange_refl s

theorem agentChange_offerUnderrun (s : State) : AgentChange s (offerUnderrun s) := by
  unfold offerUnderrun
  split
  · exact agentChange_underrunStep s
  · exact agentChange_refl s

/-- A change made after the host's side was touched, its operand apart, is one made on the state itself. -/
theorem agentChange_of_withHost {s t : State} (x : HostSide) (hx : x.operand = s.host.operand)
    (h : AgentChange (s.withHost x) t) : AgentChange s t :=
  ⟨sameAudio_trans (withHost_sameAudio s x) h.audio, h.operand.trans hx, h.sink⟩

theorem agentChange_of_dropTurn {s t : State} (h : AgentChange (dropTurn s) t) : AgentChange s t :=
  agentChange_of_withHost { s.host with turns := s.host.turns.tail } rfl h

theorem agentChange_of_countChoice {s t : State} (h : AgentChange (countChoice s) t) : AgentChange s t :=
  agentChange_of_withHost { s.host with choices := s.host.choices + 1 } rfl h

theorem agentChange_idleStep (s : State) : AgentChange s (idleStep s) := by
  unfold idleStep
  split_ifs
  · exact agentChange_of_countChoice (agentChange_underrunStep _)
  · exact agentChange_of_countChoice (agentChange_retryStep _)
  · exact agentChange_underrunStep s
  · exact agentChange_retryStep s
  · exact agentChange_refl s

/-- What one step can be: a command on the state with its turn taken off, or a change of the sink's agent. -/
theorem step_cases {s t : State} (h : step s = .next t) :
    (∃ i op, exec i (setOperand (operandFor i op) (dropTurn s)) = .next t) ∨ AgentChange s t := by
  unfold step at h
  split at h
  · obtain rfl := Host.Outcome.next.inj h
    exact .inr (agentChange_idleStep s)
  · obtain rfl := Host.Outcome.next.inj h
    exact .inr (agentChange_of_dropTurn (agentChange_offerRetry _))
  · obtain rfl := Host.Outcome.next.inj h
    exact .inr (agentChange_of_dropTurn (agentChange_offerUnderrun _))
  · split at h
    · exact .inl ⟨_, _, h⟩
    · obtain rfl := Host.Outcome.next.inj h
      exact .inr (agentChange_of_dropTurn (agentChange_refuseWord _))

theorem operandFor_eq_latched {i : Instr} (hi : ¬(i = .push ∨ i = .sinkw)) (op : Operand) :
    operandFor i op = .latched := by
  obtain ⟨hp, hs⟩ := not_or.mp hi
  unfold operandFor
  split
  · exact absurd rfl hp
  · exact absurd rfl hs
  · rfl

/-- A command run with its own list operand leaves none behind (30_encoding.md R143). -/
theorem exec_operand {i : Instr} {op : Operand} {s t : State} (h : exec i (setOperand (operandFor i op) s) = .next t) :
    t.host.operand = .latched := by
  rw [(exec_hostChange h).operand]
  split
  · rfl
  · next hi => exact operandFor_eq_latched hi op

/-- A change of the sink's agent keeps the invariant of the block. -/
theorem agentChange_blockInvariant {s t : State} (h : AgentChange s t) (hs : BlockInvariant s) : BlockInvariant t := by
  obtain ⟨hcfg, haudio, haccounted, hdeferred⟩ := hs
  have hc := (checkCfg_ok hcfg).1
  have hsink : SinkInvariant s.cfg t.sink := by
    rcases h.sink with e | e | e <;> rw [e]
    · exact ⟨haccounted, hdeferred⟩
    · exact ⟨commit_accounted hc haccounted, commit_headDeferred _ _⟩
    · exact ⟨underrun_accounted hc haccounted, hdeferred⟩
  exact ⟨h.audio.cfg ▸ hcfg, audioInvariant_of_sameAudio h.audio haudio, h.audio.cfg ▸ hsink⟩

/-- Settles O55: a step is a command, which keeps the block's invariant and uses its list operand up, or a change of the
sink's agent, which keeps the block's invariant and the operand. -/
theorem stepKeepsInvariant : Obligations.StepKeepsInvariant := by
  unfold Obligations.StepKeepsInvariant
  intro s t hs h
  obtain ⟨hoperand, hblock⟩ := (invariant_iff s).mp hs
  rw [invariant_iff]
  rcases step_cases h with ⟨i, op, hexec⟩ | hagent
  · have hdrop : BlockInvariant (dropTurn s) := withHost_blockInvariant _ hblock
    exact ⟨exec_operand hexec, exec_blockInvariant hexec (withHost_blockInvariant _ hdrop)⟩
  · exact ⟨hagent.operand.trans hoperand, agentChange_blockInvariant hagent hblock⟩

end Sys2Proof.Machine

end StateProofs


/-! ## The memory: the register file and the configuration (20_memory.md R103, R111) -/

section MemoryProofs

namespace Sys2Proof.Machine

/-- Every `WR` word does what R200's dispatch says: each register's row by its own meaning, any other address by the
catch-all row. -/
theorem exec_decodeWr (a : Addr) (d : Byte) (s : State) : exec (decodeWr a d) s = .next (busWrite a d s) := by
  cases h : isApuAddr a
  case false =>
    rw [decodeWr_of_not_isApuAddr d h, busWrite, h]
    rfl
  case true =>
    have hm := isApuAddr_mem h
    clear h
    fin_cases hm <;> rfl

/-- A `WR` to an APU address stores its byte, moves channel records by the register's effect and runs `Update()`. -/
theorem busWrite_writeFrame {a : Addr} (h : isApuAddr a = true) (d : Byte) (s : State) :
    WriteFrame a d s (busWrite a d s) := by
  rw [busWrite, if_pos h]
  exact apuWrite_writeFrame (channelEffect_registerEffect a d) a d s

/-- Settles O24: `WriteFrame` gives every byte of the register file after the write. -/
theorem readReturnsLatestWrite : Obligations.ReadReturnsLatestWrite := by
  unfold Obligations.ReadReturnsLatestWrite
  intro s a d h
  have hbytes := (busWrite_writeFrame h d s).bytes
  refine ⟨busWrite a d s, exec_decodeWr a d s, ?_, fun b hb => ?_⟩
  · rw [hbytes, if_pos rfl]
  · rw [hbytes, if_neg hb]

/-- Settles O56: a step is a command, which keeps the configuration, or a change of the sink's agent, which keeps the
whole audio state. -/
theorem configurationIsImmutable : Obligations.ConfigurationIsImmutable := by
  unfold Obligations.ConfigurationIsImmutable
  intro s t h
  rcases step_cases h with ⟨i, op, hexec⟩ | hagent
  · exact (exec_sinkChange i _ t hexec).1
  · exact hagent.audio.cfg

end Sys2Proof.Machine

end MemoryProofs

/-! ## The encoding: decoder, encoder, opcode map and assembler (30_encoding.md) -/

section EncodingProofs

namespace Sys2Proof

/-! ### The branches of the decoder (30_encoding.md R141, R142, R145) -/

/-- The commands whose whole `ARG` must be 0 (30_encoding.md R142). -/
def noArgCommands : List Instr := [.tick, .drain, .push, .render, .sinkw, .stop]

/-- What the decoder answers for a word, one constructor a branch: a test it makes and the answer it gives then. -/
inductive DecodeBranch (w : Word) : Except DecodeError Instr → Prop
  | reservedBits (hrsv : rsvOf w ≠ 0#4) : DecodeBranch w (.error .reservedBits)
  | wr (hrsv : rsvOf w = 0#4) (hclass : classOf w = 0x0#4) : DecodeBranch w (.ok (decodeWr (addrOf w) (dataOf w)))
  | rd (hrsv : rsvOf w = 0#4) (hclass : classOf w = 0x1#4) : DecodeBranch w (decodeRd w)
  | noArg (i : Instr) (hi : i ∈ noArgCommands) (hrsv : rsvOf w = 0#4) (hclass : classOf w = classOf (encode i)) :
      DecodeBranch w (decodeZero w i)
  | devadv (hrsv : rsvOf w = 0#4) (hclass : classOf w = 0x7#4) : DecodeBranch w (.ok (.devadv (argOf w)))
  | reservedClass (hrsv : rsvOf w = 0#4) (hclass : 0x9#4 ≤ classOf w) : DecodeBranch w (.error .reservedClass)

/-- A class that is none of the table's is reserved (30_encoding.md R141). -/
theorem nine_le_of_ne_class {c : BitVec 4} (h0 : c ≠ 0x0#4) (h1 : c ≠ 0x1#4) (h2 : c ≠ 0x2#4) (h3 : c ≠ 0x3#4)
    (h4 : c ≠ 0x4#4) (h5 : c ≠ 0x5#4) (h6 : c ≠ 0x6#4) (h7 : c ≠ 0x7#4) (h8 : c ≠ 0x8#4) : 0x9#4 ≤ c := by
  bv_omega

/-- Every word takes one of the branches. -/
theorem decode_branch (w : Word) : DecodeBranch w (decode w) := by
  unfold decode
  split_ifs with hrsv h0 h1 h2 h3 h4 h5 h6 h7 h8
  · exact .reservedBits hrsv
  all_goals replace hrsv := not_not.mp hrsv
  · exact .wr hrsv h0
  · exact .rd hrsv h1
  · exact .noArg .tick (by decide) hrsv h2
  · exact .noArg .drain (by decide) hrsv h3
  · exact .noArg .push (by decide) hrsv h4
  · exact .noArg .render (by decide) hrsv h5
  · exact .noArg .sinkw (by decide) hrsv h6
  · exact .devadv hrsv h7
  · exact .noArg .stop (by decide) hrsv h8
  · exact .reservedClass hrsv (nine_le_of_ne_class h0 h1 h2 h3 h4 h5 h6 h7 h8)

theorem decodeRd_eq_ok_iff {w : Word} {i : Instr} :
    decodeRd w = .ok i ↔ dataOf w = 0#8 ∧ Machine.isApuAddr (addrOf w) = true ∧ i = .rd (addrOf w) := by
  unfold decodeRd
  split_ifs with hdata haddr
  · simp [hdata]
  · simp [not_not.mp hdata, haddr, eq_comm]
  · simp [haddr]

theorem decodeRd_eq_error_iff {w : Word} :
    (∃ e, decodeRd w = .error e) ↔ dataOf w ≠ 0#8 ∨ Machine.isApuAddr (addrOf w) = false := by
  unfold decodeRd
  split_ifs with hdata haddr
  · simp [hdata]
  · simp [hdata, haddr]
  · simp [haddr]

theorem decodeZero_eq_ok_iff {w : Word} {i j : Instr} : decodeZero w i = .ok j ↔ argOf w = 0#24 ∧ j = i := by
  unfold decodeZero
  split_ifs with harg
  · simp [harg, eq_comm]
  · simp [harg]

theorem decodeZero_eq_error_iff {w : Word} {i : Instr} : (∃ e, decodeZero w i = .error e) ↔ argOf w ≠ 0#24 := by
  unfold decodeZero
  split_ifs with harg
  · simp [harg]
  · simp [harg]

/-! ### Decoder and encoder (30_encoding.md R140, R145, R147) -/

/-- A command without an argument is its class with every other bit 0, and it is well-formed. -/
theorem encode_noArg {i : Instr} (hi : i ∈ noArgCommands) :
    encode i = classOf (encode i) ++ 0#4 ++ 0#24 ∧ i.wf = true := by
  revert i
  decide

theorem decode_noArg {i : Instr} (hi : i ∈ noArgCommands) : decode (encode i) = .ok i := by
  revert i
  decide

/-- Settles O1: a `WR` word decodes to the row of its address, whatever the data; the other words have one row each. -/
theorem decodeOfEncode : Obligations.DecodeOfEncode := by
  unfold Obligations.DecodeOfEncode
  intro i hwf
  cases i with
  | wrNonapu a d =>
    have hout : Machine.isApuAddr a = false := by simpa [Instr.wf] using hwf
    exact (decode_encodeWr a d).trans (congrArg _ (decodeWr_of_not_isApuAddr d hout))
  | rd a => exact (decode_rd a).trans (if_pos hwf)
  | devadv k => exact decode_devadv k
  | tick | drain | push | render | sinkw | stop => exact decode_noArg (by decide)
  | _ d => exact decode_encodeWr _ d

/-- Settles O2: in each branch that answers a command, the word's fields are those of the command's word. -/
theorem encodeOfDecode : Obligations.EncodeOfDecode := by
  unfold Obligations.EncodeOfDecode
  intro w i h
  have hw := word_eq_fields w
  have hwarg := word_eq_fields_arg w
  have hbranch := decode_branch w
  generalize decode w = r at h hbranch
  cases hbranch with
  | reservedBits | reservedClass => cases h
  | wr hrsv hclass =>
    cases h
    obtain ⟨hencode, hwf⟩ := encode_decodeWr (addrOf w) (dataOf w)
    rw [hrsv, hclass] at hw
    exact ⟨hencode.trans hw.symm, hwf⟩
  | rd hrsv hclass =>
    obtain ⟨hdata, haddr, rfl⟩ := decodeRd_eq_ok_iff.mp h
    rw [hrsv, hclass, hdata] at hw
    exact ⟨hw.symm, haddr⟩
  | noArg j hj hrsv hclass =>
    obtain ⟨harg, rfl⟩ := decodeZero_eq_ok_iff.mp h
    obtain ⟨hword, hwf⟩ := encode_noArg hj
    rw [hrsv, hclass, harg, ← hword] at hwarg
    exact ⟨hwarg.symm, hwf⟩
  | devadv hrsv hclass =>
    cases h
    rw [hrsv, hclass] at hwarg
    exact ⟨hwarg.symm, rfl⟩

/-- The classes of the commands without an argument: none is reserved, and none is that of `RD` (30_encoding.md R141). -/
theorem class_of_noArg {c : BitVec 4} {i : Instr} (hi : i ∈ noArgCommands) (hclass : c = classOf (encode i)) :
    (c = 0x2#4 ∨ c = 0x3#4 ∨ c = 0x4#4 ∨ c = 0x5#4 ∨ c = 0x6#4 ∨ c = 0x8#4) ∧ c ≠ 0x1#4 ∧ ¬0x9#4 ≤ c := by
  subst hclass
  revert i
  decide

/-- Settles O4: each branch of the decoder refuses under the conditions of R145 that its class leaves open. -/
theorem decoderRefusesIllegalWords : Obligations.DecoderRefusesIllegalWords := by
  unfold Obligations.DecoderRefusesIllegalWords
  intro w
  have hbranch := decode_branch w
  generalize decode w = r at hbranch
  cases hbranch with
  | reservedBits hrsv => simp [hrsv]
  | reservedClass hrsv hclass => simp [hclass]
  | wr hrsv hclass | devadv hrsv hclass => simp [hrsv, hclass]
  | rd hrsv hclass =>
    rw [decodeRd_eq_error_iff]
    simp [hrsv, hclass]
  | noArg i hi hrsv hclass =>
    obtain ⟨hnoArg, hrd, hreserved⟩ := class_of_noArg hi hclass
    rw [decodeZero_eq_error_iff]
    simp only [hnoArg, hrd, hreserved, hrsv, ne_eq, not_true_eq_false, false_and, false_or, true_and]

/-! ### The opcode map (30_encoding.md R147) -/

/-- The mnemonic of a word is that of a row it matches when it matches no earlier row. -/
theorem rowMnemonic_eq_some {w : Word} {row : OpcodeRow} (earlier later : List OpcodeRow)
    (hrows : opcodeRows = earlier ++ row :: later) (hmatch : w &&& row.mask = row.pattern)
    (hearlier : ∀ r ∈ earlier, w &&& r.mask ≠ r.pattern) : rowMnemonic w = some row.mnemonic := by
  have hfind : opcodeRows.find? (fun r => w &&& r.mask == r.pattern) = some row := by
    rw [List.find?_eq_some_iff_append]
    exact ⟨by simpa using hmatch, earlier, later, hrows, by simpa using hearlier⟩
  rw [rowMnemonic, hfind]
  rfl

/-- Every row gives the class in full, so that a word of another class does not match it. -/
theorem not_match_of_class {w : Word} {r : OpcodeRow} (hr : r ∈ opcodeRows) (hclass : classOf w ≠ classOf r.pattern) :
    w &&& r.mask ≠ r.pattern := by
  intro hmatch
  have hfull : ∀ r ∈ opcodeRows, classOf r.mask = BitVec.allOnes 4 := by decide
  have h := ((row_match r w).mp hmatch).1
  rw [hfull r hr, BitVec.and_allOnes] at h
  exact hclass h

/-- The mnemonic of a word is that of a row it matches when no earlier row has its class. -/
theorem rowMnemonic_eq_some_of_class {w : Word} {row : OpcodeRow} (earlier later : List OpcodeRow)
    (hrows : opcodeRows = earlier ++ row :: later) (hmatch : w &&& row.mask = row.pattern)
    (hclass : ∀ r ∈ earlier, classOf w ≠ classOf r.pattern) : rowMnemonic w = some row.mnemonic :=
  rowMnemonic_eq_some earlier later hrows hmatch fun r hr =>
    not_match_of_class (hrows ▸ List.mem_append_left _ hr) (hclass r hr)

/-- A row matches a `WR` word by the address and the data alone once its class and reserved bits are those of `WR`. -/
theorem encodeWr_match (r : OpcodeRow) (a : Addr) (d : Byte) :
    (encodeWr a d &&& r.mask = r.pattern) ↔ 0#4 = classOf r.pattern ∧ 0#4 = rsvOf r.pattern
      ∧ a &&& addrOf r.mask = addrOf r.pattern ∧ d &&& dataOf r.mask = dataOf r.pattern := by
  obtain ⟨hclass, hrsv, haddr, hdata⟩ := encodeWr_fields a d
  rw [row_match, hclass, hrsv, haddr, hdata, BitVec.zero_and, BitVec.zero_and]

/-- The data byte of a `WR` word does not bear on its row: no `WR` row fixes a data bit. -/
theorem rowMnemonic_encodeWr_data (a : Addr) (d : Byte) : rowMnemonic (encodeWr a d) = rowMnemonic (encodeWr a 0#8) := by
  have hopen : ∀ r ∈ opcodeRows, 0#4 = classOf r.pattern → dataOf r.mask = 0#8 := by decide
  have hsame : ∀ r ∈ opcodeRows,
      (encodeWr a d &&& r.mask == r.pattern) = (encodeWr a 0#8 &&& r.mask == r.pattern) := by
    intro r hr
    rw [Bool.eq_iff_iff, beq_iff_eq, beq_iff_eq, encodeWr_match, encodeWr_match]
    refine and_congr_right fun hclass => ?_
    rw [hopen r hr hclass, BitVec.and_zero, BitVec.and_zero]
  rw [rowMnemonic, rowMnemonic, List.find?_congr hsame]

/-- A `WR` word to an address outside `APU_ADDRS` matches the catch-all row first: every earlier `WR` row gives the whole
address of a register. -/
theorem rowMnemonic_encodeWr_of_not_isApuAddr {a : Addr} (d : Byte) (h : Machine.isApuAddr a = false) :
    rowMnemonic (encodeWr a d) = some "WR_NONAPU" := by
  have hregister : ∀ r ∈ opcodeRows.take 29, 0#4 = classOf r.pattern →
      addrOf r.mask = BitVec.allOnes 16 ∧ Machine.isApuAddr (addrOf r.pattern) = true := by decide
  refine rowMnemonic_eq_some (row := ⟨0x00000000#32, 0xFF000000#32, "WR_NONAPU"⟩) (opcodeRows.take 29)
    (opcodeRows.drop 30) rfl ?_ fun r hr hmatch => ?_
  · rw [encodeWr_match]
    exact ⟨rfl, rfl, BitVec.and_zero, BitVec.and_zero⟩
  · obtain ⟨hclass, -, haddr, -⟩ := (encodeWr_match r a d).mp hmatch
    obtain ⟨hmask, hapu⟩ := hregister r hr hclass
    rw [hmask, BitVec.and_allOnes] at haddr
    exact Machine.ne_of_not_isApuAddr h hapu haddr

/-- A `WR` word matches first the row of the command it decodes to. -/
theorem rowMnemonic_encodeWr (a : Addr) (d : Byte) : rowMnemonic (encodeWr a d) = some (decodeWr a d).mnemonic := by
  cases h : Machine.isApuAddr a
  case false =>
    rw [decodeWr_of_not_isApuAddr d h]
    exact rowMnemonic_encodeWr_of_not_isApuAddr d h
  case true =>
    rw [rowMnemonic_encodeWr_data]
    have hm := Machine.isApuAddr_mem h
    clear h
    fin_cases hm <;> rfl

/-- A `RD` word matches the `RD` row, and no earlier row has its class. -/
theorem rowMnemonic_rd (a : Addr) : rowMnemonic (encode (.rd a)) = some "RD" := by
  obtain ⟨hclass, hrsv, haddr, hdata⟩ := rd_fields a
  have hmatch : encode (.rd a) &&& 0xFF0000FF#32 = 0x10000000#32 := by
    rw [encode, row_match ⟨0x10000000#32, 0xFF0000FF#32, "RD"⟩, hclass, hrsv, haddr, hdata]
    exact ⟨rfl, rfl, BitVec.and_zero, rfl⟩
  refine rowMnemonic_eq_some_of_class (opcodeRows.take 28) (opcodeRows.drop 29) rfl hmatch ?_
  rw [encode, hclass]
  decide

/-- A `DEVADV` word matches the `DEVADV` row, and no earlier row has its class. -/
theorem rowMnemonic_devadv (k : BitVec 24) : rowMnemonic (encode (.devadv k)) = some "DEVADV" := by
  obtain ⟨hclass, hrsv, -⟩ := devadv_fields k
  have hmatch : encode (.devadv k) &&& 0xFF000000#32 = 0x70000000#32 := by
    rw [encode, row_match ⟨0x70000000#32, 0xFF000000#32, "DEVADV"⟩, hclass, hrsv]
    exact ⟨rfl, rfl, BitVec.and_zero, BitVec.and_zero⟩
  refine rowMnemonic_eq_some_of_class (opcodeRows.take 30) (opcodeRows.drop 31) rfl hmatch ?_
  rw [encode, hclass]
  decide

/-- The word of a well-formed command matches first the row of that command. -/
theorem rowMnemonic_encode {i : Instr} (hwf : i.wf = true) : rowMnemonic (encode i) = some i.mnemonic := by
  cases i with
  | wrNonapu a d => exact rowMnemonic_encodeWr_of_not_isApuAddr d (by simpa [Instr.wf] using hwf)
  | rd a => exact rowMnemonic_rd a
  | devadv k => exact rowMnemonic_devadv k
  | tick | drain | push | render | sinkw | stop => decide
  | _ d => exact rowMnemonic_encodeWr _ d

/-- Settles O5: a word that decodes is the word of a well-formed command, which matches that command's row. -/
theorem decoderFollowsOpcodeTable : Obligations.DecoderFollowsOpcodeTable := by
  unfold Obligations.DecoderFollowsOpcodeTable
  intro w
  have hrow : ∀ i, decode w = .ok i → rowMnemonic w = some i.mnemonic := by
    intro i h
    obtain ⟨rfl, hwf⟩ := encodeOfDecode w i h
    exact rowMnemonic_encode hwf
  refine ⟨hrow, fun hnone => ?_⟩
  cases h : decode w with
  | error e => exact ⟨e, rfl⟩
  | ok i => simp [hrow i h] at hnone

/-- Settles O3: each word is the encoder's word of the well-formed command beside it. -/
theorem specWordsDecode : Obligations.SpecWordsDecode := by
  unfold Obligations.SpecWordsDecode
  exact ⟨decodeOfEncode (.wrP1Ctrl 0x98#8) rfl, decodeOfEncode (.wrP2Hi 0x08#8) rfl,
    decodeOfEncode (.wrNoiPeriod 0x80#8) rfl, decodeOfEncode (.wrStatus 0x0F#8) rfl,
    decodeOfEncode (.wrNonapu 0x4016#16 0x01#8) rfl, decodeOfEncode (.rd 0x4015#16) rfl, decodeOfEncode .tick rfl,
    decodeOfEncode (.devadv 0x123456#24) rfl, decodeOfEncode .stop rfl⟩

/-! ### The assembler (30_encoding.md R151) -/

/-- The length index and the high bits of a period, as `NOTE` writes them. -/
theorem noteLengthHigh_toNat (p : BitVec 11) (l : BitVec 5) :
    (l ++ p.extractLsb' 8 3).toNat = l.toNat * 8 + p.toNat / 256 := by
  have hp := p.isLt
  have hhigh := (p.extractLsb' 8 3).isLt
  rw [BitVec.toNat_append, ← Nat.shiftLeft_add_eq_or_of_lt hhigh, Nat.shiftLeft_eq, BitVec.extractLsb'_toNat,
    Nat.shiftRight_eq_div_pow]
  omega

/-- Settles O59: the assembler's words are the encoder's by definition, and the second byte of `NOTE` has the value
above. -/
theorem pseudoInstructionsExpand : Obligations.PseudoInstructionsExpand := by
  unfold Obligations.PseudoInstructionsExpand
  refine ⟨fun n => rfl, rfl, fun p l => ⟨p.extractLsb' 0 8, l ++ p.extractLsb' 8 3, ?_⟩⟩
  exact ⟨BitVec.extractLsb'_toNat .., noteLengthHigh_toNat p l, rfl, rfl, rfl⟩

end Sys2Proof

end EncodingProofs


/-! ## The bus: the status write, the stored-only writes, the dispatch and the read (40_bus.md) -/

section BusProofs

namespace Sys2Proof.Machine

/-! ### Silence (40_bus.md R206, 46_mixer_events.md R440) -/

theorem pulseAmp_of_counter_zero (c : Cfg) {p : Pulse} (h : p.len.counter = 0#8) : pulseAmp c p = 0 := if_pos (.inl h)

theorem triAmp_of_counter_zero (c : Cfg) {t : Triangle} (h : t.len.counter = 0#8) : triAmp c t = 0 := if_pos (.inl h)

theorem noiseAmp_of_counter_zero {n : Noise} (h : n.len.counter = 0#8) : noiseAmp n = 0 := if_pos (.inl h)

/-- The mixer answers 0 where every channel is silent. -/
theorem mixNow_of_silent {s : State} (h1 : pulseAmp s.cfg s.p1 = 0) (h2 : pulseAmp s.cfg s.p2 = 0)
    (ht : triAmp s.cfg s.tri = 0) (hn : noiseAmp s.noise = 0) : mixNow s = 0 := by
  simp [mixNow, h1, h2, ht, hn, mix, mixPulse, mixTnd]

/-! ### The enable bits of `$4015` (40_bus.md R206) -/

/-- A clear enable bit zeroes the counter. -/
theorem lenEnable_counter_of_off {l : Length} {on : Bool} (h : on = false) : (lenEnable l on).counter = 0#8 := by
  subst h
  rfl

/-- A record built from a written length counter, by the enable bit. -/
theorem apply_lenEnable {α : Type} (f : Length → α) (l : Length) (on : Bool) :
    f (lenEnable l on) = if on = true then f { l with enabled := true }
      else f { l with enabled := false, counter := 0#8, pending := false } :=
  apply_ite f _ _ _

/-- The four low bits of a multiple of 16 are clear. -/
theorem getLsbD_of_low_nibble_zero {d : Byte} (h : d.toNat % 16 = 0) {i : Nat} (hi : i < 4) : d.getLsbD i = false := by
  have hbit := Nat.testBit_mod_two_pow d.toNat 4 i
  simpa [BitVec.getLsbD, h, hi] using hbit

/-- Settles O19: each channel's length counter is the one `lenEnable` gives, a zeroed counter silences its channel, and the
last amplitude is the mixer's output. (`Bus.`, since `statusWrite` is the model's own effect of the write.) -/
theorem Bus.statusWrite : Obligations.StatusWrite := by
  unfold Obligations.StatusWrite
  intro s d
  have frame := apuWrite_writeFrame (channelEffect_status d) 0x4015#16 d s
  have off1 (h : d.getLsbD 0 = false) := pulseAmp_of_counter_zero s.cfg
    (p := { s.p1 with len := lenEnable s.p1.len (bitOf d 0) }) (lenEnable_counter_of_off h)
  have off2 (h : d.getLsbD 1 = false) := pulseAmp_of_counter_zero s.cfg
    (p := { s.p2 with len := lenEnable s.p2.len (bitOf d 1) }) (lenEnable_counter_of_off h)
  have offT (h : d.getLsbD 2 = false) := triAmp_of_counter_zero s.cfg
    (t := { s.tri with len := lenEnable s.tri.len (bitOf d 2) }) (lenEnable_counter_of_off h)
  have offN (h : d.getLsbD 3 = false) := noiseAmp_of_counter_zero
    (n := { s.noise with len := lenEnable s.noise.len (bitOf d 3) }) (lenEnable_counter_of_off h)
  refine ⟨_, rfl, frame, apply_lenEnable (fun l => { s.p1 with len := l }) _ _,
    apply_lenEnable (fun l => { s.p2 with len := l }) _ _, apply_lenEnable (fun l => { s.tri with len := l }) _ _,
    apply_lenEnable (fun l => { s.noise with len := l }) _ _, off1, off2, offT, offN, fun h => ?_⟩
  have low {i : Nat} (hi : i < 4) : d.getLsbD i = false := getLsbD_of_low_nibble_zero h hi
  rw [frame.lastAmp]
  exact mixNow_of_silent (off1 (low (by decide))) (off2 (low (by decide))) (offT (low (by decide)))
    (offN (low (by decide)))

/-! ### The stored-only writes (40_bus.md R207) -/

/-- `Update()` appends no event where the write leaves the channels alone and the last amplitude is the mixer's output. -/
theorem WriteFrame.events_of_sameChannels {a : Addr} {d : Byte} {s t : State} (h : WriteFrame a d s t)
    (hc : SameChannels s t) (hs : s.lastAmp = mixNow s) : t.events = s.events := by
  rw [h.events, mixNow_congr h.cfg hc, if_pos hs.symm]

/-- A register write without an effect of its own leaves the channels alone. -/
theorem apuWrite_id_sameChannels (a : Addr) (d : Byte) (s : State) : SameChannels s (apuWrite a d id s) := by
  obtain ⟨h1, h2, ht, hn⟩ := apuWrite_channels id a d s
  exact ⟨h1, h2, ht, hn⟩

/-- Settles O20: each of the rows is a register write without an effect of its own. -/
theorem storedOnlyWrites : Obligations.StoredOnlyWrites := by
  unfold Obligations.StoredOnlyWrites
  intro s d a i hrow
  have hexec : exec i s = .next (apuWrite a d id s) := by
    simp only [List.mem_cons, Prod.mk.injEq, List.not_mem_nil, or_false] at hrow
    rcases hrow with ⟨rfl, rfl⟩ | ⟨rfl, rfl⟩ | ⟨rfl, rfl⟩ | ⟨rfl, rfl⟩ | ⟨rfl, rfl⟩ | ⟨rfl, rfl⟩ | ⟨rfl, rfl⟩ <;> rfl
  have frame := apuWrite_writeFrame channelEffect_id a d s
  have same := apuWrite_id_sameChannels a d s
  exact ⟨_, hexec, frame, same, frame.events_of_sameChannels same⟩

/-! ### The dispatch, the catch-all row and the read (40_bus.md R200, R208, R209) -/

/-- Settles O23: `exec_decodeWr`, row by row over the bus addresses. -/
theorem writeDispatch : Obligations.WriteDispatch := by
  unfold Obligations.WriteDispatch
  exact fun s a d => exec_decodeWr a d s

/-- Settles O21: the catch-all row's meaning is the state itself. -/
theorem nonApuWriteHasNoEffect : Obligations.NonApuWriteHasNoEffect := by
  unfold Obligations.NonApuWriteHasNoEffect
  intro s a d
  rfl

/-- An observation changes the host's side only. -/
theorem observe_sameBlock (o : Observation) (s : State) : SameBlock s (observe o s) :=
  ⟨⟨⟨rfl, rfl, rfl, rfl⟩, rfl, rfl, rfl, rfl, rfl, rfl⟩, rfl, rfl, rfl⟩

/-- Settles O22: a read of an APU address is the observation of its byte. -/
theorem registerRead : Obligations.RegisterRead := by
  unfold Obligations.RegisterRead
  intro s a hapu
  have hexec : exec (.rd a) s = .next (observe (.readByte a (s.reg.read a)) s) := if_pos hapu
  exact ⟨_, hexec, observe_sameBlock _ s, rfl⟩

end Sys2Proof.Machine

end BusProofs


/-! ## The primitives: the divider, the envelope and the length counter (41_primitives.md) -/

section PrimitiveProofs

namespace Sys2Proof.Machine

/-! ### The divider (41_primitives.md R240) -/

/-- Settles O25, by induction on the clocks before the one in question: the first of them reloads the divider at 0, and
else leaves it one clock nearer to 0. -/
theorem dividerPeriod : Obligations.DividerPeriod := by
  unfold Obligations.DividerPeriod
  intro n p c k
  induction k generalizing c with
  | zero => simp [dividerAfter, dividerClock_fires]
  | succ k ih =>
    rw [dividerAfter, ih, dividerClock_toNat]
    by_cases hc : c.toNat = 0
    · rw [if_pos hc, hc]
      by_cases hp : p.toNat ≤ k
      · have hperiod : k + 1 - 0 = k - p.toNat + (p.toNat + 1) := by omega
        simp [hp, hperiod]
      · have hearly : (k + 1) % (p.toNat + 1) = k + 1 := Nat.mod_eq_of_lt (by omega)
        simp [hp, hearly]
    · have hle : c.toNat - 1 ≤ k ↔ c.toNat ≤ k + 1 := by omega
      have hrest : k - (c.toNat - 1) = k + 1 - c.toNat := by omega
      rw [if_neg hc, hle, hrest]

/-! ### The envelope (41_primitives.md R243) -/

theorem envClock_of_start {e : Envelope} (h : e.start = true) :
    envClock e = { e with start := false, decay := 15#4, div := e.vol } := if_pos h

theorem envClock_of_div_ne_zero {e : Envelope} (h : e.start = false) (hdiv : e.div ≠ 0#4) :
    envClock e = { e with div := e.div - 1#4 } := by
  simp [envClock, dividerClock, h, hdiv]

theorem envClock_of_div_zero {e : Envelope} (h : e.start = false) (hdiv : e.div = 0#4) :
    envClock e = { e with
      div := e.vol
      decay := if e.decay = 0#4 then (if e.loop = true then 15#4 else 0#4) else e.decay - 1#4 } := by
  obtain ⟨start, loop, isConst, vol, div, decay⟩ := e
  subst h hdiv
  by_cases hdecay : decay = 0#4
  · cases loop <;> simp [envClock, dividerClock, hdecay]
  · simp [envClock, dividerClock, hdecay]

theorem envClock_start (e : Envelope) : (envClock e).start = false := by
  cases h : e.start with
  | true => rw [envClock_of_start h]
  | false =>
    by_cases hdiv : e.div = 0#4
    · rw [envClock_of_div_zero h hdiv, h]
    · rw [envClock_of_div_ne_zero h hdiv, h]

theorem envClock_isConst (e : Envelope) : (envClock e).isConst = e.isConst := by
  unfold envClock
  simp only
  split_ifs <;> rfl

theorem envClock_vol (e : Envelope) : (envClock e).vol = e.vol := by
  unfold envClock
  simp only
  split_ifs <;> rfl

/-- The decay level `q` divider periods after a start request: it stays at 0, or wraps with the loop flag set (R243). -/
def decayLevel (loop : Bool) (q : Nat) : Nat := 15 - (if loop = true then q % 16 else q)

theorem decayLevel_succ (loop : Bool) (q : Nat) :
    decayLevel loop (q + 1) =
      if decayLevel loop q = 0 then (if loop = true then 15 else 0) else decayLevel loop q - 1 := by
  cases loop with
  | false =>
    show 15 - (q + 1) = if 15 - q = 0 then 0 else 15 - q - 1
    split <;> omega
  | true =>
    show 15 - (q + 1) % 16 = if 15 - q % 16 = 0 then 15 else 15 - q % 16 - 1
    split <;> omega

/-- The envelope `e` is `r` clocks into its divider period number `q` since the start request of `e₀` was served. -/
structure DecayPhase (e₀ : Envelope) (q r : Nat) (e : Envelope) : Prop where
  start : e.start = false
  loop : e.loop = e₀.loop
  vol : e.vol = e₀.vol
  div : e.div.toNat + r = e₀.vol.toNat
  decay : e.decay.toNat = decayLevel e₀.loop q

theorem decayPhase_of_start {e : Envelope} (h : e.start = true) : DecayPhase e 0 0 (envClock e) := by
  rw [envClock_of_start h]
  exact ⟨rfl, rfl, rfl, rfl, by cases e.loop <;> rfl⟩

section
variable {e₀ e : Envelope} {q r : Nat}

/-- Inside a period the divider counts down and the decay stays. -/
theorem DecayPhase.count (h : DecayPhase e₀ q r e) (hr : r < e₀.vol.toNat) :
    DecayPhase e₀ q (r + 1) (envClock e) := by
  obtain ⟨hstart, hloop, hvol, hdiv, hdecay⟩ := h
  have hne : e.div ≠ 0#4 := by bv_omega
  rw [envClock_of_div_ne_zero hstart hne]
  exact ⟨hstart, hloop, hvol, by bv_omega, hdecay⟩

/-- At the end of a period the divider reloads and the decay takes its next level. -/
theorem DecayPhase.reload (h : DecayPhase e₀ q e₀.vol.toNat e) : DecayPhase e₀ (q + 1) 0 (envClock e) := by
  obtain ⟨hstart, hloop, hvol, hdiv, hdecay⟩ := h
  have hzero : e.div = 0#4 := by bv_omega
  rw [envClock_of_div_zero hstart hzero]
  refine ⟨hstart, hloop, hvol, congrArg BitVec.toNat hvol, ?_⟩
  rw [decayLevel_succ, ← hdecay, ← hloop]
  by_cases hd : e.decay = 0#4
  · cases e.loop <;> simp [hd]
  · have hpos : e.decay.toNat ≠ 0 := by bv_omega
    simp only [hd, hpos, if_false]
    bv_omega

end

/-- The last of some quarter frames comes after the others. -/
theorem envAfter_succ (k : Nat) (e : Envelope) : envAfter (k + 1) e = envClock (envAfter k e) := by
  induction k generalizing e with
  | zero => rfl
  | succ k ih => exact ih (envClock e)

/-- The phase of an envelope some quarter frames after the one that serves its start request. -/
theorem decayPhase_envAfter {e : Envelope} (h : e.start = true) (k : Nat) :
    DecayPhase e (k / (e.vol.toNat + 1)) (k % (e.vol.toNat + 1)) (envAfter (k + 1) e) := by
  induction k with
  | zero =>
    rw [Nat.zero_div, Nat.zero_mod]
    exact decayPhase_of_start h
  | succ k ih =>
    have hsplit := Nat.mod_add_div k (e.vol.toNat + 1)
    have hlt := Nat.mod_lt k (Nat.succ_pos e.vol.toNat)
    rw [envAfter_succ]
    generalize k / (e.vol.toNat + 1) = q, k % (e.vol.toNat + 1) = r at ih hsplit hlt
    rcases Nat.lt_succ_iff_lt_or_eq.mp hlt with hr | rfl
    · obtain ⟨hq, hm⟩ := (Nat.div_mod_unique (Nat.succ_pos e.vol.toNat)).mpr
        ⟨(by omega : r + 1 + (e.vol.toNat + 1) * q = k + 1), Nat.succ_lt_succ hr⟩
      rw [hq, hm]
      exact ih.count hr
    · obtain ⟨hq, hm⟩ := (Nat.div_mod_unique (Nat.succ_pos e.vol.toNat)).mpr
        ⟨(by rw [← hsplit]; ring : 0 + (e.vol.toNat + 1) * (q + 1) = k + 1), Nat.succ_pos e.vol.toNat⟩
      rw [hq, hm]
      exact ih.reload

/-- Settles O26: the clauses of one clock are its three cases, and the closed form is the phase of the envelope. -/
theorem envelopeDecay : Obligations.EnvelopeDecay := by
  unfold Obligations.EnvelopeDecay
  refine ⟨fun e => ⟨envClock_loop e, envClock_isConst e, envClock_vol e, envClock_start e, fun h => ?_,
    fun h hdiv => ?_, fun h hdiv => ?_⟩, fun e k h => (decayPhase_envAfter h k).decay⟩
  · rw [envClock_of_start h]
    exact ⟨rfl, rfl⟩
  · rw [envClock_of_div_ne_zero h hdiv]
    exact ⟨by bv_omega, rfl⟩
  · rw [envClock_of_div_zero h hdiv]
    refine ⟨rfl, fun hdecay => ?_, fun hdecay => if_pos hdecay⟩
    simp only [hdecay, if_false]
    bv_omega

/-! ### The length counter (41_primitives.md R250, R251) -/

/-- Every look-up in a checked length table gives the table's own value (R252). -/
theorem lengthOf_toNat {c : Cfg} (h : checkCfg c = none) (idx : BitVec 5) :
    c.lengthTable[idx.toNat]? = some (lengthOf c idx).toNat := by
  obtain ⟨-, hshapes⟩ := checkCfg_ok h
  have hlt : idx.toNat < c.lengthTable.length := hshapes.length ▸ idx.isLt
  have hle : c.lengthTable[idx.toNat] ≤ 254 := hshapes.lengths _ (List.getElem_mem hlt)
  rw [lengthOf, List.getD_eq_getElem _ _ hlt, BitVec.toNat_ofNat, Nat.mod_eq_of_lt (by omega),
    List.getElem?_eq_getElem hlt]

theorem lenClock_enabled (l : Length) (halt : Bool) : (lenClock l halt).enabled = l.enabled := by
  unfold lenClock
  split <;> rfl

theorem lenClock_index (l : Length) (halt : Bool) : (lenClock l halt).index = l.index := by
  unfold lenClock
  split <;> rfl

theorem lenClock_pending (l : Length) (halt : Bool) : (lenClock l halt).pending = l.pending := by
  unfold lenClock
  split <;> rfl

theorem lenClock_of_halted (l : Length) : lenClock l true = l := if_neg fun h => Bool.noConfusion h.2

/-- A running counter counts down to 0; a halted one stays. -/
theorem lenClock_counter_toNat (l : Length) (halt : Bool) :
    (lenClock l halt).counter.toNat = if halt = false then l.counter.toNat - 1 else l.counter.toNat := by
  cases halt with
  | true => rw [lenClock_of_halted, if_neg (by decide)]
  | false =>
    by_cases h : l.counter = 0#8
    · simp [lenClock, h]
    · simp only [lenClock, h, ne_eq, not_false_eq_true, and_self, if_true]
      bv_omega

theorem lenLoad_enabled (c : Cfg) (l : Length) : (lenLoad c l).enabled = l.enabled := by
  unfold lenLoad
  split_ifs <;> rfl

theorem lenLoad_index (c : Cfg) (l : Length) : (lenLoad c l).index = l.index := by
  unfold lenLoad
  split_ifs <;> rfl

/-- A pending load of an enabled counter is taken; nothing else changes a counter. -/
theorem lenLoad_counter (c : Cfg) (l : Length) :
    (lenLoad c l).counter = if l.pending = true ∧ l.enabled = true then lengthOf c l.index else l.counter := by
  cases hp : l.pending with
  | false => simp [lenLoad, hp]
  | true => simp [lenLoad, hp, apply_ite Length.counter]

/-- At a frame point a length counter is clocked, as a halted one where the frame is no half frame, and then loaded. -/
theorem tickLength_of_frameStep {c : Cfg} {fs : Nat} (hfs : fs ∈ c.frameSteps) (halt : Bool) (l : Length) :
    tickLength c fs halt l = lenLoad c (lenClock l (halt || !decide (fs ∈ c.halfSteps))) := by
  rw [tickLength, if_pos hfs]
  by_cases h : fs ∈ c.halfSteps
  · simp [h]
  · simp [h, lenClock_of_halted]

theorem tickLength_atFrame {c : Cfg} (hc : checkCfg c = none) {fs : Nat} (hfs : fs ∈ c.frameSteps) (halt : Bool)
    (l : Length) : LengthAtFrame c fs halt l (tickLength c fs halt l) := by
  rw [tickLength_of_frameStep hfs]
  constructor
  case enabled => rw [lenLoad_enabled, lenClock_enabled]
  case index => rw [lenLoad_index, lenClock_index]
  case cleared => exact lenLoad_pending _ _
  case loaded =>
    intro h
    rw [lenLoad_counter, lenClock_pending, lenClock_enabled, if_pos h, lenClock_index]
    exact lengthOf_toNat hc l.index
  case clocked =>
    intro h
    rw [lenLoad_counter, lenClock_pending, lenClock_enabled, if_neg h, lenClock_counter_toNat]
    simp [and_comm]

/-- Settles O34: each channel's length counter after the tick is `tickLength` of the one before it. -/
theorem lengthCountersAtQuarterFrame : Obligations.LengthCountersAtQuarterFrame := by
  unfold Obligations.LengthCountersAtQuarterFrame
  intro s hc hfs
  refine ⟨_, rfl, ?_⟩
  rw [update_p1, update_p2, update_tri, update_noise, tick_p1, tick_p2, tick_tri, tick_noise, tickPulse_len,
    tickPulse_len, tickTri_len, tickNoise_len]
  have hlen := tickLength_atFrame hc hfs
  exact ⟨hlen _ _, hlen _ _, hlen _ _, hlen _ _⟩

end Sys2Proof.Machine

end PrimitiveProofs


/-! ## The pulse channels: the writes, the sweep unit, the amplitudes and the timers (42_pulse.md) -/

section PulseProofs

namespace Sys2Proof.Machine

/-! ### The register writes (42_pulse.md R284 to R287) -/

/-- A register write whose effect is on pulse 1 alone. -/
theorem apuWrite_withP1 (f : Cfg → Pulse → Pulse) (a : Addr) (d : Byte) (s : State) :
    let t := apuWrite a d (fun s => s.withP1 (f s.cfg s.p1)) s
    WriteFrame a d s t ∧ t.p1 = f s.cfg s.p1 ∧ t.p2 = s.p2 ∧ t.tri = s.tri ∧ t.noise = s.noise :=
  ⟨apuWrite_writeFrame (channelEffect_withP1 _) a d s, rfl, rfl, rfl, rfl⟩

/-- A register write whose effect is on pulse 2 alone. -/
theorem apuWrite_withP2 (f : Cfg → Pulse → Pulse) (a : Addr) (d : Byte) (s : State) :
    let t := apuWrite a d (fun s => s.withP2 (f s.cfg s.p2)) s
    WriteFrame a d s t ∧ t.p2 = f s.cfg s.p2 ∧ t.p1 = s.p1 ∧ t.tri = s.tri ∧ t.noise = s.noise :=
  ⟨apuWrite_writeFrame (channelEffect_withP2 _) a d s, rfl, rfl, rfl, rfl⟩

/-- Settles O11: each word is a register write whose effect is on its own channel alone. -/
theorem pulseControlWrite : Obligations.PulseControlWrite := by
  unfold Obligations.PulseControlWrite
  intro s d
  exact ⟨⟨_, rfl, apuWrite_withP1 (fun _ c => pulseWriteCtrl c d) 0x4000#16 d s⟩,
    _, rfl, apuWrite_withP2 (fun _ c => pulseWriteCtrl c d) 0x4004#16 d s⟩

/-- Settles O12: each word is a register write whose effect is on its own channel alone. -/
theorem pulseSweepWrite : Obligations.PulseSweepWrite := by
  unfold Obligations.PulseSweepWrite
  intro s d
  exact ⟨⟨_, rfl, apuWrite_withP1 (fun cfg c => pulseWriteSweep cfg c d) 0x4001#16 d s⟩,
    _, rfl, apuWrite_withP2 (fun cfg c => pulseWriteSweep cfg c d) 0x4005#16 d s⟩

/-- Settles O13: the channel's period is `withPeriodLow`, whose value is `withPeriodLow_toNat`. -/
theorem pulseLowWrite : Obligations.PulseLowWrite := by
  unfold Obligations.PulseLowWrite
  intro s d
  obtain ⟨frame1, p1, rest1⟩ := apuWrite_withP1 (fun _ c => pulseWriteLo c d) 0x4002#16 d s
  obtain ⟨frame2, p2, rest2⟩ := apuWrite_withP2 (fun _ c => pulseWriteLo c d) 0x4006#16 d s
  exact ⟨⟨_, rfl, frame1, ⟨_, withPeriodLow_toNat s.p1.period d, p1⟩, rest1⟩,
    _, rfl, frame2, ⟨_, withPeriodLow_toNat s.p2.period d, p2⟩, rest2⟩

/-- Settles O14: the channel's period is `withPeriodHigh`, whose value is `withPeriodHigh_toNat`; the length request is
`lenRequest` by definition. -/
theorem pulseHighWrite : Obligations.PulseHighWrite := by
  unfold Obligations.PulseHighWrite
  intro s d
  obtain ⟨frame1, p1, rest1⟩ := apuWrite_withP1 (fun _ c => pulseWriteHi c d) 0x4003#16 d s
  obtain ⟨frame2, p2, rest2⟩ := apuWrite_withP2 (fun _ c => pulseWriteHi c d) 0x4007#16 d s
  exact ⟨⟨_, rfl, frame1, ⟨_, withPeriodHigh_toNat s.p1.period d, p1⟩, rest1⟩,
    _, rfl, frame2, ⟨_, withPeriodHigh_toNat s.p2.period d, p2⟩, rest2⟩

/-! ### The sweep unit (42_pulse.md R290 to R292) -/

/-- Settles O27: the shift is a division, and the model subtracts the 1 of one's complement on pulse 1 only. -/
theorem sweepTargetFormula : Obligations.SweepTargetFormula := by
  unfold Obligations.SweepTargetFormula
  intro c
  rw [sweepTarget, Nat.shiftRight_eq_div_pow]
  cases c.sw.neg with
  | false => rfl
  | true =>
    cases c.first with
    | false => exact (sub_zero _).symm
    | true => rfl

theorem sweepOutOfRange_iff (c : Pulse) :
    sweepOutOfRange c = true ↔ 0x7FF < sweepTarget c ∨ sweepTarget c < 8 := by
  simp [sweepOutOfRange]

theorem sweepClock_silenced (c : Pulse) :
    (sweepClock c).silenced = true ↔ c.silenced = true ∨ sweepOutOfRange c = true := by
  simp [sweepClock]

/-- The period takes the target exactly where the divider fires, the unit is enabled and the target is in range. -/
theorem sweepClock_period (c : Pulse) :
    (sweepClock c).period =
      if c.sw.div = 0#3 ∧ c.sw.en = true ∧ c.sw.shift ≠ 0#3 ∧ ¬sweepOutOfRange c = true then
        BitVec.ofInt 11 (sweepTarget c)
      else c.period := by
  simp [sweepClock, and_assoc]

theorem sweepClock_div (c : Pulse) :
    (sweepClock c).sw.div = if c.sw.div = 0#3 ∨ c.sw.reload = true then c.sw.per else c.sw.div - 1#3 := by
  simp [sweepClock, apply_ite Sweep.div]

/-- A sweep clock writes the period, the latch and the divider, and clears the reload flag. -/
theorem sweepClock_eq (c : Pulse) :
    sweepClock c = { c with
      period := (sweepClock c).period
      silenced := (sweepClock c).silenced
      sw := { c.sw with div := (sweepClock c).sw.div, reload := false } } := by
  have hsw : (sweepClock c).sw = { c.sw with div := (sweepClock c).sw.div, reload := false } := by
    rw [sweepClock_div]
    by_cases h : c.sw.div = 0#3 ∨ c.sw.reload = true
    · simp [sweepClock, h]
    · obtain ⟨hdiv, hreload⟩ := not_or.mp h
      simp [sweepClock, hdiv, hreload]
  rw [← hsw]
  rfl

/-- Settles O28: the fields a sweep clock writes are those of `sweepClock_eq`, each with its equation; an in-range target
fits the period, and a divider that counts down is not at 0. (`Channels.`, since `sweepClock` is the model's function.) -/
theorem Channels.sweepClock : Obligations.SweepClock := by
  unfold Obligations.SweepClock
  intro c
  refine ⟨_, _, _, sweepClock_eq c, ?_, ⟨fun h => ?_, fun h => ?_⟩, fun h => ?_, fun h => ?_⟩
  · rw [sweepClock_silenced, sweepOutOfRange_iff]
  · rw [← sweepOutOfRange_iff] at h
    have ⟨_, _, _, hrange⟩ := h
    rw [sweepClock_period, if_pos h, sweepTarget_toNat c (Bool.eq_false_of_not_eq_true hrange)]
  · rw [← sweepOutOfRange_iff] at h
    rw [sweepClock_period, if_neg h]
  · rw [sweepClock_div, if_pos h]
  · have hdiv : c.sw.div ≠ 0#3 := fun h0 => h (.inl h0)
    rw [sweepClock_div, if_neg h]
    bv_omega

/-- Settles O29: the shift by 0 is the whole period, so the target is below 8, and a shift of 0 updates no period. -/
theorem negateAtShiftZeroSilences : Obligations.NegateAtShiftZeroSilences := by
  unfold Obligations.NegateAtShiftZeroSilences
  intro c hneg hshift
  have htarget : sweepTarget c = if c.first = true then -1 else 0 := by
    rw [sweepTargetFormula c, if_pos hneg, hshift]
    split <;> simp
  refine ⟨htarget, ?_, ?_⟩
  · rw [sweepClock_silenced, sweepOutOfRange_iff, htarget]
    exact .inr (.inr (by split <;> decide))
  · rw [sweepClock_period, if_neg fun ⟨_, _, hne, _⟩ => hne hshift]

/-! ### The amplitudes (42_pulse.md R293, 43_triangle.md R336, 44_noise.md R377) -/

theorem envVolume_toNat (e : Envelope) :
    (envVolume e).toNat = if e.isConst = true then e.vol.toNat else e.decay.toNat :=
  apply_ite BitVec.toNat _ _ _

/-- Every look-up in a checked duty table gives the table's own value (R281). -/
theorem dutyOf_lookup {c : Cfg} (h : checkCfg c = none) (duty : BitVec 2) (phase : BitVec 3) :
    ∃ row, c.dutyTable[duty.toNat]? = some row ∧ row[phase.toNat]? = some (dutyOf c duty phase) := by
  obtain ⟨-, hshapes⟩ := checkCfg_ok h
  have hduty : duty.toNat < c.dutyTable.length := hshapes.duty ▸ duty.isLt
  obtain ⟨hrow, -⟩ := hshapes.duties _ (List.getElem_mem hduty)
  have hphase : phase.toNat < c.dutyTable[duty.toNat].length := hrow ▸ phase.isLt
  refine ⟨_, List.getElem?_eq_getElem hduty, ?_⟩
  rw [dutyOf, List.getD_eq_getElem _ _ hduty, List.getD_eq_getElem _ _ hphase, List.getElem?_eq_getElem hphase]

/-- Every look-up in a checked triangle table gives the table's own value (R331). -/
theorem triOf_lookup {c : Cfg} (h : checkCfg c = none) (phase : BitVec 5) :
    c.triTable[phase.toNat]? = some (triOf c phase) := by
  obtain ⟨-, hshapes⟩ := checkCfg_ok h
  have hphase : phase.toNat < c.triTable.length := hshapes.tri ▸ phase.isLt
  rw [triOf, List.getD_eq_getElem _ _ hphase, List.getElem?_eq_getElem hphase]

/-- The triangle's amplitude is an entry of its table or 0. -/
theorem triAmp_le {c : Cfg} (h : checkCfg c = none) (t : Triangle) : triAmp c t ≤ 15 := by
  unfold triAmp
  split
  · exact Nat.zero_le 15
  · exact (checkCfg_ok h).2.tris _ (List.mem_of_getElem? (triOf_lookup h t.phase))

/-- Settles O31: the values looked up are the tables' own, and a sounding envelope channel has its envelope's volume. -/
theorem channelAmplitudes : Obligations.ChannelAmplitudes := by
  unfold Obligations.ChannelAmplitudes
  intro c x y z hc
  obtain ⟨row, hrow, hbit⟩ := dutyOf_lookup hc x.duty x.phase
  simp only [← envVolume_toNat]
  exact ⟨⟨row, _, hrow, hbit, rfl⟩, ⟨_, triOf_lookup hc y.phase, rfl⟩, rfl, pulseAmp_le c x, triAmp_le hc y,
    noiseAmp_le z⟩

/-! ### The timers (42_pulse.md R288, 43_triangle.md R335, 44_noise.md R376, 45_frame_sequencer.md R401) -/

/-- A divider clock with a step from `x` to `y` where it fires. -/
theorem dividerClock_timerClocked {n : Nat} {α : Type} (d p : BitVec n) (x y : α) :
    let dv := dividerClock d p
    TimerClocked d p dv.1 ((if dv.2 then y else x) = y) ((if dv.2 then y else x) = x) where
  reload h := by simp [dividerClock, h]
  count h := by
    have hpos : d.toNat ≠ 0 := fun h0 => h (BitVec.eq_of_toNat_eq (by simpa using h0))
    have hidle : (dividerClock d p).2 = false := Bool.eq_false_of_not_eq_true ((dividerClock_fires d p).not.mpr hpos)
    refine ⟨?_, by simp [hidle]⟩
    rw [dividerClock_toNat, if_neg hpos]
    omega

section
variable (c : Cfg) (cyc fs : Nat)

/-- Of the clocks of a TICK only the timer moves a pulse channel's divider and phase. -/
theorem tickPulse_timer (x : Pulse) :
    let y := if cyc % 2 = 0 then pulseTimerClock x else x
    (tickPulse c cyc fs x).tdiv = y.tdiv ∧ (tickPulse c cyc fs x).phase = y.phase := by
  unfold tickPulse
  simp only
  split_ifs <;> exact ⟨rfl, rfl⟩

theorem linClock_timer (x : Triangle) : (linClock x).tdiv = x.tdiv ∧ (linClock x).phase = x.phase := by
  unfold linClock
  split_ifs <;> exact ⟨rfl, rfl⟩

/-- Of the clocks of a TICK only the timer moves the triangle's divider and phase. -/
theorem tickTri_timer (x : Triangle) :
    let y := if cyc % 2 = 0 then triTimerClock x else x
    (tickTri c cyc fs x).tdiv = y.tdiv ∧ (tickTri c cyc fs x).phase = y.phase := by
  unfold tickTri
  simp only
  split_ifs <;> simp only [linClock_timer, and_self]

/-- Of the clocks of a TICK only the timer moves the noise channel's divider. -/
theorem tickNoise_tdiv (x : Noise) :
    (tickNoise c cyc fs x).tdiv = (if cyc % 2 = 0 then noiseTimerClock x else x).tdiv := by
  unfold tickNoise
  simp only
  split_ifs <;> rfl

end

/-- Settles O33: a TICK moves the dividers by the timers' clocks alone, which are divider clocks on an even cycle count and
none on an odd one. (`Channels.`, since `timerClocks` is the model's function.) -/
theorem Channels.timerClocks : Obligations.TimerClocks := by
  unfold Obligations.TimerClocks
  intro s
  refine ⟨_, rfl, ?_⟩
  obtain ⟨div1, phase1⟩ := tickPulse_timer s.cfg (s.cyc + 1) (s.fs + 1) s.p1
  obtain ⟨div2, phase2⟩ := tickPulse_timer s.cfg (s.cyc + 1) (s.fs + 1) s.p2
  obtain ⟨divT, phaseT⟩ := tickTri_timer s.cfg (s.cyc + 1) (s.fs + 1) s.tri
  have divN := tickNoise_tdiv s.cfg (s.cyc + 1) (s.fs + 1) s.noise
  have lfsrN := tickNoise_lfsr s.cfg (s.cyc + 1) (s.fs + 1) s.noise
  simp only [update_p1, update_p2, update_tri, update_noise, tick_p1, tick_p2, tick_tri, tick_noise, State.withCyc_cfg,
    State.withCyc_cyc, State.withCyc_fs, State.withCyc_p1, State.withCyc_p2, State.withCyc_tri, State.withCyc_noise,
    div1, phase1, div2, phase2, divT, phaseT, divN, lfsrN]
  refine ⟨fun heven => ?_, fun hodd => ?_⟩
  · simp only [if_pos heven]
    exact ⟨dividerClock_timerClocked _ _ _ _, dividerClock_timerClocked _ _ _ _, dividerClock_timerClocked _ _ _ _,
      dividerClock_timerClocked _ _ _ _⟩
  · have hne : (s.cyc + 1) % 2 ≠ 0 := by omega
    simp only [if_neg hne, and_self]

end Sys2Proof.Machine

end PulseProofs


/-! ## The triangle channel: the writes and the linear counter (43_triangle.md) -/

section TriangleProofs

namespace Sys2Proof.Machine

/-! ### The register writes (43_triangle.md R332 to R334) -/

/-- A register write whose effect is on the triangle alone. -/
theorem apuWrite_withTri (f : Triangle → Triangle) (a : Addr) (d : Byte) (s : State) :
    let t := apuWrite a d (fun s => s.withTri (f s.tri)) s
    WriteFrame a d s t ∧ t.tri = f s.tri ∧ t.p1 = s.p1 ∧ t.p2 = s.p2 ∧ t.noise = s.noise :=
  ⟨apuWrite_writeFrame (channelEffect_withTri _) a d s, rfl, rfl, rfl, rfl⟩

/-- Settles O15: the word is a register write whose effect is on the triangle alone. -/
theorem triangleLinearWrite : Obligations.TriangleLinearWrite := by
  unfold Obligations.TriangleLinearWrite
  intro s d
  exact ⟨_, rfl, apuWrite_withTri (fun x => triWriteLinear x d) 0x4008#16 d s⟩

/-- Settles O16: the periods are `withPeriodLow` and `withPeriodHigh`, whose values are `withPeriodLow_toNat` and
`withPeriodHigh_toNat`; the length request is `lenRequest` by definition. -/
theorem trianglePeriodWrites : Obligations.TrianglePeriodWrites := by
  unfold Obligations.TrianglePeriodWrites
  intro s d
  obtain ⟨frameLo, triLo, restLo⟩ := apuWrite_withTri (fun x => triWriteLo x d) 0x400A#16 d s
  obtain ⟨frameHi, triHi, restHi⟩ := apuWrite_withTri (fun x => triWriteHi x d) 0x400B#16 d s
  exact ⟨⟨_, rfl, frameLo, ⟨_, withPeriodLow_toNat s.tri.period d, triLo⟩, restLo⟩,
    _, rfl, frameHi, ⟨_, withPeriodHigh_toNat s.tri.period d, triHi⟩, restHi⟩

/-! ### The linear counter (43_triangle.md R337, 45_frame_sequencer.md R403) -/

theorem linClock_value (x : Triangle) : (linClock x).lin.value = x.lin.value := by
  unfold linClock
  split_ifs <;> rfl

theorem linClock_of_reload {x : Triangle} (h : x.lin.reload = true) :
    linClock x = { x with lin := { x.lin with counter := x.lin.value, reload := x.control } } := if_pos h

/-- With the flag clear the counter counts down to 0 and the flag stays clear. -/
theorem linClock_of_no_reload {x : Triangle} (h : x.lin.reload = false) :
    (linClock x).lin.counter.toNat = x.lin.counter.toNat - 1 ∧ (linClock x).lin.reload = false := by
  by_cases hcounter : x.lin.counter = 0#7
  · simp [linClock, h, hcounter]
  · simp only [linClock, h, hcounter, Bool.false_eq_true, if_false, ne_eq, not_false_eq_true, if_true, and_true]
    bv_omega

/-- The linear counter's clock does not see the timer's. -/
theorem linClock_triTimerClock_lin (x : Triangle) : (linClock (triTimerClock x)).lin = (linClock x).lin := by
  have hlin : (triTimerClock x).lin = x.lin := rfl
  have hcontrol : (triTimerClock x).control = x.control := rfl
  unfold linClock
  rw [hlin, hcontrol]
  split_ifs <;> rfl

/-- A TICK moves the linear counter at a frame point only, by one clock. -/
theorem tickTri_lin (c : Cfg) (cyc fs : Nat) (x : Triangle) :
    (tickTri c cyc fs x).lin = if fs ∈ c.frameSteps then (linClock x).lin else x.lin := by
  have hlin : (triTimerClock x).lin = x.lin := rfl
  unfold tickTri
  simp only
  split_ifs <;> simp only [linClock_triTimerClock_lin, hlin]

theorem tickTri_control (c : Cfg) (cyc fs : Nat) (x : Triangle) :
    (tickTri c cyc fs x).control = x.control := by
  have hcontrol : (triTimerClock x).control = x.control := rfl
  unfold tickTri
  simp only
  split_ifs <;> simp only [linClock_control, hcontrol]

/-- Settles O35: at a frame point the tick's effect on the linear counter is one `linClock`, by the flag's two cases. -/
theorem linearCounterAtQuarterFrame : Obligations.LinearCounterAtQuarterFrame := by
  unfold Obligations.LinearCounterAtQuarterFrame
  intro s hfs
  refine ⟨_, rfl, ?_⟩
  have hlin := (tickTri_lin s.cfg (s.cyc + 1) (s.fs + 1) s.tri).trans (if_pos hfs)
  rw [update_tri, tick_tri]
  simp only [State.withCyc_cfg, State.withCyc_cyc, State.withCyc_fs, State.withCyc_tri, hlin]
  refine ⟨linClock_value s.tri, tickTri_control _ _ _ _, fun hset => ?_, linClock_of_no_reload⟩
  rw [linClock_of_reload hset]
  exact ⟨rfl, rfl⟩

end Sys2Proof.Machine

end TriangleProofs


/-! ## The noise channel: the writes and the shift register (44_noise.md) -/

section NoiseProofs

namespace Sys2Proof.Machine

/-! ### The register writes (44_noise.md R372, R373, R375) -/

/-- A register write whose effect is on the noise channel alone. -/
theorem apuWrite_withNoise (f : Cfg → Noise → Noise) (a : Addr) (d : Byte) (s : State) :
    let t := apuWrite a d (fun s => s.withNoise (f s.cfg s.noise)) s
    WriteFrame a d s t ∧ t.noise = f s.cfg s.noise ∧ t.p1 = s.p1 ∧ t.p2 = s.p2 ∧ t.tri = s.tri :=
  ⟨apuWrite_writeFrame (channelEffect_withNoise _) a d s, rfl, rfl, rfl, rfl⟩

/-- Settles O17: each word is a register write whose effect is on the noise channel alone; the length request is
`lenRequest` by definition. -/
theorem noiseControlAndLengthWrites : Obligations.NoiseControlAndLengthWrites := by
  unfold Obligations.NoiseControlAndLengthWrites
  intro s d
  exact ⟨⟨_, rfl, apuWrite_withNoise (fun _ x => noiseWriteCtrl x d) 0x400C#16 d s⟩,
    _, rfl, apuWrite_withNoise (fun _ x => noiseWriteLen x d) 0x400F#16 d s⟩

theorem rateField_toNat (d : Byte) : (rateField d).toNat = d.toNat % 16 := by
  simp [rateField]

/-- Settles O18: the new period is `noisePeriodOf`, which is the entry of the region's table by `noisePeriodOf_toNat`. -/
theorem noisePeriodWrite : Obligations.NoisePeriodWrite := by
  unfold Obligations.NoisePeriodWrite
  intro s d hcfg
  obtain ⟨frame, noise, rest⟩ := apuWrite_withNoise (fun cfg x => noiseWritePeriod cfg x d) 0x400E#16 d s
  have hentry := noisePeriodOf_toNat hcfg (rateField d)
  rw [rateField_toNat] at hentry
  exact ⟨_, rfl, frame, ⟨_, hentry, noise⟩, rest⟩

/-! ### The shift register (44_noise.md R374) -/

theorem lfsrAfter_eq_iterate (short : Bool) (k : Nat) (r : BitVec 15) :
    lfsrAfter short k r = (lfsrStep short)^[k] r := by
  induction k generalizing r with
  | zero => rfl
  | succ k ih => exact ih (lfsrStep short r)

/-- A return to the start is a period of the step, in Mathlib's sense. -/
theorem lfsrAfter_eq_self_iff (short : Bool) (k : Nat) (r : BitVec 15) :
    lfsrAfter short k r = r ↔ Function.IsPeriodicPt (lfsrStep short) k r := by
  rw [lfsrAfter_eq_iterate]
  rfl

theorem lfsrAfter_short_93 : lfsrAfter true 93 1#15 = 1#15 := by decide +kernel

theorem lfsrAfter_short_3_ne : lfsrAfter true 3 1#15 ≠ 1#15 := by decide

theorem lfsrAfter_short_31_ne : lfsrAfter true 31 1#15 ≠ 1#15 := by decide

/-- A proper divisor of 93 divides 3 or 31. -/
theorem dvd_three_or_dvd_thirtyOne {g : Nat} (hg : g ∣ 93) (hlt : g < 93) : g ∣ 3 ∨ g ∣ 31 := by
  have hdivisors : Nat.properDivisors 93 = {1, 3, 31} := by decide +kernel
  have hmem : g ∈ Nat.properDivisors 93 := Nat.mem_properDivisors.mpr ⟨hg, hlt⟩
  rw [hdivisors] at hmem
  fin_cases hmem <;> decide

/-- No earlier return: with 93 a period, one below 93 would make a proper divisor of 93 a period, and so 3 or 31. -/
theorem lfsrAfter_short_ne {k : Nat} (hpos : 0 < k) (hlt : k < 93) : lfsrAfter true k 1#15 ≠ 1#15 := by
  intro hk
  have h93 := (lfsrAfter_eq_self_iff _ _ _).mp lfsrAfter_short_93
  have hgcd := ((lfsrAfter_eq_self_iff _ _ _).mp hk).gcd h93
  have hgcd_lt : k.gcd 93 < 93 := (Nat.gcd_le_left 93 hpos).trans_lt hlt
  rcases dvd_three_or_dvd_thirtyOne (Nat.gcd_dvd_right k 93) hgcd_lt with h3 | h31
  · exact lfsrAfter_short_3_ne ((lfsrAfter_eq_self_iff _ _ _).mpr (hgcd.trans_dvd h3))
  · exact lfsrAfter_short_31_ne ((lfsrAfter_eq_self_iff _ _ _).mpr (hgcd.trans_dvd h31))

/-- Settles O30: the bits by `lfsrStep_getLsbD`, the nonzero register by `lfsrStep_ne_zero`, and the short period because
93 steps return to 1 and no fewer do. -/
theorem Channels.lfsrStep : Obligations.LfsrStep := by
  unfold Obligations.LfsrStep
  refine ⟨fun short r => ⟨fun i hi => ?_, ?_, lfsrStep_ne_zero short⟩, lfsrAfter_short_93,
    fun k => lfsrAfter_short_ne⟩
  · rw [lfsrStep_getLsbD short r (by omega), if_neg hi.ne]
  · exact lfsrStep_getLsbD short r (i := 14) (by decide)

end Sys2Proof.Machine

end NoiseProofs


/-! ## The master tick: the whole command (45_frame_sequencer.md) -/

section TickProofs

namespace Sys2Proof.Machine

/-- The sequencer advances and wraps whatever the cycle count becomes (45_frame_sequencer.md R402). -/
theorem tick_fs (s : State) (cyc : Nat) :
    (frameStage (timerStage (s.withCyc cyc))).fs = if s.fs + 1 = s.cfg.framePeriod then 0 else s.fs + 1 := by
  by_cases hwrap : s.fs + 1 = s.cfg.framePeriod <;> simp [frameStage_fs, hwrap]

/-- The timer and frame stages take no time. -/
theorem tick_now (s : State) : now (frameStage (timerStage s)) = now s := by
  rw [now, now, frameStage_cyc, timerStage_cyc, frameStage_cfg, timerStage_cfg]

/-- The stages before a tick's `Update()` append no event and keep the last amplitude, so the tick's one event is where the
new mixer output differs from the old last amplitude (46_mixer_events.md R441). -/
theorem tick_events (s : State) :
    (update (frameStage (timerStage s))).events
      = if mixNow (frameStage (timerStage s)) = s.lastAmp then s.events
        else s.events ++ [⟨now s, mixNow (frameStage (timerStage s))⟩] := by
  rw [update_events, tick_now, frameStage_events, timerStage_events, frameStage_lastAmp, timerStage_lastAmp]

/-- Settles O32: on the state with the new cycle count, the sequencer and the channel records after the two stages, then
`Update()`; no stage touches a field of the frame. -/
theorem tickCommand : Obligations.TickCommand := by
  unfold Obligations.TickCommand
  intro s
  refine ⟨_, rfl, by simp, (update_fs _).trans (tick_fs s _), ?_⟩
  rw [update_p1, update_p2, update_tri, update_noise, tick_p1, tick_p2, tick_tri, tick_noise, mixNow_update,
    update_lastAmp, tick_events]
  exact ⟨rfl, rfl, rfl, rfl, rfl, rfl, by simp⟩

end Sys2Proof.Machine

end TickProofs


/-! ## The mixer and the event stream: the mixer's shape and DRAIN (46_mixer_events.md) -/

section MixerProofs

namespace Sys2Proof.Machine

/-! ### The mixer (46_mixer_events.md R440, R442)

Both halves of `MIX` are one function of a nonnegative argument, free of the case at 0: the shape is its growth. -/

/-- The shape of a half of `MIX`: `c / (a / x + 100)`, continued to 0 at `x = 0`. -/
def mixHalf (c a x : Rat) : Rat := c * x / (a + 100 * x)

/-- The quotient R440 writes, with its case at 0. -/
theorem mixHalf_eq (c a x : Rat) : mixHalf c a x = if x = 0 then 0 else c / (a / x + 100) := by
  unfold mixHalf
  split
  next hx => simp [hx]
  next hx => rw [div_add' _ _ _ hx, div_div_eq_mul_div]

theorem mixHalf_strictMonoOn {c a : Rat} (hc : 0 < c) (ha : 0 < a) : StrictMonoOn (mixHalf c a) (Set.Ici 0) := by
  intro x (hx : 0 ≤ x) y (hy : 0 ≤ y) hxy
  have hcross : c * a * x < c * a * y := mul_lt_mul_of_pos_left hxy (mul_pos hc ha)
  unfold mixHalf
  rw [div_lt_div_iff₀ (by positivity) (by positivity)]
  linarith

theorem mixPulse_eq_mixHalf (ps : Nat) : mixPulse ps = mixHalf (2397 / 25) 8128 ps := by
  simp only [mixPulse, mixHalf_eq, Nat.cast_eq_zero]

theorem mix_eq_mixHalf (p1 p2 t n : Nat) :
    mix p1 p2 t n = mixPulse (p1 + p2) + mixHalf (15979 / 100) 1 (mixTnd t n) := by
  rw [mix, mixHalf_eq]

theorem mixPulse_strictMono : StrictMono mixPulse := by
  intro ps qs h
  simp only [mixPulse_eq_mixHalf]
  exact mixHalf_strictMonoOn (by norm_num) (by norm_num) (Set.mem_Ici.mpr ps.cast_nonneg)
    (Set.mem_Ici.mpr qs.cast_nonneg) (Nat.cast_lt.mpr h)

theorem mixHalf_tnd_strictMonoOn : StrictMonoOn (mixHalf (15979 / 100) 1) (Set.Ici 0) :=
  mixHalf_strictMonoOn (by norm_num) one_pos

theorem mixTnd_nonneg (t n : Nat) : 0 ≤ mixTnd t n := by
  unfold mixTnd
  positivity

theorem mixTnd_lt_succ_left (t n : Nat) : mixTnd t n < mixTnd (t + 1) n := by
  unfold mixTnd
  gcongr
  exact t.lt_succ_self

theorem mixTnd_lt_succ_right (t n : Nat) : mixTnd t n < mixTnd t (n + 1) := by
  unfold mixTnd
  gcongr
  exact n.lt_succ_self

theorem mixTnd_le_mixTnd {t t' n n' : Nat} (ht : t ≤ t') (hn : n ≤ n') : mixTnd t n ≤ mixTnd t' n' := by
  unfold mixTnd
  gcongr

/-- The mixer sees the pulse channels through their sum. -/
theorem mix_lt_of_pulse {p1 p2 q1 q2 : Nat} (t n : Nat) (h : p1 + p2 < q1 + q2) : mix p1 p2 t n < mix q1 q2 t n :=
  add_lt_add_left (mixPulse_strictMono h) _

/-- The mixer sees the triangle and the noise through `mixTnd`. -/
theorem mix_lt_of_mixTnd (p1 p2 : Nat) {t t' n n' : Nat} (h : mixTnd t n < mixTnd t' n') :
    mix p1 p2 t n < mix p1 p2 t' n' := by
  simp only [mix_eq_mixHalf]
  exact add_lt_add_right (mixHalf_tnd_strictMonoOn (mixTnd_nonneg t n) (mixTnd_nonneg t' n') h) _

theorem mix_le_mix {p1 q1 p2 q2 t t' n n' : Nat} (h1 : p1 ≤ q1) (h2 : p2 ≤ q2) (ht : t ≤ t') (hn : n ≤ n') :
    mix p1 p2 t n ≤ mix q1 q2 t' n' := by
  simp only [mix_eq_mixHalf]
  exact add_le_add (mixPulse_strictMono.monotone (Nat.add_le_add h1 h2))
    (mixHalf_tnd_strictMonoOn.monotoneOn (mixTnd_nonneg t n) (mixTnd_nonneg t' n') (mixTnd_le_mixTnd ht hn))

theorem mix_silence : mix 0 0 0 0 = 0 := by decide +kernel

theorem mix_maximum : mix 15 15 15 15 = 2309773763793 / 3655790228740 := by decide +kernel

/-- Settles O36: each half of the mixer grows strictly with its argument, and no amplitude exceeds 15. -/
theorem mixerShapeAndRange : Obligations.MixerShapeAndRange := by
  unfold Obligations.MixerShapeAndRange
  refine ⟨mix_silence, fun p1 p2 t n => ⟨rfl, mix_lt_of_pulse t n (by omega), mix_lt_of_pulse t n (by omega),
    mix_lt_of_mixTnd p1 p2 (mixTnd_lt_succ_left t n), mix_lt_of_mixTnd p1 p2 (mixTnd_lt_succ_right t n)⟩,
    fun s hc => ⟨?_, ?_⟩, mix_maximum⟩
  · exact mix_silence.symm.trans_le
      (mix_le_mix (Nat.zero_le _) (Nat.zero_le _) (Nat.zero_le _) (Nat.zero_le _))
  · exact (mix_le_mix (pulseAmp_le _ _) (pulseAmp_le _ _) (triAmp_le hc _) (noiseAmp_le _)).trans_eq mix_maximum

/-! ### DRAIN (46_mixer_events.md R443, R444) -/

/-- What DRAIN answers: the list is emptied and the result goes to the driver. -/
theorem exec_drain (s : State) :
    exec .drain s = .next (observe (.drained (drainResult s)) (latchEvents (drainResult s) (s.withEvents []))) := rfl

/-- An emptied stream drains to the synthetic event alone, at the same time and with the same last amplitude. -/
theorem drainResult_withEvents_nil (s : State) : drainResult (s.withEvents []) = [⟨now s, s.lastAmp⟩] := rfl

/-- Settles O37: DRAIN writes the event list and the host's side alone, so a second one returns what the emptied stream
drains to. -/
theorem drainCommand : Obligations.DrainCommand := by
  unfold Obligations.DrainCommand
  intro s
  exact ⟨_, exec_drain s, rfl, rfl, ⟨rfl, rfl, rfl, rfl⟩, rfl, rfl, rfl, rfl, rfl, rfl, rfl, rfl,
    _, exec_drain _, drainResult_withEvents_nil s⟩

end Sys2Proof.Machine

end MixerProofs

/-! ## The resampler (47_resampler.md) -/

section ResamplerProofs

namespace Sys2Proof.Machine

/-! ### Where an event is placed, and what it contributes (47_resampler.md R481 to R487) -/

theorem locate_t (c : Cfg) (time : Rat) : (locate c time).t = time * (c.sampleRate : Rat) := rfl

/-- The phase is rounded from a distance that is not negative, so its floor is a natural number (R483). -/
theorem locate_q (c : Cfg) (time : Rat) (hphases : 0 ≤ c.phaseCount) :
    ((locate c time).q : Int) = (|(locate c time).t - ((locate c time).c : Rat)| * (c.phaseCount : Rat) + 1 / 2).floor := by
  have hdist : 0 ≤ |(locate c time).t - ((locate c time).c : Rat)| * (c.phaseCount : Rat) :=
    mul_nonneg (abs_nonneg _) (Int.cast_nonneg hphases)
  have hfloor : 0 ≤ ⌊|(locate c time).t - ((locate c time).c : Rat)| * (c.phaseCount : Rat) + 1 / 2⌋ :=
    Int.floor_nonneg.mpr (by linarith)
  rw [← if_neg_eq_abs] at hfloor ⊢
  exact Int.toNat_of_nonneg hfloor

/-- Settles O38: centre and phase are rounded half up, so the centre is at most half a sample away and the phase, being
at most half an even `Pc` and a half, lies in the table. -/
theorem locateEvent : Obligations.LocateEvent := by
  unfold Obligations.LocateEvent
  intro c time hc pl f
  obtain ⟨hp, -⟩ := checkCfg_ok hc
  have hphases := hp.phases
  have heven := hp.even
  obtain ⟨hlow, hhigh⟩ : -(1 / 2) ≤ f ∧ f < 1 / 2 := floor_half pl.t
  have hq : (pl.q : Rat) = ((|f| * (c.phaseCount : Rat) + 1 / 2).floor : Rat) := by
    exact_mod_cast locate_q c time (by omega)
  have hround := floor_half (|f| * (c.phaseCount : Rat))
  rw [← hq] at hround
  have htable : 2 * (pl.q : Int) ≤ c.phaseCount + 1 := by
    have hdist : |f| * (c.phaseCount : Rat) ≤ 1 / 2 * (c.phaseCount : Rat) :=
      mul_le_mul_of_nonneg_right (abs_le.mpr ⟨hlow, hhigh.le⟩) (Int.cast_nonneg (by omega))
    have hle : 2 * (pl.q : Rat) ≤ (c.phaseCount : Rat) + 1 := by linarith [hround.1]
    exact_mod_cast hle
  have hmirror : pl.mirror = (decide (f < 0) && decide (0 < pl.q)) := rfl
  exact ⟨rfl, ⟨hlow, hhigh⟩, hround, by omega, by simp [hmirror]⟩

/-- The shares of a step over one row of the kernel sum to the step (R481). -/
theorem kernelShare_sum {c : Cfg} (hc : checkCfg c = none) (hk : kernelSumsToOne c) {p : Nat}
    (hp : 2 * (p : Int) ≤ c.phaseCount) (g : Nat → Rat) (w : Rat) :
    ((List.range (2 * c.radius).toNat).map (fun j => (kernelShare c p j w).value g)).sum = w * g 0 := by
  obtain ⟨params, shapes⟩ := checkCfg_ok hc
  cases hkernel : c.kernel with
  | none => exact kernelShare_sum_none g c hkernel params.radius p w
  | some rows =>
    have hshape := shapes.kernel
    simp only [kernelShapeOk, hkernel, Bool.and_eq_true, decide_eq_true_eq, List.all_eq_true] at hshape
    simp only [kernelSumsToOne, hkernel] at hk
    obtain ⟨hrows, hlength⟩ := hshape
    have hlt : p < rows.length := by omega
    have hmem : rows[p] ∈ rows := List.getElem_mem hlt
    have hrow := hlength _ hmem
    exact kernelShare_sum_some g c rows hkernel p rows[p] (List.getElem?_eq_getElem hlt) (by omega) (hk _ hmem) w

/-- A scattered window sums to its step (R481, R484). -/
theorem scatter_sum {c : Cfg} (hc : checkCfg c = none) (hk : kernelSumsToOne c) {q : Nat}
    (hq : 2 * (q : Int) ≤ c.phaseCount) (centre : Int) (mirror : Bool) (delta : Rat) (g : Nat → Rat) :
    ((scatter c centre q mirror delta).map (fun nw => nw.2.value g)).sum = delta * g 0 := by
  rw [← kernelShare_sum hc hk hq g delta, scatter, List.map_map]
  rfl

/-- Folding moves weights and keeps them (R485). -/
theorem foldAt_values (h : Nat) (l : List (Int × Sample)) (g : Nat → Rat) :
    (foldAt h l).map (fun nw => nw.2.value g) = l.map (fun nw => nw.2.value g) := by
  rw [foldAt, List.map_map]
  rfl

/-- The contributions of one event sum to its step, at and above the horizon. -/
theorem eventContribs_sum {c : Cfg} (hc : checkCfg c = none) (hk : kernelSumsToOne c) (h : Nat) (time delta : Rat)
    {g : Nat → Rat} (hg : g 0 = 1) :
    ((eventContribs c h (locate c time) delta).map (fun nw => nw.2.value g)).sum = delta := by
  obtain ⟨-, -, -, htable, -⟩ := locateEvent c time hc
  unfold eventContribs
  split
  · simp [hg]
  · rw [foldAt_values, scatter_sum hc hk htable, hg, mul_one]

theorem eventContribs_ge (c : Cfg) (h : Nat) (pl : Place) (delta : Rat) :
    ∀ nw ∈ eventContribs c h pl delta, h ≤ nw.1 := by
  unfold eventContribs
  split
  · simp
  · intro nw hnw
    obtain ⟨x, -, rfl⟩ := List.mem_map.mp hnw
    exact le_max_right _ _

/-- Settles O39: a late event is one hard step; another's window has a whole row of the kernel, and folding keeps every
weight. -/
theorem contributionsSumToStep : Obligations.ContributionsSumToStep := by
  unfold Obligations.ContributionsSumToStep
  intro c h time delta g hc hk hg
  exact ⟨eventContribs_sum hc hk h time delta hg, eventContribs_ge c h _ delta⟩

/-! ### PUSH (47_resampler.md R486) -/

theorem exec_push (s : State) :
    exec .push s = .next (setOperand .latched ((pushOperand s.host).foldl pushEvent s)) := rfl

/-- The list PUSH works on, as R143 gives it. -/
theorem pushOperand_eq (h : HostSide) :
    pushOperand h = match h.operand with
      | .events l => l
      | _ => h.lastDrain := by
  unfold pushOperand
  cases h.operand <;> rfl

theorem pushEvent_h (s : State) (e : Event) : (pushEvent s e).rs.h = s.rs.h := rfl

theorem pushedLists_cons (c : Cfg) (h : Nat) (b : Rat) (e : Event) (l : List Event) :
    pushedLists c h b (e :: l)
      = (if e.amp - b = 0 then [] else [eventContribs c h (locate c e.time) (e.amp - b)]) ++ pushedLists c h e.amp l := rfl

/-- The resampler after a pushed batch (R486). -/
theorem pushEvents_rs (l : List Event) (s : State) :
    (l.foldl pushEvent s).rs = { s.rs with
      baseline := (l.getLast?.map (fun e => e.amp)).getD s.rs.baseline
      pend := s.rs.pend ++ pushedLists s.cfg s.rs.h s.rs.baseline l } := by
  induction l generalizing s with
  | nil => simp [pushedLists]
  | cons e l ih =>
    have hbaseline : (l.getLast?.map (fun x => x.amp)).getD e.amp
        = ((e :: l).getLast?.map (fun x => x.amp)).getD s.rs.baseline := by
      cases hlast : l.getLast? <;> simp [List.getLast?_cons, hlast]
    rw [List.foldl_cons, ih, (pushEvent_sameAudio s e).cfg, pushEvent_rs, pushedLists_cons]
    simp only [hbaseline, Resampler.mk.injEq, true_and]
    split <;> simp

/-- The diagnostics after a pushed batch: each late event is counted (R486, R487). -/
theorem pushEvents_diag (l : List Event) (s : State) :
    (l.foldl pushEvent s).diag = { s.diag with late := s.diag.late + l.countP (isLate s.cfg s.rs.h) } := by
  induction l generalizing s with
  | nil => rfl
  | cons e l ih =>
    rw [List.foldl_cons, ih, (pushEvent_sameAudio s e).cfg, pushEvent_h, pushEvent_diag, List.countP_cons]
    simp only [Diag.mk.injEq, and_true]
    omega

/-- Settles O40: the batch's effect on the resampler and on the late count; the rest is the frame of a pushed event. -/
theorem pushCommand : Obligations.PushCommand := by
  unfold Obligations.PushCommand
  intro s l
  have hl : l = pushOperand s.host := (pushOperand_eq s.host).symm
  rw [hl]
  refine ⟨_, exec_push s, pushEvents_rs _ s, pushEvents_diag _ s, ?_, pushEvents_sink _ s, ?_⟩
  · exact sameAudio_trans (pushEvents_sameAudio _ s) (setOperand_sameBlock _ _).toSameAudio
  · rw [setOperand_host, pushEvents_host]

/-! ### RENDER (47_resampler.md R488 to R490, R492) -/

/-- Settles O44: running sums of a joined list go on from the last sum, and eviction takes no weight of a sample from
`m` on. -/
theorem renderInStages : Obligations.RenderInStages := by
  unfold Obligations.RenderInStages
  intro acc pend h m e hhm hme first
  have hevict : convolve m e (evict m pend) = convolve m e pend :=
    List.map_congr_left fun i _ => sumAt_evict (m + i) m (Nat.le_add_right m i) pend
  rw [convolve_split h m e pend hhm.le hme, runningSums_append, hevict]

/-- What RENDER answers: nothing of the block moves while `E ≤ H`, else the resampler advances (R488). -/
theorem exec_render_cases (s : State) :
    (renderEnd s ≤ (s.rs.h : Int) ∧ exec .render s = .next (observe (.rendered []) (latchSamples [] s)))
    ∨ ((s.rs.h : Int) < renderEnd s ∧ exec .render s = .next
        (observe (.rendered (renderSamples s)) (latchSamples (renderSamples s) (s.withRs (renderAdvance s))))) := by
  rcases le_or_gt (renderEnd s) (s.rs.h : Int) with h | h
  · exact .inl ⟨h, if_pos h⟩
  · exact .inr ⟨h, if_neg (not_le.mpr h)⟩

theorem renderSamples_length (s : State) : (renderSamples s).length = (renderEnd s).toNat - s.rs.h := by
  rw [renderSamples, runningSums_length, convolve_length]

/-- Sample `i` of a rendering: the accumulator and every weight at samples `H` to `H + i` (R488, R489). -/
theorem renderSamples_value (s : State) {i : Nat} {x : Sample} (hx : (renderSamples s)[i]? = some x) (g : Nat → Rat) :
    x.value g = s.rs.acc.value g
      + ((s.rs.pend.flatten.filter (fun nw => s.rs.h ≤ nw.1 ∧ nw.1 ≤ s.rs.h + i)).map (fun nw => nw.2.value g)).sum := by
  have hi : i < (renderEnd s).toNat - s.rs.h := by
    rw [← renderSamples_length]
    exact (List.getElem?_eq_some_iff.mp hx).1
  have htake : (convolve s.rs.h (renderEnd s).toNat s.rs.pend).take (i + 1)
      = (List.range (i + 1)).map (fun j => sumAt (s.rs.h + j) s.rs.pend) := by
    rw [convolve, ← List.map_take, List.take_range, Nat.min_eq_left hi]
  rw [runningSums_value g _ _ _ _ hx, htake, List.map_map]
  refine congrArg (s.rs.acc.value g + ·) ((sumAt_range_value g s.rs.h (i + 1) s.rs.pend).trans ?_)
  simp only [← Nat.add_assoc, Nat.lt_succ_iff]

/-- Settles O41: the two cases of RENDER; the samples are running sums of the convolved weights. -/
theorem renderCommand : Obligations.RenderCommand := by
  unfold Obligations.RenderCommand
  intro s
  rw [← renderEnd_eq]
  intro e
  rcases exec_render_cases s with ⟨he, hexec⟩ | ⟨he, hexec⟩
  · exact ⟨_, [], hexec, rfl, ⟨⟨rfl, rfl, rfl, rfl⟩, rfl, rfl, rfl, rfl, rfl, rfl⟩, rfl, rfl, rfl,
      fun _ => ⟨rfl, rfl⟩, fun hlt => absurd hlt (not_lt.mpr he)⟩
  · have hE : ((renderEnd s).toNat : Int) = renderEnd s := Int.toNat_of_nonneg (by omega)
    have hne : renderSamples s ≠ [] := by
      rw [← List.length_pos_iff, renderSamples_length]
      omega
    refine ⟨_, renderSamples s, hexec, rfl, ⟨⟨rfl, rfl, rfl, rfl⟩, rfl, rfl, rfl, rfl, rfl, rfl⟩, rfl, rfl, rfl,
      fun hle => absurd he (not_lt.mpr hle), fun _ => ⟨hE, ?_, ?_, ?_, fun i x hx g => renderSamples_value s hx g⟩⟩
    · rw [renderSamples_length]
      omega
    · show _ = some ((renderSamples s).getLastD s.rs.acc)
      rw [List.getLastD_eq_getLast?, List.getLast?_eq_some_getLast hne]
      rfl
    · show evict (renderEnd s).toNat s.rs.pend = _
      unfold evict
      simp only [Int.toNat_le]
      rfl

/-! ### What is returned and what is pending make up the baseline (47_resampler.md R491) -/

/-- The balance reads the resampler only. -/
theorem resamplerBalanced_of_rs_eq {s t : State} (h : t.rs = s.rs) (hs : ResamplerBalanced s) : ResamplerBalanced t := by
  unfold ResamplerBalanced
  rwa [h]

/-- A contribution list at and above the horizon is pending as a whole. -/
theorem pendingValue_singleton (g : Nat → Rat) {h : Nat} {l : List (Nat × Sample)} (hl : ∀ nw ∈ l, h ≤ nw.1) :
    pendingValue g h [l] = (l.map (fun nw => nw.2.value g)).sum := by
  have hall : l.filter (fun nw => h ≤ nw.1) = l := List.filter_eq_self.mpr fun nw hnw => decide_eq_true (hl nw hnw)
  rw [pendingValue, List.flatten_cons, List.flatten_nil, List.append_nil, hall]

/-- Contributions below the horizon are not pending. -/
theorem pendingValue_eq_zero (g : Nat → Rat) {h : Nat} {pend : List (List (Nat × Sample))}
    (hp : ∀ nw ∈ pend.flatten, nw.1 < h) : pendingValue g h pend = 0 := by
  have hnone : pend.flatten.filter (fun nw => h ≤ nw.1) = [] :=
    List.filter_eq_nil_iff.mpr fun nw hnw => by simpa using hp nw hnw
  rw [pendingValue, hnone]
  rfl

/-- A pushed event moves the baseline by its step, and its contributions sum to the step. -/
theorem pushEvent_balanced {s : State} (hc : checkCfg s.cfg = none) (hk : kernelSumsToOne s.cfg) (e : Event)
    (hs : ResamplerBalanced s) : ResamplerBalanced (pushEvent s e) := by
  intro g hg
  have hbalance := hs g hg
  rw [pushEvent_rs]
  simp only
  split
  · linarith
  · rw [pendingValue_append, pendingValue_singleton g (eventContribs_ge _ _ _ _), eventContribs_sum hc hk _ _ _ hg]
    linarith

theorem pushEvents_balanced {s : State} (hc : checkCfg s.cfg = none) (hk : kernelSumsToOne s.cfg) (l : List Event)
    (hs : ResamplerBalanced s) : ResamplerBalanced (l.foldl pushEvent s) := by
  induction l generalizing s with
  | nil => exact hs
  | cons e l ih =>
    have hcfg := (pushEvent_sameAudio s e).cfg
    exact ih (hcfg ▸ hc) (hcfg ▸ hk) (pushEvent_balanced hc hk e hs)

/-- A rendering takes into the accumulator exactly the weights that the horizon passes. -/
theorem renderAdvance_balanced {s : State} (hE : (s.rs.h : Int) < renderEnd s) (hs : ResamplerBalanced s) :
    ResamplerBalanced (s.withRs (renderAdvance s)) := by
  intro g hg
  have hbalance := hs g hg
  rw [pendingValue_advance g s.rs.h (renderEnd s).toNat (by omega)] at hbalance
  show ((renderSamples s).getLastD s.rs.acc).value g + pendingValue g (renderEnd s).toNat _ = s.rs.baseline
  rw [renderSamples, runningSums_last_value, add_assoc]
  exact hbalance

/-- Every command keeps the balance: only PUSH and RENDER touch the resampler. -/
theorem exec_balanced {i : Instr} {s t : State} (hc : checkCfg s.cfg = none) (hk : kernelSumsToOne s.cfg)
    (h : exec i s = .next t) (hs : ResamplerBalanced s) : ResamplerBalanced t := by
  by_cases hpush : i = .push
  · subst hpush
    obtain rfl := Host.Outcome.next.inj h
    exact resamplerBalanced_of_rs_eq (setOperand_rs _ _) (pushEvents_balanced hc hk _ hs)
  by_cases hrender : i = .render
  · subst hrender
    rcases exec_render_cases s with ⟨-, hexec⟩ | ⟨hE, hexec⟩ <;>
      obtain rfl := Host.Outcome.next.inj (h.symm.trans hexec)
    · exact resamplerBalanced_of_rs_eq rfl hs
    · exact resamplerBalanced_of_rs_eq rfl (renderAdvance_balanced hE hs)
  · exact resamplerBalanced_of_rs_eq (exec_rs h hpush hrender) hs

/-- What a step that runs no command does, the host's side of its turn apart: nothing, a step of the sink's agent, or the
mark of a refused word (48_sink.md R537, R538, 60_exceptions.md R605). -/
inductive AgentStep (s : State) : State → Prop where
  | pass : AgentStep s s
  | retry : AgentStep s (retryStep s)
  | underrun : AgentStep s (underrunStep s)
  | refuse : AgentStep s (refuseWord s)

/-- One step runs a command, or does what `AgentStep` lists, once its turn or its free choice is booked. -/
theorem step_command_or_agent {s t : State} (h : step s = .next t) :
    (∃ i op, exec i (setOperand (operandFor i op) (dropTurn s)) = .next t) ∨ ∃ x, AgentStep (s.withHost x) t := by
  unfold step at h
  split at h
  · obtain rfl := Host.Outcome.next.inj h
    unfold idleStep
    split_ifs
    · exact .inr ⟨_, .underrun⟩
    · exact .inr ⟨_, .retry⟩
    · exact .inr ⟨s.host, .underrun⟩
    · exact .inr ⟨s.host, .retry⟩
    · exact .inr ⟨s.host, .pass⟩
  · obtain rfl := Host.Outcome.next.inj h
    unfold offerRetry
    split
    · exact .inr ⟨_, .retry⟩
    · exact .inr ⟨_, .pass⟩
  · obtain rfl := Host.Outcome.next.inj h
    unfold offerUnderrun
    split
    · exact .inr ⟨_, .underrun⟩
    · exact .inr ⟨_, .pass⟩
  · split at h
    · exact .inl ⟨_, _, h⟩
    · obtain rfl := Host.Outcome.next.inj h
      exact .inr ⟨_, .refuse⟩

theorem agentStep_rs {s t : State} (h : AgentStep s t) : t.rs = s.rs := by
  cases h <;> rfl

/-- Settles O42: a step is a command, which keeps the balance, or a step that leaves the resampler. -/
theorem stepKeepsResamplerBalanced : Obligations.StepKeepsResamplerBalanced := by
  unfold Obligations.StepKeepsResamplerBalanced
  intro s t hc hk hs h
  rcases step_command_or_agent h with ⟨i, op, hexec⟩ | ⟨x, hagent⟩
  · exact exec_balanced (s := setOperand (operandFor i op) (dropTurn s)) hc hk hexec (resamplerBalanced_of_rs_eq rfl hs)
  · exact resamplerBalanced_of_rs_eq (agentStep_rs hagent) hs

/-! ### The round trip (47_resampler.md R491) -/

theorem ofCfg_balanced (c : Cfg) : ResamplerBalanced (State.ofCfg c) := fun _ _ => add_zero _

/-- Where nothing is pending, the accumulator is the baseline. -/
theorem acc_eq_baseline {s : State} (hs : ResamplerBalanced s) (hpast : ∀ nw ∈ s.rs.pend.flatten, nw.1 < s.rs.h)
    {g : Nat → Rat} (hg : g 0 = 1) : s.rs.acc.value g = s.rs.baseline := by
  have hbalance := hs g hg
  rwa [pendingValue_eq_zero g hpast, add_zero] at hbalance

/-- A list wholly below the new horizon is evicted (R490). -/
theorem evict_eq_nil {e : Nat} {pend : List (List (Nat × Sample))} (hp : ∀ nw ∈ pend.flatten, nw.1 < e) :
    evict e pend = [] := by
  refine List.filter_eq_nil_iff.mpr fun cl hcl hany => ?_
  obtain ⟨nw, hnw, hge⟩ := List.any_eq_true.mp hany
  have hlt := hp nw (List.mem_flatten.mpr ⟨cl, hcl, hnw⟩)
  exact absurd (of_decide_eq_true hge) (not_le.mpr hlt)

/-- A RENDER past every pending window leaves nothing pending and the baseline in the accumulator. -/
theorem render_past_windows {s : State} (hs : ResamplerBalanced s) (hE : (s.rs.h : Int) < renderEnd s)
    (hpast : ∀ nw ∈ s.rs.pend.flatten, (nw.1 : Int) < renderEnd s) :
    ∃ t, exec .render s = .next t ∧ t.rs.pend = [] ∧ t.rs.baseline = s.rs.baseline
      ∧ ∀ g : Nat → Rat, g 0 = 1 → t.rs.acc.value g = t.rs.baseline := by
  rcases exec_render_cases s with ⟨hle, -⟩ | ⟨-, hexec⟩
  · exact absurd hE (not_lt.mpr hle)
  · have hnil : evict (renderEnd s).toNat s.rs.pend = [] :=
      evict_eq_nil fun nw hnw => Int.lt_toNat.mpr (hpast nw hnw)
    refine ⟨_, hexec, hnil, rfl, fun g hg => acc_eq_baseline (renderAdvance_balanced hE hs) ?_ hg⟩
    show ∀ nw ∈ (evict (renderEnd s).toNat s.rs.pend).flatten, _
    rw [hnil]
    exact fun nw hnw => nomatch hnw

/-- No contribution of an event at a time from 0 on lies above `c + r` (R484). -/
theorem eventContribs_le {c : Cfg} (hr : 0 ≤ c.radius) {pl : Place} (hpl : 0 ≤ pl.c) (delta : Rat) :
    ∀ nw ∈ eventContribs c 0 pl delta, (nw.1 : Int) ≤ pl.c + c.radius := by
  unfold eventContribs
  split
  · intro nw hnw
    obtain rfl := List.mem_singleton.mp hnw
    simp only
    omega
  · intro nw hnw
    obtain ⟨x, hx, rfl⟩ := List.mem_map.mp hnw
    obtain ⟨j, hj, rfl⟩ := List.mem_map.mp hx
    have hj' := List.mem_range.mp hj
    simp only
    split <;> omega

theorem locate_c_nonneg {c : Cfg} (hrate : 0 ≤ c.sampleRate) {time : Rat} (ht : 0 ≤ time) : 0 ≤ (locate c time).c := by
  have hpos : 0 ≤ time * (c.sampleRate : Rat) := mul_nonneg ht (Int.cast_nonneg hrate)
  exact Int.floor_nonneg.mpr (by linarith : 0 ≤ time * (c.sampleRate : Rat) + 1 / 2)

/-- The batch of one event queues that event's contributions, if any. -/
theorem mem_pushedLists_singleton {c : Cfg} {h : Nat} {b : Rat} {e : Event} {nw : Nat × Sample}
    (hnw : nw ∈ (pushedLists c h b [e]).flatten) : nw ∈ eventContribs c h (locate c e.time) (e.amp - b) := by
  rw [pushedLists_cons] at hnw
  split at hnw
  · exact nomatch hnw
  · simpa [pushedLists] using hnw

/-- Settles O43: balance with nothing pending is the accumulator at the baseline; the one event's window ends at
`c + r`. -/
theorem roundTrip : Obligations.RoundTrip := by
  unfold Obligations.RoundTrip
  refine ⟨ofCfg_balanced, fun s hs hpast g hg => acc_eq_baseline hs hpast hg, fun s hs => ?_, ?_⟩
  · rw [← renderEnd_eq]
    exact fun hE hpast => render_past_windows hs hE hpast
  · intro s time delta hc hk hrs hoperand htime hend
    rw [← renderEnd_eq] at hend
    obtain ⟨params, -⟩ := checkCfg_ok hc
    have hradius := params.radius
    have hcentre := locate_c_nonneg params.rate.le htime
    have hfresh : ResamplerBalanced s := resamplerBalanced_of_rs_eq hrs (ofCfg_balanced s.cfg)
    obtain ⟨a, hpush, hars, -, haudio, -, -⟩ := pushCommand s
    rw [hrs, hoperand] at hars
    have hEa : renderEnd a = renderEnd s := by rw [renderEnd, renderEnd, haudio.cyc, haudio.cfg]
    have hpast : ∀ nw ∈ a.rs.pend.flatten, (nw.1 : Int) < renderEnd a := by
      intro nw hnw
      rw [hars] at hnw
      have hle := eventContribs_le (by omega) hcentre _ nw (mem_pushedLists_singleton hnw)
      omega
    obtain ⟨t, hrender, -, hbaseline, hacc⟩ := render_past_windows (exec_balanced hc hk hpush hfresh)
      (by rw [hars, hEa]; simp only; omega) hpast
    refine ⟨a, t, hpush, hrender, fun g hg => ?_⟩
    rw [hacc g hg, hbaseline, hars]
    rfl

/-! ### The kernel over the reals (47_resampler.md R481) -/

/-- Row 0 has phase 0, so its points lie at half-integer distances from `r` and the antiderivative is odd. -/
theorem kernelEntry_symmetric (r pc k : Nat) (hk : k < r) : kernelEntry r pc 0 (r - k) = kernelEntry r pc 0 (r + k) := by
  have hpoint (i : Nat) : kernelPoint r pc 0 i = lanczosIntegral r ((i : ℝ) - r - 1 / 2) := by
    rw [kernelPoint, Nat.cast_zero, zero_div, sub_zero]
  have hmirror (i j : Nat) (hij : i + j = 2 * r + 1) : kernelPoint r pc 0 i = -kernelPoint r pc 0 j := by
    have hcast : (i : ℝ) + j = 2 * r + 1 := by exact_mod_cast hij
    rw [hpoint, hpoint, ← lanczosIntegral_odd]
    congr 1
    linarith
  unfold kernelEntry
  rw [hmirror (r - k + 1) (r + k) (by omega), hmirror (r - k) (r + k + 1) (by omega)]
  congr 1
  ring

theorem kernelEntry_eq_step_sub (r pc p j : Nat) :
    kernelEntry r pc p j = kernelStep r pc p (j + 1) - kernelStep r pc p j := by
  unfold kernelEntry kernelStep
  rw [← sub_div]
  congr 1
  ring

/-- A formal step response stands for the running sum of its row: the two cases it resolves at once are true of the
reals. -/
theorem stepResponse_real {c : Cfg} (hc : CfgParams c) (given : Nat → ℝ) {p i : Nat} (w : Rat)
    (hi : (i : Int) ≤ 2 * c.radius)
    (hrow : kernelPoint c.radius.toNat c.phaseCount.toNat p (2 * c.radius.toNat)
      ≠ kernelPoint c.radius.toNat c.phaseCount.toNat p 0) :
    (stepResponse c p i w).real c given = (w : ℝ) * kernelStep c.radius.toNat c.phaseCount.toNat p i := by
  have hradius := hc.radius
  have hphases := hc.phases
  rw [Sample.real, stepResponse_value]
  congr 1
  split_ifs with hzero hlast
  · rcases hzero with rfl | ⟨hp, rfl⟩
    · simp [kernelStep]
    · have hpc : c.phaseCount.toNat = 2 * p := by omega
      rw [kernelStep, hpc, kernelPoint_last_row _ p (by omega), sub_self, zero_div]
  · have hi' : i = 2 * c.radius.toNat := by omega
    rw [hi', kernelValuation_zero, kernelStep, div_self (sub_ne_zero.mpr hrow)]
  · exact kernelValuation_step c given p i (by omega) (by omega)

/-- A formal share stands for `w · K[p][j]`. -/
theorem kernelShare_real {c : Cfg} (hc : CfgParams c) (hkernel : c.kernel = none) (given : Nat → ℝ) {p j : Nat} (w : Rat)
    (hj : (j : Int) < 2 * c.radius)
    (hrow : kernelPoint c.radius.toNat c.phaseCount.toNat p (2 * c.radius.toNat)
      ≠ kernelPoint c.radius.toNat c.phaseCount.toNat p 0) :
    (kernelShare c p j w).real c given = (w : ℝ) * kernelEntry c.radius.toNat c.phaseCount.toNat p j := by
  have hnext := stepResponse_real hc given (i := j + 1) w (by omega) hrow
  have hthis := stepResponse_real hc given (i := j) w (by omega) hrow
  unfold Sample.real at hnext hthis ⊢
  rw [kernelShare_value_none _ c hkernel, hnext, hthis, kernelEntry_eq_step_sub, mul_sub]

/-- Settles O58: oddness of the antiderivative, its constancy below the support, the formal step responses, and one given
sample for each real of a list. -/
theorem formalKernelIsTheKernel : Obligations.FormalKernelIsTheKernel := by
  unfold Obligations.FormalKernelIsTheKernel
  refine ⟨fun r pc k _ _ _ hk => kernelEntry_symmetric r pc k hk, fun r m _ hm => ?_, ?_, fun c l => ?_⟩
  · rw [kernelEntry, kernelPoint_last_row r m hm, sub_self, zero_div]
  · intro c given p j w hc hkernel _ hj hrow
    exact kernelShare_real (checkCfg_ok hc).1 hkernel given w hj hrow
  · refine ⟨(List.range l.length).map Sample.given, fun n => l.getD n 0, ?_⟩
    rw [List.map_map]
    exact (List.map_congr_left fun n _ => Sample.real_given c _ n).trans (map_getD_range l 0)

end Sys2Proof.Machine

end ResamplerProofs


/-! ## The sink (48_sink.md) -/

section SinkProofs

namespace Sys2Proof.Machine

/-! ### The device and STOP (48_sink.md R535, R536) -/

/-- Settles O50: the frames read are those of the `K` slots from `P` on, and the host gets them. -/
theorem deviceAdvanceCommand : Obligations.DeviceAdvanceCommand := by
  unfold Obligations.DeviceAdvanceCommand
  intro s k
  refine ⟨_, playedFrames s.cfg s.sink k.toNat, rfl, rfl, rfl, ?_, fun i hi => ?_,
    ⟨⟨rfl, rfl, rfl, rfl⟩, rfl, rfl, rfl, rfl, rfl, rfl⟩, rfl, rfl⟩
  · simp [playedFrames]
  · simp [playedFrames, hi]

/-- Settles O51: STOP writes the sink alone, and a slot of an empty buffer reads as silence. -/
theorem stopCommand : Obligations.StopCommand := by
  unfold Obligations.StopCommand
  intro s
  exact ⟨_, rfl, rfl, rfl, fun _ => rfl, rfl, rfl, rfl, rfl, rfl, ⟨⟨rfl, rfl, rfl, rfl⟩, rfl, rfl, rfl, rfl, rfl, rfl⟩,
    rfl, rfl, rfl⟩

/-! ### One commit (48_sink.md R531 to R533, R539) -/

/-- The frames a commit adds to those not yet played fit in the buffer, as the high watermark is at most `C` (R534). -/
theorem commitResult_fits {c : Cfg} (hc : CfgParams c) {q : List Request} {k k' : Sink} {n : Nat}
    (R : CommitResult c q k k' n) (hn : 0 < n) : n + (k.w - k.p) ≤ (capacity c).toNat := by
  have hhigh := hc.high
  have hroom : n ≤ (highWm c).toNat - (k.w - k.p) := R.count.trans_le (Nat.min_le_left _ _)
  omega

/-- The stream frames of a commit stand in their slots, and every other slot is as before (R531). -/
theorem commitResult_slots {c : Cfg} (hc : CfgParams c) {q : List Request} {k k' : Sink} {n : Nat}
    (R : CommitResult c q k k' n) :
    (∀ (i : Nat) (x : Sample), i < n → (q.flatMap (fun r => r.rem))[i]? = some x →
        slotRead k'.buf ((k.w + i) % (capacity c).toNat) = ⟨x, x⟩)
      ∧ ∀ slot, (∀ i, i < n → slot ≠ (k.w + i) % (capacity c).toNat) → slotRead k'.buf slot = slotRead k.buf slot := by
  have hlength : ((q.flatMap (fun r => r.rem)).take n).length = n := by
    rw [List.length_take, R.count]
    omega
  rw [R.buf]
  refine ⟨fun i x hi hx => ?_, fun slot hslot => ?_⟩
  · have hfits := commitResult_fits hc R (Nat.zero_lt_of_lt hi)
    refine putFrames_read _ _ _ _ (by omega) i x ?_
    rw [List.getElem?_take_of_lt hi, hx]
  · exact putFrames_read_other _ _ _ _ slot (hlength.symm ▸ hslot)

/-- Settles O47: `CommitResult` says all of it, from the sink that has caught up. -/
theorem commitSerializesRequests : Obligations.CommitSerializesRequests := by
  unfold Obligations.CommitSerializesRequests
  intro c k hc hq all w0 n k'
  obtain ⟨m, R⟩ := commit_result c k hq
  obtain rfl : m = n := R.count
  obtain ⟨hwritten, hother⟩ := commitResult_slots (checkCfg_ok hc).1 R
  obtain ⟨j, hcompleted, hrest, -⟩ := R.records
  refine ⟨R.w, R.p, R.nextId, R.rest, hwritten, hother, R.idle, fun hn => ?_, ⟨j, hcompleted, hrest⟩, R.head, R.counts⟩
  obtain ⟨harmed, hdeadline⟩ := R.armed hn
  exact ⟨harmed, hdeadline.trans (by rw [R.w])⟩

/-- Settles O48: an unplayed frame and a frame being committed are fewer than `C` apart, so they lie in different slots. -/
theorem commitKeepsUnplayedFrames : Obligations.CommitKeepsUnplayedFrames := by
  unfold Obligations.CommitKeepsUnplayedFrames
  intro c k i hc _ hplayed hcommitted
  rcases commit_cases c k with ⟨-, e⟩ | ⟨n, R⟩
  · rw [e]
  · have hparams := (checkCfg_ok hc).1
    refine (commitResult_slots hparams R).2 _ fun j hj => ?_
    have hfits := commitResult_fits hparams R (Nat.zero_lt_of_lt hj)
    simp only at hfits ⊢
    exact slot_ne (by omega) (by omega)

/-! ### SINKW (48_sink.md R530) -/

/-- The list SINKW works on, as R143 gives it. -/
theorem sinkOperand_eq (h : HostSide) :
    sinkOperand h = match h.operand with
      | .samples l => l
      | _ => h.lastRender := by
  unfold sinkOperand
  cases h.operand <;> rfl

/-- What SINKW does: the new request joins the queue, and only an idle sink commits (R530). -/
theorem exec_sinkw (s : State) :
    ∃ t, exec .sinkw s = .next t ∧ SameAudio s t ∧ t.rs = s.rs ∧ t.diag = s.diag
      ∧ t.host = { s.host with operand := .latched, trace := s.host.trace ++ [.sinkId s.sink.nextId] }
      ∧ t.sink = if s.sink.queue = [] then commit s.cfg (enqueue (sinkOperand s.host) s.sink)
          else enqueue (sinkOperand s.host) s.sink := by
  refine ⟨_, rfl, ⟨⟨rfl, rfl, rfl, rfl⟩, rfl, rfl, rfl, rfl, rfl, rfl⟩, rfl, rfl, rfl, ?_⟩
  simp only [← List.isEmpty_iff]
  rfl

/-- A commit over one request: it completes when all its samples fit, else it stays with the rest (R531). -/
theorem commitResult_single {c : Cfg} {r : Request} {k k' : Sink} {n : Nat} (R : CommitResult c [r] k k' n) :
    (n = r.rem.length → k'.queue = [] ∧ k'.completed = k.completed ++ [⟨r.id, .completed (r.done + n)⟩])
      ∧ (n < r.rem.length → k'.queue = [{ r with rem := r.rem.drop n, done := r.done + n }]
          ∧ k'.completed = k.completed) := by
  have hrest := R.rest
  obtain ⟨m, hcompleted, -, ⟨hdrop, hqueue⟩ | ⟨r', l, j, hdrop, hqueue⟩⟩ := R.records
  · have htake : [r].take m = [r] := List.take_of_length_le (List.drop_eq_nil_iff.mp hdrop)
    have hfits : r.rem.length ≤ n := by simpa [hqueue] using hrest
    rw [htake] at hcompleted
    exact ⟨fun hn => ⟨hqueue, hn ▸ hcompleted⟩, fun hn => absurd hfits (not_le.mpr hn)⟩
  · have hm : m = 0 := by
      have hlength := congrArg List.length hdrop
      simp only [List.length_drop, List.length_cons, List.length_nil] at hlength
      omega
    subst hm
    obtain ⟨rfl, rfl⟩ := List.cons.inj hdrop
    have hhead : r.rem.drop j ≠ [] := R.head _ _ hqueue
    have hleft : r.rem.length - j = r.rem.length - n := by
      simpa [hqueue] using congrArg List.length hrest
    have hj : j < r.rem.length := by simpa using hhead
    obtain rfl : j = n := by omega
    exact ⟨fun hn => absurd hn hj.ne, fun _ => ⟨hqueue, by simpa using hcompleted⟩⟩

/-- Settles O46: a busy sink only queues; on an idle sink the commit serves the one request. -/
theorem sinkWriteCommand : Obligations.SinkWriteCommand := by
  unfold Obligations.SinkWriteCommand
  intro s hc k l w0 n
  have hl : sinkOperand s.host = l := sinkOperand_eq s.host
  obtain ⟨t, hexec, haudio, hrs, hdiag, hhost, hsink⟩ := exec_sinkw s
  rw [hl] at hsink
  refine ⟨t, hexec, haudio, hrs, hdiag, hhost, fun hq => ?_, fun hq => ?_⟩
  · rw [hsink, if_neg hq]
    rfl
  · rw [if_pos hq] at hsink
    have hqueue : (enqueue l s.sink).queue
        = [⟨s.sink.nextId, l.length, l, 0⟩] := by
      rw [enqueue, hq, List.nil_append]
    obtain ⟨m, R⟩ := commit_result s.cfg (enqueue l s.sink) (by rw [hqueue]; exact List.cons_ne_nil _ _)
    rw [hqueue, ← hsink] at R
    have hcount := R.count
    simp only [List.flatMap_cons, List.flatMap_nil, List.append_nil] at hcount
    obtain rfl : m = n := hcount
    obtain ⟨hfits, hdeferred⟩ := commitResult_single R
    obtain ⟨hwritten, hother⟩ := commitResult_slots (checkCfg_ok hc).1 R
    simp only [List.flatMap_cons, List.flatMap_nil, List.append_nil] at hwritten
    simp only [Nat.zero_add] at hfits hdeferred
    exact ⟨R.w, R.p, R.nextId, hfits, hdeferred, R.idle, R.armed, hwritten, hother⟩

/-! ### The sink's agent (48_sink.md R537, R538, R540) -/

theorem underrunEnabled_iff (s : State) :
    underrunEnabled s = true ↔ s.sink.wdArmed = true ∧ s.sink.wdDeadline ≤ s.sink.p := by
  simp [underrunEnabled]

/-- The step on a schedule that begins with a turn is that of the turn put in front of the rest. -/
theorem step_of_turns {s : State} {tn : Turn} {rest : List Turn} (h : s.host.turns = tn :: rest) :
    step s = step ((s.withHost { s.host with turns := rest }).withTurn tn) := by
  rw [withHost_rest_withTurn h]

/-- Settles O9: a turn offered to the agent is tried on the state with the turn taken off. -/
theorem sinkAgentTurns : Obligations.SinkAgentTurns := by
  unfold Obligations.SinkAgentTurns
  intro s rest
  refine ⟨fun hturns => ?_, fun hturns => ?_⟩ <;> rw [step_of_turns hturns, step_withTurn] <;> intro s0
  · exact congrArg _ (if_congr (retryEnabled_iff s0) rfl rfl)
  · exact congrArg _ (if_congr (underrunEnabled_iff s0) rfl rfl)

/-- An enabled RETRY commits what fits between the watermarks, or all of the head (R537). -/
theorem retryStep_w {s : State} {r : Request} {rest : List Request} (hc : CfgParams s.cfg)
    (hq : s.sink.queue = r :: rest) (h : retryEnabled s = true) :
    max s.sink.w s.sink.p + min ((highWm s.cfg).toNat - (lowWm s.cfg).toNat) r.rem.length ≤ (retryStep s).sink.w := by
  obtain ⟨hne, hlow⟩ := (retryEnabled_iff s).mp h
  obtain ⟨n, R⟩ := commit_result s.cfg s.sink hne
  have hw : (retryStep s).sink.w = max s.sink.w s.sink.p + n := R.w
  have hcount := R.count
  rw [hq, List.flatMap_cons, List.length_append] at hcount
  have hlow0 := hc.low
  unfold fullness at hlow
  simp only at hcount
  omega

/-- An enabled RETRY commits at least one frame. -/
theorem retryStep_w_lt {s : State} {r : Request} {rest : List Request} (hc : CfgParams s.cfg)
    (hq : s.sink.queue = r :: rest) (hr : r.rem ≠ []) (h : retryEnabled s = true) :
    max s.sink.w s.sink.p < (retryStep s).sink.w := by
  have hcommitted := retryStep_w hc hq h
  have hpos := List.length_pos_iff.mpr hr
  have hlow := hc.low
  have hlowHigh := hc.lowHigh
  omega

theorem queued_of_mem {k : Sink} {r : Request} (h : r ∈ k.queue) : ∃ bound, Queued k r.id r.len bound := by
  obtain ⟨a, b, hq⟩ := List.append_of_mem h
  exact ⟨_, a, b, r, hq, rfl, rfl, le_rfl⟩

theorem queued_ne_nil {k : Sink} {id len bound : Nat} (h : Queued k id len bound) : k.queue ≠ [] := by
  obtain ⟨a, b, r, hq, -⟩ := h
  simp [hq]

/-- Once enabled, RETRY stays enabled until it runs or a STOP is issued (R537). -/
theorem retryEnabled_kept {s t : State} {tn : Turn} (h : retryEnabled s = true) (hretry : tn ≠ .retry)
    (hstop : ¬tn.runs .stop) (hstep : step (s.withTurn tn) = .next t) : retryEnabled t = true := by
  obtain ⟨hne, hlow⟩ := (retryEnabled_iff s).mp h
  obtain ⟨r, hr⟩ := List.exists_mem_of_ne_nil _ hne
  obtain ⟨bound, hqueued⟩ := queued_of_mem hr
  obtain ⟨hkept, hfull⟩ := queued_kept s t tn r.id r.len bound hstep hstop (fun hr => hretry hr.1) hqueued
  refine (retryEnabled_iff t).mpr ⟨queued_ne_nil hkept, ?_⟩
  rw [(step_withTurn_sink s t tn hstep).1]
  omega

/-- A queued request has samples to commit before its end, since the queue's head has. -/
theorem queued_bound_pos {k : Sink} {id len bound : Nat} (hdeferred : HeadDeferred k) (h : Queued k id len bound) :
    0 < bound := by
  obtain ⟨a, b, r, hq, -, -, hbound⟩ := h
  refine lt_of_lt_of_le ?_ hbound
  cases a with
  | nil =>
    have hlength := List.length_pos_iff.mpr (hdeferred r b hq)
    rw [List.nil_append, pendingSamples_cons]
    omega
  | cons x a =>
    have hlength := List.length_pos_iff.mpr (hdeferred x _ hq)
    rw [List.cons_append, pendingSamples_cons]
    omega

/-- The device advances towards the committed end (R536). -/
theorem devadv_fullness {s t : State} {tn : Turn} {k : BitVec 24} (h : tn.runs (.devadv k))
    (hstep : step (s.withTurn tn) = .next t) : fullness t.sink = fullness s.sink - k.toNat := by
  obtain ⟨w, op, rfl, hdecode⟩ := h
  rw [step_withTurn_command s op hdecode] at hstep
  obtain rfl := Host.Outcome.next.inj hstep
  exact Nat.sub_add_eq _ _ _

/-- The step of an enabled RETRY turn is a commit. -/
theorem step_withTurn_retry {s t : State} (h : retryEnabled s = true) (hstep : step (s.withTurn .retry) = .next t) :
    t = retryStep s := by
  rw [step_withTurn, offerRetry, if_pos h] at hstep
  exact (Host.Outcome.next.inj hstep).symm

/-- A SINKW turn completes its request at once or leaves it queued (R530). -/
theorem step_withTurn_sinkw {s t : State} {w : Word} {op : Operand} {l : List Sample} (hs : SinkAccounted s.cfg s.sink)
    (hl : sinkOperand { s.host with operand := operandFor .sinkw op } = l) (hdecode : decode w = .ok .sinkw)
    (hstep : step (s.withTurn (.command w op)) = .next t) :
    (⟨s.sink.nextId, .completed l.length⟩ : Completion) ∈ t.sink.completed
      ∨ ∃ bound, Queued t.sink s.sink.nextId l.length bound := by
  rw [step_withTurn_command s op hdecode] at hstep
  obtain ⟨t', hexec, -, -, -, -, hsink⟩ := exec_sinkw (setOperand (operandFor .sinkw op) s)
  obtain rfl := Host.Outcome.next.inj (hexec.symm.trans hstep)
  rw [setOperand_sink, setOperand_host, setOperand_cfg, hl] at hsink
  obtain ⟨bound, hqueued⟩ : ∃ bound, Queued (enqueue l s.sink) s.sink.nextId l.length bound :=
    queued_of_mem (r := ⟨s.sink.nextId, l.length, l, 0⟩) (List.mem_append_right _ List.mem_cons_self)
  rw [hsink]
  split
  · exact (commit_queued s.cfg _ _ _ bound (enqueue_accounted l hs).counts hqueued).imp_right fun h => ⟨_, h⟩
  · exact .inr ⟨bound, hqueued⟩

/-! An endless run (R540): the device drains the buffer, so RETRY is enabled and runs again and again, and each run of it
brings a queued request nearer to its end. -/

section EndlessRun

variable {turn : Nat → Turn} {σ : Nat → State}

theorem withTurn_invariant {s : State} (tn : Turn) (h : Invariant s) : Invariant (s.withTurn tn) := by
  obtain ⟨hoperand, hblock⟩ := (invariant_iff s).mp h
  exact (invariant_iff _).mpr ⟨hoperand, withHost_blockInvariant _ hblock⟩

theorem run_invariant (hrun : IsRun turn σ) (h0 : Invariant (σ 0)) (n : Nat) : Invariant (σ n) := by
  induction n with
  | zero => exact h0
  | succ n ih => exact stepKeepsInvariant _ _ (withTurn_invariant (turn n) ih) (hrun n)

/-- Turn `m` of the run is an enabled RETRY. -/
def RetryRuns (turn : Nat → Turn) (σ : Nat → State) (m : Nat) : Prop := turn m = .retry ∧ retryEnabled (σ m) = true

/-- Until RETRY runs, a queued request stays queued and the fullness does not rise. -/
theorem queued_until_retry (hrun : IsRun turn σ) (hstop : NeverStopped turn) {n m id len bound : Nat} (hnm : n ≤ m)
    (hnone : ∀ j, n ≤ j → j < m → ¬RetryRuns turn σ j) (hq : Queued (σ n).sink id len bound) :
    Queued (σ m).sink id len bound ∧ fullness (σ m).sink ≤ fullness (σ n).sink := by
  induction m, hnm using Nat.le_induction with
  | base => exact ⟨hq, le_rfl⟩
  | succ m hnm ih =>
    obtain ⟨hqueued, hfull⟩ := ih fun j hnj hjm => hnone j hnj (Nat.lt_succ_of_lt hjm)
    obtain ⟨hqueued', hfull'⟩ := queued_kept _ _ _ id len bound (hrun m) (hstop m) (hnone m hnm (Nat.lt_succ_self m)) hqueued
    exact ⟨hqueued', hfull'.trans hfull⟩

/-- While RETRY does not run, the device plays out all that is committed. -/
theorem buffer_drains (hrun : IsRun turn σ) (hstop : NeverStopped turn) (hadvance : DeviceAdvances turn)
    {id len bound : Nat} (f n : Nat) (hf : fullness (σ n).sink ≤ f) (hnone : ∀ j, n ≤ j → ¬RetryRuns turn σ j)
    (hq : Queued (σ n).sink id len bound) : ∃ m, n ≤ m ∧ fullness (σ m).sink = 0 := by
  induction f generalizing n with
  | zero => exact ⟨n, le_rfl, Nat.le_zero.mp hf⟩
  | succ f ih =>
    obtain ⟨m, k, hnm, hk, hdevadv⟩ := hadvance n
    obtain ⟨-, hfull⟩ := queued_until_retry hrun hstop hnm (fun j hj _ => hnone j hj) hq
    obtain ⟨hqueued, -⟩ := queued_until_retry hrun hstop (Nat.le_succ_of_le hnm) (fun j hj _ => hnone j hj) hq
    have hplayed := devadv_fullness hdevadv (hrun m)
    obtain ⟨m', hm', hempty⟩ := ih (m + 1) (by omega) (fun j hj => hnone j (by omega)) hqueued
    exact ⟨m', by omega, hempty⟩

/-- With a request queued, RETRY runs some time: once the buffer has drained it stays enabled, and the agent is fair. -/
theorem retry_runs (hrun : IsRun turn σ) (h0 : Invariant (σ 0)) (hstop : NeverStopped turn)
    (hadvance : DeviceAdvances turn) (hfair : SinkAgentFair turn σ) {n id len bound : Nat}
    (hq : Queued (σ n).sink id len bound) : ∃ m, n ≤ m ∧ RetryRuns turn σ m := by
  by_contra hnever
  have hnone : ∀ j, n ≤ j → ¬RetryRuns turn σ j := fun j hj hr => hnever ⟨j, hj, hr⟩
  obtain ⟨m, hnm, hempty⟩ := buffer_drains hrun hstop hadvance _ n le_rfl hnone hq
  obtain ⟨hqm, -⟩ := queued_until_retry hrun hstop hnm (fun j hj _ => hnone j hj) hq
  have henabled : ∀ j, m ≤ j → retryEnabled (σ j) = true := fun j hj => by
    obtain ⟨hqj, hfull⟩ := queued_until_retry hrun hstop hj (fun i hi _ => hnone i (hnm.trans hi)) hqm
    have hlow := (checkCfg_ok (run_invariant hrun h0 j).cfg).1.low
    exact (retryEnabled_iff _).mpr ⟨queued_ne_nil hqj, by omega⟩
  obtain ⟨j, hmj, hturn⟩ := hfair.retry m henabled
  exact hnone j (hnm.trans hmj) ⟨hturn, henabled j hmj⟩

/-- The first RETRY that runs finds the request still as near to its end. -/
theorem retry_reaches_queued (hrun : IsRun turn σ) (h0 : Invariant (σ 0)) (hstop : NeverStopped turn)
    (hadvance : DeviceAdvances turn) (hfair : SinkAgentFair turn σ) {n id len bound : Nat}
    (hq : Queued (σ n).sink id len bound) : ∃ m, n ≤ m ∧ RetryRuns turn σ m ∧ Queued (σ m).sink id len bound := by
  classical
  have hexists := retry_runs hrun h0 hstop hadvance hfair hq
  obtain ⟨hnm, hruns⟩ := Nat.find_spec hexists
  refine ⟨Nat.find hexists, hnm, hruns, (queued_until_retry hrun hstop hnm (fun j hnj hj hr => ?_) hq).1⟩
  exact Nat.find_min hexists hj ⟨hnj, hr⟩

/-- A queued request is completed in the end, by induction on the samples to commit up to its end. -/
theorem queued_completes (hrun : IsRun turn σ) (h0 : Invariant (σ 0)) (hstop : NeverStopped turn)
    (hadvance : DeviceAdvances turn) (hfair : SinkAgentFair turn σ) {id len : Nat} (bound n : Nat)
    (hq : Queued (σ n).sink id len bound) :
    ∃ m, n ≤ m ∧ (⟨id, .completed len⟩ : Completion) ∈ (σ m).sink.completed := by
  induction bound using Nat.strong_induction_on generalizing n with
  | _ bound ih =>
    obtain ⟨m, hnm, ⟨hturn, henabled⟩, hqm⟩ := retry_reaches_queued hrun h0 hstop hadvance hfair hq
    have hinv := run_invariant hrun h0 m
    have hstep := hrun m
    rw [hturn] at hstep
    have hnext : (σ (m + 1)).sink = commit (σ m).cfg (σ m).sink := by
      rw [step_withTurn_retry henabled hstep]
      rfl
    rcases commit_queued (σ m).cfg (σ m).sink id len bound hinv.sink.counts hqm with hdone | hnearer
    · exact ⟨m + 1, by omega, hnext ▸ hdone⟩
    · obtain ⟨r, rest, hqueue⟩ := List.exists_cons_of_ne_nil (queued_ne_nil hqm)
      have hcommitted : max (σ m).sink.w (σ m).sink.p < (commit (σ m).cfg (σ m).sink).w :=
        retryStep_w_lt (checkCfg_ok hinv.cfg).1 hqueue (hinv.sink.deferred r rest hqueue) henabled
      have hpos := queued_bound_pos hinv.sink.deferred hqm
      rw [← hnext] at hcommitted hnearer
      obtain ⟨m', hm', hdone⟩ := ih _ (by omega) (m + 1) hnearer
      exact ⟨m', by omega, hdone⟩

end EndlessRun

/-- Settles O49: the frames one RETRY commits, its enabling kept by every other turn, and on an endless run every queued
request completed; a SINKW completes its request at once or queues it. -/
theorem retryMakesProgress : Obligations.RetryMakesProgress := by
  unfold Obligations.RetryMakesProgress
  refine ⟨fun s r rest hc hq hr h => ?_, fun s t tn h hretry hstop hstep => retryEnabled_kept h hretry hstop hstep, ?_⟩
  · have hparams := (checkCfg_ok hc).1
    exact ⟨retryStep_w hparams hq h, retryStep_w_lt hparams hq hr h⟩
  · intro turn σ h0 hrun hadvance hfair hstop
    have hcompletes {id len : Nat} := queued_completes (id := id) (len := len) hrun h0 hstop hadvance hfair
    refine ⟨fun n r hr => ?_, fun n w op hturn hdecode => ?_⟩
    · obtain ⟨bound, hq⟩ := queued_of_mem hr
      exact hcompletes bound n hq
    · intro l
      have hl : sinkOperand { (σ n).host with operand := operandFor .sinkw op } = l := by
        rw [sinkOperand_eq]
        cases op <;> rfl
      obtain ⟨-, -, -, hsink⟩ := (invariant_iff _).mp (run_invariant hrun h0 n)
      have hstep := hrun n
      rw [hturn] at hstep
      rcases step_withTurn_sinkw hsink.accounted hl hdecode hstep with hdone | ⟨bound, hq⟩
      · exact ⟨n + 1, Nat.lt_succ_self n, hdone⟩
      · exact hcompletes bound (n + 1) hq

end Sys2Proof.Machine

end SinkProofs


/-! ## The exceptions: construction checks, refused words, steps that answer (60_exceptions.md) -/

section ExceptionProofs

namespace Sys2Proof.Machine

/-! ### The construction checks (60_exceptions.md R600) -/

theorem construct_eq_error {c : Cfg} {k : Condition} : construct c = .error k ↔ checkCfg c = some k := by
  unfold construct
  cases checkCfg c <;> simp

/-- The first check that fails, by the three checks in their order. -/
theorem checkCfg_eq (c : Cfg) :
    checkCfg c = if c.phaseCount % 2 = 1 then some .configOddPhaseCount
      else if paramsOk c = false then some .configBadParam
      else if shapesOk c = false then some .configNonRectangular
      else none := by
  have hodd : c.phaseCount % 2 ≠ 0 ↔ c.phaseCount % 2 = 1 := by omega
  unfold checkCfg
  simp only [hodd, Bool.not_eq_true']

theorem strictlyIncreasing_iff (l : List Nat) : strictlyIncreasing l = true ↔ l.Pairwise (· < ·) := by
  rw [← List.isChain_iff_pairwise]
  induction l using strictlyIncreasing.induct with
  | case1 => simp [strictlyIncreasing]
  | case2 x => simp [strictlyIncreasing]
  | case3 x y t ih => rw [strictlyIncreasing, List.isChain_cons_cons, ← ih, Bool.and_eq_true, decide_eq_true_eq]

theorem frameStepsOk_iff (c : Cfg) :
    frameStepsOk c = true ↔ (c.frameSteps.length = 4 ∧ c.frameSteps.Pairwise (· < ·)
      ∧ ∀ n ∈ c.frameSteps, 1 ≤ n ∧ n ≤ c.framePeriod) ∧ ∀ n ∈ c.halfSteps, n ∈ c.frameSteps := by
  simp only [frameStepsOk, Bool.and_eq_true, beq_iff_eq, strictlyIncreasing_iff, List.all_eq_true, decide_eq_true_eq,
    List.contains_iff_mem, and_assoc]

theorem paramsOk_iff (c : Cfg) :
    paramsOk c = true ↔ 1 ≤ c.radius ∧ 2 ≤ c.phaseCount ∧ 0 < c.sampleRate ∧ 0 < c.clockHz
      ∧ (c.frameSteps.length = 4 ∧ c.frameSteps.Pairwise (· < ·) ∧ ∀ n ∈ c.frameSteps, 1 ≤ n ∧ n ≤ c.framePeriod)
      ∧ (∀ n ∈ c.halfSteps, n ∈ c.frameSteps)
      ∧ 1 ≤ capacity c ∧ (0 ≤ lowWm c ∧ lowWm c < highWm c ∧ highWm c ≤ capacity c) ∧ 0 ≤ c.underrunGrace
      ∧ ∀ n ∈ c.noiseNtsc ++ c.noisePal, n ≤ 4095 := by
  simp only [paramsOk, sinkGeometryOk, Bool.and_eq_true, frameStepsOk_iff, List.all_eq_true, decide_eq_true_eq, and_assoc]

theorem kernelShapeOk_iff (c : Cfg) :
    kernelShapeOk c = true ↔ ∀ rows, c.kernel = some rows →
      (rows.length : Int) = c.phaseCount / 2 + 1 ∧ ∀ row ∈ rows, (row.length : Int) = 2 * c.radius := by
  unfold kernelShapeOk
  cases c.kernel <;> simp

theorem shapesOk_iff (c : Cfg) :
    shapesOk c = true ↔ kernelShapeOk c = true ∧ (c.lengthTable.length = 32 ∧ ∀ n ∈ c.lengthTable, n ≤ 254)
      ∧ (c.dutyTable.length = 4 ∧ ∀ row ∈ c.dutyTable, row.length = 8 ∧ ∀ n ∈ row, n ≤ 1)
      ∧ (c.triTable.length = 32 ∧ ∀ n ∈ c.triTable, n ≤ 15)
      ∧ (c.noiseNtsc.length = 16 ∧ c.noisePal.length = 16) := by
  simp only [shapesOk, Bool.and_eq_true, beq_iff_eq, List.all_eq_true, decide_eq_true_eq, and_assoc]

/-- Settles O53: the checks of row 2 and row 3 pass exactly when none of their conditions holds, and they are made in
order. -/
theorem constructionChecks : Obligations.ConstructionChecks := by
  unfold Obligations.ConstructionChecks
  intro c cap hwm lwm bad shape
  have hparams : paramsOk c = false ↔ bad := by
    rw [← Bool.not_eq_true, paramsOk_iff, ← not_iff_comm]
    simp only [bad, ↓not_or, ↓not_not, ↓not_exists, ↓not_and, not_lt, not_le]
    rfl
  have hshapes : shapesOk c = false ↔ shape := by
    rw [← Bool.not_eq_true, shapesOk_iff, kernelShapeOk_iff, ← not_iff_comm]
    simp only [shape, ↓not_or, ↓not_not, ↓not_exists, ↓not_and_not_right]
  have heven : c.phaseCount % 2 = 0 ↔ ¬c.phaseCount % 2 = 1 := by omega
  simp only [construct_eq_error, construct_eq_ok, exists_and_left, exists_eq, and_true, checkCfg_eq, hparams, hshapes, heven]
  by_cases hodd : c.phaseCount % 2 = 1
  · simp [hodd]
  by_cases hbad : bad
  · simp [hodd, hbad]
  by_cases hshape : shape
  · simp [hodd, hbad, hshape]
  · simp [hodd, hbad, hshape]

/-! ### A refused word and the sticky mark (60_exceptions.md R605) -/

/-- No command clears the mark: only PUSH and a refused RD write the diagnostics. -/
theorem exec_mark {i : Instr} {s t : State} (h : exec i s = .next t) (hs : s.diag.refused = true) :
    t.diag.refused = true := by
  cases execNext_of_exec h with
  | write d hi ha hf hk => exact (congrArg Diag.refused (apuWrite_writeFrame hf _ d s).diag).trans hs
  | rdRefused a => rfl
  | tick => simpa using hs
  | push => exact (congrArg Diag.refused (pushEvents_diag _ s)).trans hs
  | nonapu | rd | drain | renderNothing | render | sinkw | devadv | stop => exact hs

theorem agentStep_mark {s t : State} (h : AgentStep s t) (hs : s.diag.refused = true) : t.diag.refused = true := by
  cases h with
  | refuse => rfl
  | pass | retry | underrun => exact hs

/-- Settles O7: a refused word is the mark set on the state with the turn taken off; neither a command nor the agent
clears it. -/
theorem refusedWordOnlySetsMark : Obligations.RefusedWordOnlySetsMark := by
  unfold Obligations.RefusedWordOnlySetsMark
  refine ⟨fun s w op rest e hturns hdecode => ?_, fun s t h hs => ?_⟩
  · rw [step_of_turns hturns, step_withTurn]
    simp only [hdecode]
    rfl
  · rcases step_command_or_agent h with ⟨i, op, hexec⟩ | ⟨x, hagent⟩
    · exact exec_mark hexec hs
    · exact agentStep_mark hagent hs

/-- Settles O8: an exhausted schedule answers the idle step; a first turn is a turn in front of the rest, which is
answered. -/
theorem everyStepAnswersNext : Obligations.EveryStepAnswersNext := by
  unfold Obligations.EveryStepAnswersNext
  intro s
  cases hturns : s.host.turns with
  | nil => exact ⟨idleStep s, by rw [step, hturns]⟩
  | cons tn rest =>
    rw [step_of_turns hturns]
    exact step_withTurn_answers _ tn

end Sys2Proof.Machine

end ExceptionProofs


/-! ## The end of a run, and pumping (70_reset_and_hazards.md) -/

section HazardProofs

namespace Sys2Proof.Machine

/-! ### The exhausted schedule (70_reset_and_hazards.md R711) -/

theorem step_exhausted {s : State} (h : s.host.turns = []) : step s = .next (idleStep s) := by
  rw [step, h]

theorem runEnded_iff {s : State} (h : s.host.turns = []) :
    runEnded s = true ↔ s.sink.queue = [] ∧ retryEnabled s = false ∧ underrunEnabled s = false := by
  simp [runEnded, h, and_assoc]

theorem idleStep_none {s : State} (hr : retryEnabled s = false) (hu : underrunEnabled s = false) : idleStep s = s := by
  simp [idleStep, hr, hu]

theorem idleStep_retry {s : State} (hr : retryEnabled s = true) (hu : underrunEnabled s = false) :
    idleStep s = retryStep s := by
  simp [idleStep, hr, hu]

theorem idleStep_underrun {s : State} (hr : retryEnabled s = false) (hu : underrunEnabled s = true) :
    idleStep s = underrunStep s := by
  simp [idleStep, hr, hu]

/-- With both steps enabled the free choice takes one of them (R607 item 5). -/
theorem idleStep_both {s : State} (hr : retryEnabled s = true) (hu : underrunEnabled s = true) :
    idleStep s = underrunStep (countChoice s) ∨ idleStep s = retryStep (countChoice s) := by
  simp only [idleStep, hr, hu, Bool.and_self, if_true]
  split
  · exact .inl rfl
  · exact .inr rfl

/-- Settles O10: the idle step by which of the agent's two steps are enabled. -/
theorem exhaustedScheduleStep : Obligations.ExhaustedScheduleStep := by
  unfold Obligations.ExhaustedScheduleStep
  intro s hturns
  rw [step_exhausted hturns]
  refine ⟨runEnded_iff hturns, fun hended => ?_, fun hr hu => congrArg _ (idleStep_none hr hu),
    fun hr hu => congrArg _ (idleStep_retry hr hu), fun hr hu => congrArg _ (idleStep_underrun hr hu), fun hr hu => ?_⟩
  · obtain ⟨-, hr, hu⟩ := (runEnded_iff hturns).mp hended
    rw [idleStep_none hr hu]
  · refine ⟨idleStep s, rfl, ?_⟩
    rcases idleStep_both hr hu with h | h <;> rw [h]
    · exact ⟨⟨⟨⟨rfl, rfl, rfl, rfl⟩, rfl, rfl, rfl, rfl, rfl, rfl⟩, rfl⟩, .inr ⟨rfl, rfl⟩⟩
    · exact ⟨⟨⟨⟨rfl, rfl, rfl, rfl⟩, rfl, rfl, rfl, rfl, rfl, rfl⟩, rfl⟩, .inl ⟨rfl, rfl⟩⟩

/-! ### Pumping (70_reset_and_hazards.md R702) -/

theorem now_le_of_cyc_le {s t : State} (hclock : 0 < s.cfg.clockHz) (hcfg : t.cfg = s.cfg) (hcyc : s.cyc ≤ t.cyc) :
    now s ≤ now t := by
  have hpos : (0 : Rat) < s.cfg.clockHz := Int.cast_pos.mpr hclock
  rw [now, now, hcfg]
  gcongr

/-- `Update()` adds an event at the current time alone (46_mixer_events.md R441). -/
theorem mem_update_events {s : State} {e : Event} (h : e ∈ (update s).events) : e ∈ s.events ∨ e.time = now s := by
  rw [update_events] at h
  split at h
  · exact .inl h
  · exact (List.mem_append.mp h).imp_right fun he => congrArg Event.time (List.mem_singleton.mp he)

/-- The buffered events after a command are earlier ones and one at the time then (R442, R445). -/
theorem exec_events_time {i : Instr} {s t : State} (h : exec i s = .next t) {e : Event} (he : e ∈ t.events) :
    e ∈ s.events ∨ e.time = now t := by
  cases exec_audioChange h with
  | same _ k => exact .inl (k.events ▸ he)
  | write a d f _ _ hf _ ht =>
    subst ht
    refine (mem_update_events he).imp (fun hmem => ?_) fun hnow => hnow
    rwa [hf.events] at hmem
  | tick _ ht =>
    subst ht
    refine (mem_update_events he).imp (fun hmem => ?_) fun hnow => hnow
    simpa using hmem
  | drain _ k => exact absurd (k.events ▸ he) List.not_mem_nil

theorem exec_cyc_le {i : Instr} {s t : State} (h : exec i s = .next t) : s.cyc ≤ t.cyc := by
  have frame := exec_audioFrame h
  by_cases hi : i = .tick
  · rw [frame.cyc_tick hi]
    exact Nat.le_succ _
  · exact (frame.cyc_fs hi).1.ge

/-- No command but RENDER moves the horizon. -/
theorem exec_horizon {i : Instr} {s t : State} (h : exec i s = .next t) (hi : i ≠ .render) : t.rs.h = s.rs.h := by
  by_cases hpush : i = .push
  · subst hpush
    obtain ⟨t', hexec, hrs, -⟩ := pushCommand s
    obtain rfl := Host.Outcome.next.inj (hexec.symm.trans h)
    rw [hrs]
  · rw [exec_rs h hpush hi]

/-- A command after which the time lies past the horizon is ready where the events before it were past the horizon. -/
theorem exec_pumpReady {i : Instr} {s t : State} (h : exec i s = .next t) (hi : i ≠ .render)
    (hoperand : s.host.operand = .latched) (htime : (s.rs.h : Rat) < now t * (t.cfg.sampleRate : Rat))
    (hevents : ∀ e ∈ s.events, (s.rs.h : Rat) < e.time * (s.cfg.sampleRate : Rat)) : PumpReady t := by
  rw [← exec_horizon h hi] at htime hevents
  refine ⟨?_, htime, fun e he => ?_⟩
  · rw [(exec_hostChange h).operand, hoperand, ite_self]
  · rcases exec_events_time h he with hmem | hnow
    · rw [(exec_sinkChange i s t h).1]
      exact hevents e hmem
    · rwa [hnow]

/-- Every command but RENDER keeps the readiness: the horizon stays and time does not go back. -/
theorem exec_keeps_pumpReady {i : Instr} {s t : State} (hs : PumpReady s) (hc : CfgParams s.cfg)
    (h : exec i s = .next t) (hi : i ≠ .render) : PumpReady t := by
  have hcfg := (exec_sinkChange i s t h).1
  refine exec_pumpReady h hi hs.operand (hs.time.trans_le ?_) hs.events
  rw [hcfg]
  exact mul_le_mul_of_nonneg_right (now_le_of_cyc_le hc.clock hcfg (exec_cyc_le h)) (Int.cast_nonneg hc.rate.le)

/-- The end of a rendering lies below the current time by the radius at least (47_resampler.md R488). -/
theorem renderEnd_lt_now {s : State} (hc : CfgParams s.cfg) :
    (renderEnd s : Rat) < now s * (s.cfg.sampleRate : Rat) := by
  have hradius : (1 : Rat) ≤ s.cfg.radius := by exact_mod_cast hc.radius
  have hfloor := Int.floor_le ((s.cyc : Rat) * (s.cfg.sampleRate : Rat) / (s.cfg.clockHz : Rat))
  have hE := congrArg (fun n : Int => (n : Rat)) (renderEnd_eq s)
  rw [mul_div_right_comm] at hfloor hE
  push_cast at hE
  rw [hE]
  exact lt_of_lt_of_le (sub_lt_self _ (by linarith)) hfloor

/-- RENDER keeps the readiness of a state with no buffered event: the horizon stays below the time. -/
theorem render_keeps_pumpReady {s t : State} (hc : CfgParams s.cfg) (hs : PumpReady s) (hnil : s.events = [])
    (h : exec .render s = .next t) : PumpReady t ∧ t.diag = s.diag := by
  have hevents (x : Rat) : ∀ e ∈ s.events, x < e.time * (s.cfg.sampleRate : Rat) := by
    rw [hnil]
    exact fun e he => absurd he List.not_mem_nil
  rcases exec_render_cases s with ⟨-, hexec⟩ | ⟨hE, hexec⟩ <;> obtain rfl := Host.Outcome.next.inj (hexec.symm.trans h)
  · exact ⟨⟨hs.operand, hs.time, hs.events⟩, rfl⟩
  · have hh : (((renderEnd s).toNat : Nat) : Rat) = (renderEnd s : Rat) := by
      exact_mod_cast Int.toNat_of_nonneg (by omega : 0 ≤ renderEnd s)
    exact ⟨⟨hs.operand, hh.trans_lt (renderEnd_lt_now hc), hevents _⟩, rfl⟩

theorem isLate_iff {c : Cfg} {h : Nat} {e : Event} :
    isLate c h e = true ↔ e.time * (c.sampleRate : Rat) ≤ (h : Rat) := decide_eq_true_iff

/-- A PUSH of a ready state's drain counts no late event (47_resampler.md R486). -/
theorem push_not_late {s t : State} (h : exec .push s = .next t) (hoperand : s.host.operand = .latched)
    (hpast : ∀ e ∈ s.host.lastDrain, (s.rs.h : Rat) < e.time * (s.cfg.sampleRate : Rat)) : t.diag.late = s.diag.late := by
  obtain ⟨t', hexec, -, hdiag, -⟩ := pushCommand s
  obtain rfl := Host.Outcome.next.inj (hexec.symm.trans h)
  rw [hoperand] at hdiag
  have hnone : s.host.lastDrain.countP (isLate s.cfg s.rs.h) = 0 :=
    List.countP_eq_zero.mpr fun e he => isLate_iff.not.mpr (not_le.mpr (hpast e he))
  rw [hdiag, hnone]
  rfl

/-- What DRAIN hands to PUSH lies past the horizon from a ready state (46_mixer_events.md R443). -/
theorem drainResult_past {s : State} (hs : PumpReady s) :
    ∀ e ∈ drainResult s, (s.rs.h : Rat) < e.time * (s.cfg.sampleRate : Rat) := by
  intro e he
  rcases List.mem_append.mp he with hmem | hmem
  · exact hs.events e hmem
  · obtain rfl := List.mem_singleton.mp hmem
    exact hs.time

/-- A pump from a ready state counts no late event and leaves a ready state: what DRAIN hands over lies past the horizon,
and RENDER finds the event list empty. -/
theorem pump_not_late {s : State} (hc : CfgParams s.cfg) (hs : PumpReady s) :
    ∃ a b c t, exec .drain s = .next a ∧ exec .push a = .next b ∧ exec .render b = .next c ∧ exec .sinkw c = .next t
      ∧ t.diag.late = s.diag.late ∧ PumpReady t := by
  have hdrain := exec_drain s
  have haready := exec_keeps_pumpReady hs hc hdrain nofun
  obtain ⟨b, hpush⟩ := exec_answers .push
    (observe (.drained (drainResult s)) (latchEvents (drainResult s) (s.withEvents [])))
  have hbready := exec_keeps_pumpReady haready hc hpush nofun
  have hbcfg : b.cfg = s.cfg := (exec_sinkChange _ _ b hpush).1
  have hbevents : b.events = [] := (exec_audioFrame hpush).events_same (by decide) nofun nofun
  have hblate := push_not_late hpush hs.operand (drainResult_past hs)
  obtain ⟨c, hrender⟩ := exec_answers .render b
  obtain ⟨hcready, hcdiag⟩ := render_keeps_pumpReady (hbcfg ▸ hc) hbready hbevents hrender
  have hccfg : c.cfg = s.cfg := (exec_sinkChange _ _ c hrender).1.trans hbcfg
  obtain ⟨t, hsinkw, -, -, htdiag, -⟩ := exec_sinkw c
  refine ⟨_, b, c, t, hdrain, hpush, hrender, hsinkw, ?_, exec_keeps_pumpReady hcready (hccfg ▸ hc) hsinkw nofun⟩
  rw [htdiag, hcdiag]
  exact hblate

/-- The first TICK brings the time past a horizon at 0. -/
theorem tick_pumpReady {s t : State} (hc : CfgParams s.cfg) (hhorizon : s.rs.h = 0) (hevents : s.events = [])
    (hoperand : s.host.operand = .latched) (h : exec .tick s = .next t) : PumpReady t := by
  have hcyc : t.cyc = s.cyc + 1 := (exec_audioFrame h).cyc_tick rfl
  have hcfg : t.cfg = s.cfg := (exec_sinkChange _ s t h).1
  have hclock : (0 : Rat) < s.cfg.clockHz := Int.cast_pos.mpr hc.clock
  have hrate : (0 : Rat) < s.cfg.sampleRate := Int.cast_pos.mpr hc.rate
  refine exec_pumpReady h nofun hoperand ?_ fun e he => absurd (hevents ▸ he) List.not_mem_nil
  rw [hhorizon, now, hcyc, hcfg]
  push_cast
  positivity

/-- Settles O45: a pump counts nothing late, every command but RENDER keeps the readiness, and the first TICK makes it. -/
theorem pumpingIsNeverLate : Obligations.PumpingIsNeverLate := by
  unfold Obligations.PumpingIsNeverLate
  exact ⟨fun s hc hs => pump_not_late (checkCfg_ok hc).1 hs,
    fun i s t hc hi hs h => exec_keeps_pumpReady hs (checkCfg_ok hc).1 h hi,
    fun s t hc hhorizon hevents hoperand h => tick_pumpReady (checkCfg_ok hc).1 hhorizon hevents hoperand h⟩

end Sys2Proof.Machine

end HazardProofs
